-- ==== Sys2Proof/Word.lean ====
section
/-!
DEFINITION. The value types every block shares: Byte, FlagSet, bit-string, adder mode, text.
Plain types only; every conversion and computation over them stands in Machine/Bits.lean.
-/
namespace Sys2Proof

/-- A Byte, "an integer constrained to [0, 255]" (R20). Bit 7 is the most significant (R9). -/
abbrev Byte := BitVec 8

/-- A bit-string: exactly eight characters 0 or 1 (R10, R20). Entry `k` is the character at STRING INDEX `k`:
index 0 is bit 7, index 7 is bit 0. -/
abbrev BitString := Vector Bool 8

/-- Text of statements, names and descriptions, as its characters. -/
abbrev Text := List Char

/-- "Four independent booleans" (R21), written Z, N, C, V by R13; the spec gives no packed layout. -/
structure FlagSet where
  zero : Bool
  negative : Bool
  carry : Bool
  overflow : Bool
  deriving DecidableEq, Repr, Inhabited

/-- All four flags false, the value `reset()` leaves in both interpreter FlagSets (R207). -/
def FlagSet.clear : FlagSet := ⟨false, false, false, false⟩

/-- `mode` of the adder: 0 is `unsigned`, 1 is `twos-complement` (R25, R83). -/
inductive AdderMode where
  | unsigned
  | twosComplement
  deriving DecidableEq, Repr, Inhabited

/-- Legal values of ADDER_SUB_OVF_SIGN (R8, R150). -/
inductive SubOvfSign where
  | flipB
  | msbOfNegatedB
  deriving DecidableEq, Repr, Inhabited

end Sys2Proof
end

