-- ==== Sys2Proof/Config.lean ====
section
/-!
DEFINITION. The creation-time parameters of an instance (R8, D33) and the free values: what the spec leaves open,
as constants without a body, so that no proof can rest on any particular value.
-/
namespace Sys2Proof

/-- The parameters of R8 with the presets of U13, "fixed when the block is created" and never changed (D33).
The state carries them, so a statement about every state holds for every configuration (log 5). -/
structure Params where
  /-- MEM_SIZE, the number of Bytes of data memory. -/
  memSize : Nat
  /-- NREGS, the number of general registers. -/
  nregs : Nat
  /-- CLOCK_INTERVAL; no rule depends on it (D28). -/
  clockInterval : Nat
  /-- RESET_CLEARS_MEM, open (C1, D18). -/
  resetClearsMem : Bool
  /-- ADDER_SUB_OVF_SIGN (D8). -/
  adderSubOvfSign : SubOvfSign
  /-- PROG_MAX, the largest micro-program length, open (D36). -/
  progMax : Nat
  /-- The presets, names with their statement texts (R210, U13). -/
  presets : List (Text × List Text)
  deriving DecidableEq, Repr

namespace Config

/-- FREE VALUE (log 2): ALU.RESULT before the first operation, "unspecified", never zero (R23, D3, U2). -/
opaque aluResultAtPowerOn : Byte

/-- FREE VALUE (log 2): ALU.FLAGS before the first operation (R23, D3, U2). -/
opaque aluFlagsAtPowerOn : FlagSet

/-- FREE VALUE (log 3): ADDER.MODE at power-on (R25, D7, U5). -/
opaque adderModeAtPowerOn : AdderMode

/-- FREE VALUE (log 9): the wording of the description strings the spec does not give (R214, U6), one for each value
of the counter `freeIndex`. -/
opaque freeText : Nat → Text

/-- OPEN (log 6): whether `reset()` clears data memory (R252, D18, U8). -/
opaque resetClearsMem : Bool

/-- OPEN (log 6): CLOCK_INTERVAL (R8, D28, U12). -/
opaque clockInterval : Nat

/-- OPEN (log 6): PROG_MAX less one, so that PROG_MAX is 1 or more (R8, D36, U22). -/
opaque progMaxLessOne : Nat

/-- OPEN (log 7): the presets whose names and contents the source does not give (R210, D37, U13). -/
opaque otherPresets : List (Text × List Text)

/-- The name of the one preset the source names (R210, C3). -/
def fetchDecodeExecuteName : Text := "fetch-decode-execute".toList

/-- The spec's reconstruction of that preset (R210, D37). -/
def fetchDecodeExecuteTexts : List Text :=
  ["MAR ← PC".toList, "MDR ← Mem[MAR]".toList, "IR ← MDR".toList, "PC ← PC + 1".toList]

/-- The parameters of State.reset: DT's defaults where R8 gives one, free constants where it says OPEN. -/
def defaultParams : Params where
  memSize := 256
  nregs := 8
  clockInterval := clockInterval
  resetClearsMem := resetClearsMem
  adderSubOvfSign := .flipB
  progMax := progMaxLessOne + 1
  presets := (fetchDecodeExecuteName, fetchDecodeExecuteTexts) :: otherPresets.filter fun p => !p.2.isEmpty

end Config
end Sys2Proof
end

