-- ==== Sys2Proof/Machine/Bits.lean ====
section
/-!
DEFINITION. Conversions between integers, Bytes, bit-strings and text, and the ripple-carry primitive of the
Bit-Serial Adder (R10, R11, R140 to R143). No state is read here.
-/
namespace Sys2Proof.Machine

/-- `v & 0xFF` on an unbounded integer: the non-negative remainder modulo 256 (R11). -/
def maskByte (raw : Int) : Byte := BitVec.ofInt 8 raw

/-- "Sign" of a Byte means bit 7 (R9). -/
def signBit (v : Byte) : Bool := v.getLsbD 7

/-- The Byte an integer is, where it lies in 0 to 255 (R20). -/
def byteOfInt (v : Int) : Option Byte := if 0 ≤ v ∧ v ≤ 255 then some (BitVec.ofInt 8 v) else none

/-- A list of integers as Bytes, all or nothing. -/
def bytesOfInts : List Int → Option (List Byte)
  | [] => some []
  | v :: rest =>
    match byteOfInt v, bytesOfInts rest with
    | some b, some bs => some (b :: bs)
    | _, _ => none

/-! ### Bit-strings -/

/-- The character of a bit-string at string index `k`. -/
def bitAt (s : BitString) (k : Nat) : Bool := s.toList.getD k false

/-- The bit-string whose characters from index 0 on are the first eight of a list. -/
def bitStringOf (l : List Bool) : BitString :=
  #v[l.getD 0 false, l.getD 1 false, l.getD 2 false, l.getD 3 false,
     l.getD 4 false, l.getD 5 false, l.getD 6 false, l.getD 7 false]

/-- `str8(v)`: the bit-string of a Byte, most significant bit first (R10). -/
def str8 (v : Byte) : BitString :=
  #v[v.getLsbD 7, v.getLsbD 6, v.getLsbD 5, v.getLsbD 4, v.getLsbD 3, v.getLsbD 2, v.getLsbD 1, v.getLsbD 0]

/-- The number a list of bits writes, most significant first. -/
def natOfBits (l : List Bool) : Nat := l.foldl (fun acc b => 2 * acc + b.toNat) 0

/-- `val(s)` as a number, 0 to 255 (R10). -/
def bitsVal (s : BitString) : Nat := natOfBits s.toList

/-- `val(s)` as a Byte (R10). -/
def bitsByte (s : BitString) : Byte := BitVec.ofNat 8 (bitsVal s)

/-- One character of a bit-string argument. -/
def bitOfChar (c : Char) : Option Bool :=
  if c = '0' then some false else if c = '1' then some true else none

/-- The bit-string a text spells; none unless it is "exactly 8 characters of '0'/'1'" (R20, R156). -/
def bitStringOfText (t : Text) : Option BitString :=
  if t.length = 8 ∧ t.all (fun c => (bitOfChar c).isSome) then
    some (bitStringOf (t.map fun c => (bitOfChar c).getD false))
  else none

/-! ### Encode and decode of the adder's operands -/

/-- The mode's legal range: 0 to 255, or -128 to 127 (R156). -/
def inLegalRange : AdderMode → Int → Bool
  | .unsigned, v => decide (0 ≤ v ∧ v ≤ 255)
  | .twosComplement, v => decide (-128 ≤ v ∧ v ≤ 127)

/-- `toBinary(value, mode)` (R140); meant for a value in the mode's legal range. -/
def toBinary (v : Int) : AdderMode → BitString
  | .unsigned => str8 (BitVec.ofInt 8 v)
  | .twosComplement => if 0 ≤ v then str8 (BitVec.ofInt 8 v) else str8 (BitVec.ofInt 8 (256 + v))

/-- `fromBinary(bits, mode)` (R141). -/
def fromBinary (s : BitString) : AdderMode → Int
  | .unsigned => (bitsVal s : Int)
  | .twosComplement => if 128 ≤ bitsVal s then (bitsVal s : Int) - 256 else (bitsVal s : Int)

/-! ### The ripple-carry primitive -/

/-- One iteration of a ripple-carry pass, the record of R152: string index, the two operand bits, carry in, sum bit,
carry out. -/
structure AdderStep where
  k : Nat
  a : Bool
  b : Bool
  cIn : Bool
  sum : Bool
  cOut : Bool
  deriving DecidableEq, Repr

/-- One position of R142: `sum = bitA + bitB + c`, emit `sum % 2`, carry `floor(sum / 2)`. -/
def fullAdd (k : Nat) (a b c : Bool) : AdderStep :=
  let sum := a.toNat + b.toNat + c.toNat
  { k := k, a := a, b := b, cIn := c, sum := sum % 2 == 1, cOut := sum / 2 == 1 }

/-- The iterations over the given positions in processing order, the running carry handed from each to the next. -/
def rippleSteps : List (Nat × Bool × Bool) → Bool → List AdderStep
  | [], _ => []
  | (k, a, b) :: rest, c => fullAdd k a b c :: rippleSteps rest (fullAdd k a b c).cOut

/-- The positions of a pass: string indices 7 down to 0, so bit 0 first (R142, C4). -/
def ripplePositions (x y : BitString) : List (Nat × Bool × Bool) :=
  [7, 6, 5, 4, 3, 2, 1, 0].map fun k => (k, bitAt x k, bitAt y k)

/-- What `addBinary` answers, with its eight iterations in processing order. -/
structure SumOut where
  bits : BitString
  carry : Bool
  steps : List AdderStep
  deriving DecidableEq, Repr

/-- `addBinary(bitsA, bitsB)` (R142): the running carry starts at 0, the output is built MSB first and the trailing
carry is reported separately. -/
def addBinary (x y : BitString) : SumOut :=
  let steps := rippleSteps (ripplePositions x y) false
  { bits := bitStringOf (steps.map AdderStep.sum).reverse
    carry := (steps.map AdderStep.cOut).getLastD false
    steps := steps }

/-- Every character inverted. -/
def invertBits (s : BitString) : BitString := bitStringOf (s.toList.map (!·))

/-- The bit-string 00000001. -/
def oneBits : BitString := #v[false, false, false, false, false, false, false, true]

/-- `twosComplement(bits)` (R143): invert, add binary 1 by the same primitive, drop the carry. -/
def twosComplement (s : BitString) : BitString := (addBinary (invertBits s) oneBits).bits

/-! ### Text -/

/-- The decimal digits of a number, least significant first; the fuel bounds their count. -/
def digitsRev : Nat → Nat → List Nat
  | 0, _ => []
  | fuel + 1, n => if n < 10 then [n] else (n % 10) :: digitsRev fuel (n / 10)

/-- The character of a decimal digit. -/
def digitChar (d : Nat) : Char := Char.ofNat (48 + d)

/-- A number in decimal without leading zeros. -/
def decimal (n : Nat) : Text := ((digitsRev (n + 1) n).reverse).map digitChar

/-- The character of a hexadecimal digit, capital letters. -/
def hexChar (d : Nat) : Char := if d < 10 then Char.ofNat (48 + d) else Char.ofNat (55 + d)

/-- A word as the spec writes it, `0x` and two hexadecimal digits. -/
def hexWord (w : Byte) : Text := ['0', 'x', hexChar (w.toNat / 16), hexChar (w.toNat % 16)]

/-- An ASCII letter in lower case, any other character as it is. -/
def asciiLower (c : Char) : Char := if 65 ≤ c.toNat ∧ c.toNat ≤ 90 then Char.ofNat (c.toNat + 32) else c

/-- A text with the case of its ASCII letters ignored (R85). -/
def foldCase (t : Text) : Text := t.map asciiLower

/-- Whether a character is a decimal digit. -/
def isDigit (c : Char) : Bool := decide (48 ≤ c.toNat ∧ c.toNat ≤ 57)

/-- The number a decimal numeral writes; none for a text that is no numeral or has a leading zero (R85, U10). -/
def parseDecimal (t : Text) : Option Nat :=
  if t ≠ [] ∧ t.all isDigit ∧ (t.length = 1 ∨ t.head? ≠ some '0') then
    some (t.foldl (fun acc c => 10 * acc + (c.toNat - 48)) 0)
  else none

/-- The index of a text that is `pre`, a decimal numeral, `suf`. -/
def indexBetween (pre suf t : Text) : Option Nat :=
  let middle := (t.drop pre.length).take (t.length - pre.length - suf.length)
  if t = pre ++ middle ++ suf then parseDecimal middle else none

end Sys2Proof.Machine
end

