-- ==== Sys2Proof/Syntax.lean ====
section
/-!
DEFINITION. The instructions: one constructor of Instr per row of spec/opcode_table.json, the micro-operation variants
the control store holds, and the three forms in which an instruction is issued to its block.
-/
namespace Sys2Proof

/-- The three instruction spaces; "no instruction of one block can be issued to another" (R80). -/
inductive Space where
  | aluOp
  | adderCtl
  | uop
  deriving DecidableEq, Repr

/-- A micro-operation variant, row by row of R84; UNKNOWN is the explicit no-operation (R90). The index `n` is any
natural number at variant level (R86, D15); its word form has four bits (R87). -/
inductive Uop where
  | marPc
  | mdrMem
  | irMdr
  | pcInc
  | aR (n : Nat)
  | bR (n : Nat)
  | aluAdd
  | aluSub
  | aluAnd
  | rAlu (n : Nat)
  | flagsAlu
  | memMdr
  | unknown
  deriving DecidableEq, Repr

/-- Every instruction of the three blocks: the ALU operations with their Byte operands (R82; the five one-operand
operations have no `b`, D4), the adder operations with mode and integer operands (R83), the micro-operations (R84). -/
inductive Instr where
  | and (a b : Byte)
  | or (a b : Byte)
  | xor (a b : Byte)
  | not (a : Byte)
  | add (a b : Byte)
  | sub (a b : Byte)
  | inc (a : Byte)
  | dec (a : Byte)
  | shl (a : Byte)
  | shr (a : Byte)
  | adderAdd (m : AdderMode) (a b : Int)
  | adderSub (m : AdderMode) (a b : Int)
  | marPc
  | mdrMem
  | irMdr
  | pcInc
  | aR (n : Nat)
  | bR (n : Nat)
  | aluAdd
  | aluSub
  | aluAnd
  | rAlu (n : Nat)
  | flagsAlu
  | memMdr
  | unknown
  deriving DecidableEq, Repr

/-- The instruction a micro-operation variant is. -/
def Uop.toInstr : Uop → Instr
  | .marPc => .marPc
  | .mdrMem => .mdrMem
  | .irMdr => .irMdr
  | .pcInc => .pcInc
  | .aR n => .aR n
  | .bR n => .bR n
  | .aluAdd => .aluAdd
  | .aluSub => .aluSub
  | .aluAnd => .aluAnd
  | .rAlu n => .rAlu n
  | .flagsAlu => .flagsAlu
  | .memMdr => .memMdr
  | .unknown => .unknown

/-- The block an instruction belongs to (R80). -/
def Instr.space : Instr → Space
  | .and _ _ => .aluOp
  | .or _ _ => .aluOp
  | .xor _ _ => .aluOp
  | .not _ => .aluOp
  | .add _ _ => .aluOp
  | .sub _ _ => .aluOp
  | .inc _ => .aluOp
  | .dec _ => .aluOp
  | .shl _ => .aluOp
  | .shr _ => .aluOp
  | .adderAdd _ _ _ => .adderCtl
  | .adderSub _ _ _ => .adderCtl
  | .marPc => .uop
  | .mdrMem => .uop
  | .irMdr => .uop
  | .pcInc => .uop
  | .aR _ => .uop
  | .bR _ => .uop
  | .aluAdd => .uop
  | .aluSub => .uop
  | .aluAnd => .uop
  | .rAlu _ => .uop
  | .flagsAlu => .uop
  | .memMdr => .uop
  | .unknown => .uop

/-- An instruction as its block receives it in binary: the 4-bit `op` beside two Bytes (R81), the 2-bit `{s, m}` beside
the two operand bit-strings as Bytes (R83), or the 8-bit word of the control store (R87). -/
inductive IssueWord where
  | alu (op : BitVec 4) (a b : Byte)
  | adder (ctl : BitVec 2) (a b : Byte)
  | uop (w : Byte)
  deriving DecidableEq, Repr

/-- The space a binary form belongs to. -/
def IssueWord.space : IssueWord → Space
  | .alu _ _ _ => .aluOp
  | .adder _ _ _ => .adderCtl
  | .uop _ => .uop

end Sys2Proof
end

