-- ==== Sys2Proof/WellFormed.lean ====
section
/-!
DEFINITION. The checks on instructions and parameters: adder operands in their mode's legal range (R156), the register
index of a word form (R87), the legal ranges of the parameters (R8, U13, U15).
-/
namespace Sys2Proof

/-- The first operand of an adder operation lies in its mode's legal range (R156). -/
def Instr.firstOperandLegal : Instr → Bool
  | .adderAdd m a _ => Machine.inLegalRange m a
  | .adderSub m a _ => Machine.inLegalRange m a
  | _ => true

/-- The second operand of an adder operation lies in its mode's legal range (R156). -/
def Instr.secondOperandLegal : Instr → Bool
  | .adderAdd m _ b => Machine.inLegalRange m b
  | .adderSub m _ b => Machine.inLegalRange m b
  | _ => true

/-- A well-formed instruction: one its block accepts (R156). A register index is any number (R86). -/
abbrev Instr.WellFormed (i : Instr) : Prop := i.firstOperandLegal = true ∧ i.secondOperandLegal = true

/-- The register index fits the four bits of the word form (R87); true of an instruction without an index. -/
def Instr.indexFits : Instr → Bool
  | .aR n => decide (n < 16)
  | .bR n => decide (n < 16)
  | .rAlu n => decide (n < 16)
  | _ => true

/-- The instruction has a binary form: it is well formed and its index fits (R87). -/
abbrev Instr.HasWord (i : Instr) : Prop := i.WellFormed ∧ i.indexFits = true

/-- MEM_SIZE is 1 to 256 (R8, D15). -/
def Params.memSizeLegal (p : Params) : Bool := decide (1 ≤ p.memSize ∧ p.memSize ≤ 256)

/-- NREGS is 1 or more (R8, D15); the bound 16 of the word form is checked where words are loaded. -/
def Params.nregsLegal (p : Params) : Bool := decide (1 ≤ p.nregs)

/-- PROG_MAX is 1 or more (R8, D36). -/
def Params.progMaxLegal (p : Params) : Bool := decide (1 ≤ p.progMax)

/-- Every preset is non-empty and `fetch-decode-execute` is one, beginning with the four statements of D37 (U13). -/
def Params.presetsLegal (p : Params) : Bool :=
  p.presets.all (fun q => !q.2.isEmpty) &&
    match p.presets.lookup Config.fetchDecodeExecuteName with
    | some texts => Config.fetchDecodeExecuteTexts.isPrefixOf texts
    | none => false

/-- Parameters an instance can be created with (R8, U13, U15). -/
abbrev Params.WellFormed (p : Params) : Prop :=
  p.memSizeLegal = true ∧ p.nregsLegal = true ∧ p.progMaxLegal = true ∧ p.presetsLegal = true

end Sys2Proof
end

