-- ==== Sys2Proof/Decode.lean ====
section
/-!
DEFINITION. The decoders of the three instruction spaces (R82, R83, R85, R88, R89, R90), then the encoders written from
the same tables. Each decoder is total; the ALU decoder rejects the reserved codes by name.
-/
namespace Sys2Proof

/-- Why a binary form is no instruction. -/
inductive DecodeError where
  /-- ALU-OP codes 1010 to 1111, reserved without meaning (R89, U3). -/
  | reservedAluOp (op : BitVec 4)
  deriving DecidableEq, Repr

/-- The ALU-OP code table (R82). The `b` input of the one-operand operations is ignored (R81, D4). -/
def decodeAluOp (op : BitVec 4) (a b : Byte) : Except DecodeError Instr :=
  match op.toNat with
  | 0 => .ok (.and a b)
  | 1 => .ok (.or a b)
  | 2 => .ok (.xor a b)
  | 3 => .ok (.not a)
  | 4 => .ok (.add a b)
  | 5 => .ok (.sub a b)
  | 6 => .ok (.inc a)
  | 7 => .ok (.dec a)
  | 8 => .ok (.shl a)
  | 9 => .ok (.shr a)
  | _ => .error (.reservedAluOp op)

/-- The `m` bit of ADDER-CTL (R83). -/
def decodeMode (m : Bool) : AdderMode := if m then .twosComplement else .unsigned

/-- ADDER-CTL: bit 1 is `s`, bit 0 is `m`; no code is reserved (R83, R89). The operands arrive as the bit-strings of the
two Bytes and are read in the mode's way (R141). -/
def decodeAdderCtl (ctl : BitVec 2) (a b : Byte) : Instr :=
  let m := decodeMode (ctl.getLsbD 0)
  let x := Machine.fromBinary (Machine.str8 a) m
  let y := Machine.fromBinary (Machine.str8 b) m
  if ctl.getLsbD 1 then .adderSub m x y else .adderAdd m x y

/-- The UOP opcode map (R88): the rows with mask 0xFF first, then those with mask 0xF0, then UNKNOWN (R89). -/
def decodeUop (w : Byte) : Uop :=
  if w = 0x10#8 then .marPc
  else if w = 0x20#8 then .mdrMem
  else if w = 0x30#8 then .irMdr
  else if w = 0x40#8 then .pcInc
  else if w = 0x70#8 then .aluAdd
  else if w = 0x80#8 then .aluSub
  else if w = 0x90#8 then .aluAnd
  else if w = 0xB0#8 then .flagsAlu
  else if w = 0xC0#8 then .memMdr
  else if w &&& 0xF0#8 = 0x50#8 then .aR (w &&& 0x0F#8).toNat
  else if w &&& 0xF0#8 = 0x60#8 then .bR (w &&& 0x0F#8).toNat
  else if w &&& 0xF0#8 = 0xA0#8 then .rAlu (w &&& 0x0F#8).toNat
  else .unknown

/-- The instruction a binary form stands for. -/
def decode : IssueWord → Except DecodeError Instr
  | .alu op a b => decodeAluOp op a b
  | .adder ctl a b => .ok (decodeAdderCtl ctl a b)
  | .uop w => .ok (decodeUop w).toInstr

/-! ### The text form of a micro-operation -/

/-- The canonical text of the statements without an index (R84). -/
def fixedTexts : List (Uop × Text) :=
  [(.marPc, "MAR ← PC".toList),
   (.mdrMem, "MDR ← Mem[MAR]".toList),
   (.irMdr, "IR ← MDR".toList),
   (.pcInc, "PC ← PC + 1".toList),
   (.aluAdd, "ALU ← A + B".toList),
   (.aluSub, "ALU ← A - B".toList),
   (.aluAnd, "ALU ← A & B".toList),
   (.flagsAlu, "FLAGS ← ALU.flags".toList),
   (.memMdr, "Mem[MAR] ← MDR".toList)]

/-- The text before and after the index of `A ← R[n]`, `B ← R[n]` and `R[n] ← ALU` (R84). -/
def aRPrefix : Text := "A ← R[".toList
/-- See aRPrefix. -/
def bRPrefix : Text := "B ← R[".toList
/-- See aRPrefix. -/
def rAluPrefix : Text := "R[".toList
/-- See aRPrefix. -/
def indexSuffix : Text := "]".toList
/-- See aRPrefix. -/
def rAluSuffix : Text := "] ← ALU".toList

/-- The row of R84 without an index whose canonical text a text equals, letter case ignored. -/
def parseFixed (t : Text) : Option Uop :=
  (fixedTexts.find? fun row => Machine.foldCase row.2 = Machine.foldCase t).map Prod.fst

/-- The index of a text of the given canonical form, letter case ignored. -/
def parseIndexed (pre suf t : Text) : Option Nat :=
  Machine.indexBetween (Machine.foldCase pre) (Machine.foldCase suf) (Machine.foldCase t)

/-- The parser (R85, R90): total, canonical spelling up to ASCII letter case, every other text is UNKNOWN. -/
def parseUop (t : Text) : Uop :=
  match parseFixed t with
  | some u => u
  | none =>
    match parseIndexed aRPrefix indexSuffix t with
    | some n => .aR n
    | none =>
      match parseIndexed bRPrefix indexSuffix t with
      | some n => .bR n
      | none =>
        match parseIndexed rAluPrefix rAluSuffix t with
        | some n => .rAlu n
        | none => .unknown

/-- The canonical text of a variant (R84). UNKNOWN has none; a variant given as UNKNOWN is spelled as its canonical
word (log 12). -/
def canonicalText : Uop → Text
  | .marPc => "MAR ← PC".toList
  | .mdrMem => "MDR ← Mem[MAR]".toList
  | .irMdr => "IR ← MDR".toList
  | .pcInc => "PC ← PC + 1".toList
  | .aR n => aRPrefix ++ Machine.decimal n ++ indexSuffix
  | .bR n => bRPrefix ++ Machine.decimal n ++ indexSuffix
  | .aluAdd => "ALU ← A + B".toList
  | .aluSub => "ALU ← A - B".toList
  | .aluAnd => "ALU ← A & B".toList
  | .rAlu n => rAluPrefix ++ Machine.decimal n ++ rAluSuffix
  | .flagsAlu => "FLAGS ← ALU.flags".toList
  | .memMdr => "Mem[MAR] ← MDR".toList
  | .unknown => Machine.hexWord 0x00#8

/-- The text of a word: the canonical text of what it decodes to, or the word itself for UNKNOWN (R214). -/
def wordText (w : Byte) : Text :=
  if decodeUop w = .unknown then Machine.hexWord w else canonicalText (decodeUop w)

/-! ### Argument values of the adder's entry points -/

/-- The two values of `mode` (R83). -/
def parseMode (t : Text) : Option AdderMode :=
  if t = "unsigned".toList then some .unsigned
  else if t = "twos-complement".toList then some .twosComplement
  else none

/-- The two values of `operation`, the spec's labels (R83); true is subtraction. -/
def parseOperation (t : Text) : Option Bool :=
  if t = "add".toList then some false
  else if t = "sub".toList then some true
  else none

/-! ### Encoders -/

/-- The `m` bit of a mode (R83). -/
def encodeMode : AdderMode → BitVec 2
  | .unsigned => 0#2
  | .twosComplement => 1#2

/-- The four-bit index field of a word, where the index fits (R87). -/
def indexedWord (opc : Byte) (n : Nat) : Option Byte :=
  if n < 16 then some (opc ||| BitVec.ofNat 8 n) else none

/-- The word of a micro-operation (R88); none for an index above 15. -/
def encodeUop : Uop → Option Byte
  | .marPc => some 0x10#8
  | .mdrMem => some 0x20#8
  | .irMdr => some 0x30#8
  | .pcInc => some 0x40#8
  | .aR n => indexedWord 0x50#8 n
  | .bR n => indexedWord 0x60#8 n
  | .aluAdd => some 0x70#8
  | .aluSub => some 0x80#8
  | .aluAnd => some 0x90#8
  | .rAlu n => indexedWord 0xA0#8 n
  | .flagsAlu => some 0xB0#8
  | .memMdr => some 0xC0#8
  | .unknown => some 0x00#8

/-- The binary form of an adder operation: `s` in bit 1, the operands by `toBinary` (R83, R140). -/
def encodeAdder (s : BitVec 2) (m : AdderMode) (a b : Int) : Option IssueWord :=
  if Machine.inLegalRange m a && Machine.inLegalRange m b then
    some (.adder (s ||| encodeMode m) (Machine.bitsByte (Machine.toBinary a m)) (Machine.bitsByte (Machine.toBinary b m)))
  else none

/-- The binary form of an instruction (R82, R83, R88). A one-operand ALU operation is presented with `b = 0`, which it
ignores. None for what has no binary form. -/
def encode : Instr → Option IssueWord
  | .and a b => some (.alu 0x0#4 a b)
  | .or a b => some (.alu 0x1#4 a b)
  | .xor a b => some (.alu 0x2#4 a b)
  | .not a => some (.alu 0x3#4 a 0#8)
  | .add a b => some (.alu 0x4#4 a b)
  | .sub a b => some (.alu 0x5#4 a b)
  | .inc a => some (.alu 0x6#4 a 0#8)
  | .dec a => some (.alu 0x7#4 a 0#8)
  | .shl a => some (.alu 0x8#4 a 0#8)
  | .shr a => some (.alu 0x9#4 a 0#8)
  | .adderAdd m a b => encodeAdder 0#2 m a b
  | .adderSub m a b => encodeAdder 2#2 m a b
  | .marPc => (encodeUop .marPc).map .uop
  | .mdrMem => (encodeUop .mdrMem).map .uop
  | .irMdr => (encodeUop .irMdr).map .uop
  | .pcInc => (encodeUop .pcInc).map .uop
  | .aR n => (encodeUop (.aR n)).map .uop
  | .bR n => (encodeUop (.bR n)).map .uop
  | .aluAdd => (encodeUop .aluAdd).map .uop
  | .aluSub => (encodeUop .aluSub).map .uop
  | .aluAnd => (encodeUop .aluAnd).map .uop
  | .rAlu n => (encodeUop (.rAlu n)).map .uop
  | .flagsAlu => (encodeUop .flagsAlu).map .uop
  | .memMdr => (encodeUop .memMdr).map .uop
  | .unknown => (encodeUop .unknown).map .uop

/-! ### Words as spec/opcode_table.json numbers them -/

/-- The binary form whose table word is `w`, operand bits above the table's bits zero (log 13). The table's words do not
name their block: a width of 2 is ADDER-CTL and of 4 is ALU-OP; among words of one Byte, 1 to 9 are taken as ALU-OP
codes and every other as a UOP word. -/
def tableIssueWord (nbits w : Nat) : Option IssueWord :=
  if nbits = 2 ∧ w < 4 then some (.adder (BitVec.ofNat 2 w) 0#8 0#8)
  else if nbits = 4 ∧ w < 16 then some (.alu (BitVec.ofNat 4 w) 0#8 0#8)
  else if nbits = 8 ∧ w < 256 then
    if 1 ≤ w ∧ w ≤ 9 then some (.alu (BitVec.ofNat 4 w) 0#8 0#8) else some (.uop (BitVec.ofNat 8 w))
  else none

/-- The instruction the decoder reads from a table word. -/
def decodeTableWord (nbits w : Nat) : Option Instr :=
  match tableIssueWord nbits w with
  | some x =>
    match decode x with
    | .ok i => some i
    | .error _ => none
  | none => none

end Sys2Proof
end

