-- ==== Sys2Proof/Machine/State.lean ====
section
/-!
DEFINITION. The state of the three blocks (10_state.md), the requests of the agents outside, what a request returns, the
reasons a step can stop, and the state right after creation (R250).
-/
namespace Sys2Proof.Machine

/-! ### ALU Engine -/

/-- The ALU latch, "exactly one `result: Byte` and one `FlagSet`" (R22). -/
structure AluLatch where
  result : Byte
  flags : FlagSet
  deriving DecidableEq, Repr

/-! ### Bit-Serial Adder -/

/-- What `calculate` returns (R145, R146, R155). -/
structure Calculation where
  resultDecimal : Int
  resultBits : BitString
  carryOut : Bool
  flags : FlagSet
  stepTrace : List AdderStep
  deriving DecidableEq, Repr

/-! ### Micro-Operation Interpreter -/

/-- Data memory, as its non-zero cells by strictly rising address. -/
abbrev Memory := List Host.Cell

/-- What an unlisted address of data memory reads as: memory is 0 at creation (R44, D17; log 4). -/
def Memory.unlisted : Byte := 0#8

/-- The one canonical form: addresses strictly rising, no entry equal to what an unlisted address reads as. -/
abbrev Memory.wf (m : Memory) : Prop :=
  m.Pairwise (fun c d => c.1 < d.1) ∧ ∀ c ∈ m, c.2 ≠ Memory.unlisted

/-- A statement of the control store: its variant and the text it was loaded with (R36, R90). -/
structure Statement where
  uop : Uop
  text : Text
  deriving DecidableEq, Repr

/-- The run state (R38). -/
inductive RunState where
  | idle
  | running
  | paused
  | completed
  deriving DecidableEq, Repr

/-- A record of `executionTrace` (R39, R214). -/
structure TraceEntry where
  step : Nat
  operation : Text
  result : Text
  deriving DecidableEq, Repr

/-- A statement as the host gives it: a text, a variant or a word (R209). -/
inductive Source where
  | text (t : Text)
  | variant (u : Uop)
  | word (w : Byte)
  deriving DecidableEq, Repr

/-! ### Snapshots and pokes -/

/-- The datapath aggregate, the `state` of a snapshot (R211, D31). -/
structure Datapath where
  registers : List Byte
  pc : Byte
  ir : Byte
  mar : Byte
  mdr : Byte
  busA : Byte
  busB : Byte
  aluResult : Byte
  aluFlags : FlagSet
  flags : FlagSet
  memory : List Byte
  deriving DecidableEq, Repr

/-- `exportState()`'s `{microProgram, state, presetName}` (R211). -/
structure Snapshot where
  microProgram : List Text
  state : Datapath
  presetName : Option Text
  deriving DecidableEq, Repr

/-- The datapath part of a snapshot as handed to `importState`: a field is none where it is missing or of a wrong type,
and a number may lie outside 0 to 255 (R212, D29). -/
structure RawDatapath where
  registers : Option (List Int)
  pc : Option Int
  ir : Option Int
  mar : Option Int
  mdr : Option Int
  busA : Option Int
  busB : Option Int
  aluResult : Option Int
  aluFlags : Option FlagSet
  flags : Option FlagSet
  memory : Option (List Int)
  deriving DecidableEq, Repr

/-- A snapshot as handed to `importState`: "bad JSON", or three fields each of which may be missing (R212, R233). A
present `presetName` is a name or no name (R40). -/
inductive RawSnapshot where
  | badJson
  | fields (microProgram : Option (List Text)) (state : Option RawDatapath) (presetName : Option (Option Text))
  deriving DecidableEq, Repr

/-- The Byte fields of the datapath aggregate, each a field a poke may write (R213). -/
inductive ByteField where
  | reg (n : Nat)
  | pc
  | ir
  | mar
  | mdr
  | busA
  | busB
  | aluResult
  | memory (a : Nat)
  deriving DecidableEq, Repr

/-- The four Booleans of a FlagSet. -/
inductive FlagName where
  | zero
  | negative
  | carry
  | overflow
  deriving DecidableEq, Repr

/-- The state elements the host does not poke (R213, D30). -/
inductive LockedField where
  | currentStep
  | runState
  | trace
  | controlStore
  deriving DecidableEq, Repr

/-- A host poke: one field and a value, in range or not (R213). -/
inductive Poke where
  | byte (field : ByteField) (v : Int)
  | aluFlag (f : FlagName) (v : Bool)
  | flag (f : FlagName) (v : Bool)
  | locked (field : LockedField) (v : Int)
  deriving DecidableEq, Repr

/-! ### Requests and what they return -/

/-- One action of an agent outside the blocks (R7): the entry points of R81, R122, R155 and the commands of
43_sequencer_and_host.md. -/
inductive Request where
  /-- Presentation of `(op, a, b)` to the ALU Engine (R81, R125). -/
  | aluPresent (op : BitVec 4) (a b : Byte)
  /-- `getResult()` (R122). -/
  | aluGetResult
  /-- `getFlags()` (R122). -/
  | aluGetFlags
  /-- Presentation of `{s, m}` and two operand bit-strings to the adder (R83, R155). -/
  | adderPresent (ctl : BitVec 2) (a b : Byte)
  /-- `calculate(operandA, operandB, operation, mode)` (R83, R155). -/
  | calculate (a b : Int) (operation mode : Text)
  /-- `configure(mode)` (R144). -/
  | configure (mode : Text)
  /-- `toBinary(value, mode)` (R140). -/
  | toBinary (v : Int) (mode : Text)
  /-- `fromBinary(bits, mode)` (R141). -/
  | fromBinary (bits mode : Text)
  /-- `addBinary(bitsA, bitsB)` (R142). -/
  | addBinary (x y : Text)
  /-- `twosComplement(bits)` (R143). -/
  | twosComplement (bits : Text)
  /-- A host call of `step()` (R200). -/
  | step
  /-- The timer tick (R206). -/
  | tick
  /-- `run()` (R203). -/
  | run
  /-- `toggleRunning()` (R204). -/
  | toggleRunning
  /-- `pause()` (R205). -/
  | pause
  /-- `reset()` (R207). -/
  | reset
  /-- `loadPreset(name)` (R208). -/
  | loadPreset (name : Text)
  /-- Direct program assignment (R209). -/
  | assignProgram (program : List Source)
  /-- `exportState()` (R211). -/
  | exportState
  /-- `importState(snapshot)` (R212). -/
  | importState (snapshot : RawSnapshot)
  /-- A poke (R213). -/
  | poke (p : Poke)
  deriving DecidableEq, Repr

/-- What a failure report says; the form of a report is not in the source (R233, N16), the labels are the model's. -/
inductive Failure where
  /-- Direct assignment of the empty program (R209, D23). -/
  | emptyProgram
  /-- `loadPreset` with a name that names no preset (R208, D23). -/
  | unknownPreset
  /-- `importState` of a snapshot that is not well-formed (R212, R233). -/
  | malformedSnapshot
  deriving DecidableEq, Repr

/-- What the last performed request returned to its caller (R14; log 8). -/
inductive Output where
  /-- A request that returns nothing. -/
  | none
  /-- The Byte of an ALU operation or of `getResult()`. -/
  | byte (y : Byte)
  /-- The FlagSet of `getFlags()`. -/
  | flags (f : FlagSet)
  /-- The record of `calculate`. -/
  | calculation (r : Calculation)
  /-- The bit-string of `toBinary` or `twosComplement`. -/
  | bits (s : BitString)
  /-- The integer of `fromBinary`. -/
  | integer (v : Int)
  /-- The pair of `addBinary`. -/
  | sum (bits : BitString) (carry : Bool)
  /-- The snapshot of `exportState()`. -/
  | snapshot (x : Snapshot)
  /-- A failure report. -/
  | failure (f : Failure)
  deriving DecidableEq, Repr

/-! ### The reasons a step can stop -/

/-- No fault exists: "No exception is ever raised" (R230), and a step "never fails" (R200). -/
inductive Fault
  deriving DecidableEq, Repr

/-- Inputs the spec has a model refuse, none of them an instruction that could be executed. Each is safe: nothing can be
claimed about a run that goes on after one. -/
inductive Refusal where
  /-- An instruction without a meaning. Raised by no arm of exec. Safe. -/
  | notModelled (mnemonic : String)
  /-- ALU-OP code 1010 to 1111 (R89, U3). Raised by a presentation to the ALU Engine. Safe. -/
  | aluReservedOp (op : BitVec 4)
  /-- Adder operand outside the mode's legal range (R156, U4). Raised by calculate and toBinary. Safe. -/
  | adderOperandOutOfRange
  /-- Adder bit-string that is not eight characters 0 or 1 (R156, U4, D34). Raised by the adder's helpers. Safe. -/
  | adderMalformedBits
  /-- A `mode` that is neither of its two values (R144, R156, D34). Raised by the adder's entry points. Safe. -/
  | adderBadMode
  /-- An `operation` that is neither of its two values (R156, D34). Raised by calculate. Safe. -/
  | adderBadOperation
  /-- A poked value outside 0 to 255 (R213, U14). Raised by a poke. Safe. -/
  | pokeValueOutOfRange
  /-- A poke of a register or cell that does not exist (R213, U14; log 18). Raised by a poke. Safe. -/
  | pokeNoSuchField
  /-- A poke of currentStep, the run state, the trace or the control store (R213, U14). Raised by a poke. Safe. -/
  | pokeLockedField
  /-- A program longer than PROG_MAX (U22, D36). Raised by loadPreset, program assignment and importState. Safe. -/
  | programTooLong
  /-- Words for an interpreter with more than 16 registers (R8, U15; log 19). Raised by program assignment. Safe. -/
  | wordsNeedFewerRegisters
  /-- Parameters outside their legal range (R8, U15). Raised by create. Safe. -/
  | illegalParameters
  deriving DecidableEq, Repr

/-! ### The state -/

/-- Everything the spec gives the three blocks (R44), the parameters the instance was created with (R8), and three fields
of the model: the requests not yet performed, what the last one returned, and the counter behind the free texts. -/
structure State where
  params : Params
  /-- The ALU latch (R22). -/
  alu : AluLatch
  /-- ADDER.MODE (R25). -/
  adderMode : AdderMode
  /-- `R[0]` to `R[NREGS-1]` (R26). -/
  regs : List Byte
  /-- `PC` (R27). -/
  pc : Byte
  /-- `IR` (R28). -/
  ir : Byte
  /-- `MAR` (R29). -/
  mar : Byte
  /-- `MDR` (R30). -/
  mdr : Byte
  /-- `busA` (R31). -/
  busA : Byte
  /-- `busB` (R31). -/
  busB : Byte
  /-- `aluResult` (R32). -/
  aluResult : Byte
  /-- `aluFlags` (R33). -/
  aluFlags : FlagSet
  /-- `flags` (R34). -/
  flags : FlagSet
  /-- `memory` (R35). -/
  mem : Memory
  /-- `microProgram`, the control store (R36). -/
  microProgram : List Statement
  /-- `currentStep` (R37). -/
  currentStep : Nat
  /-- The run state (R38). -/
  runState : RunState
  /-- Whether the timer is armed (R41). -/
  timerActive : Bool
  /-- `executionTrace` (R39). -/
  trace : List TraceEntry
  /-- `presetName` (R40). -/
  presetName : Option Text
  /-- Requests of the agents outside, in the order they act (log 1). -/
  inputs : List Request
  /-- What the last performed request returned (log 8). -/
  output : Output
  /-- Index of the next free text (log 9). -/
  freeIndex : Nat
  deriving DecidableEq, Repr

/-- The power-on state of an instance with given parameters (R250, R44). -/
def State.powerOn (p : Params) : State where
  params := p
  alu := ⟨Config.aluResultAtPowerOn, Config.aluFlagsAtPowerOn⟩
  adderMode := Config.adderModeAtPowerOn
  regs := List.replicate p.nregs 0#8
  pc := 0#8
  ir := 0#8
  mar := 0#8
  mdr := 0#8
  busA := 0#8
  busB := 0#8
  aluResult := 0#8
  aluFlags := FlagSet.clear
  flags := FlagSet.clear
  mem := []
  microProgram := []
  currentStep := 0
  runState := .idle
  timerActive := false
  trace := []
  presetName := none
  inputs := []
  output := .none
  freeIndex := 0

/-- The machine right after reset: the power-on state with the default parameters (R44, R250). -/
def State.reset : State := State.powerOn Config.defaultParams

end Sys2Proof.Machine
end

