-- ==== Sys2Proof/Machine/Ops.lean ====
section
/-!
DEFINITION. The named operations over memory and registers, the write of the ALU latch, and the loading of programs. The
hardware takes no exception and returns from none (R230, R238, R239), so there is no such operation here.
-/
namespace Sys2Proof.Machine

/-! ### Data memory -/

/-- The Byte listed at an address, or what an unlisted address reads as. -/
def Memory.read : Memory → Nat → Byte
  | [], _ => Memory.unlisted
  | (b, w) :: rest, a => if a = b then w else Memory.read rest a

/-- A memory with an address first set to a value; an entry only where the value is not the unlisted one. -/
def Memory.cons (a : Nat) (v : Byte) (m : Memory) : Memory := if v = Memory.unlisted then m else (a, v) :: m

/-- Store one Byte, keeping the canonical form. -/
def Memory.write : Memory → Nat → Byte → Memory
  | [], a, v => Memory.cons a v []
  | (b, w) :: rest, a, v =>
    if a < b then Memory.cons a v ((b, w) :: rest)
    else if a = b then Memory.cons a v rest
    else (b, w) :: Memory.write rest a v

/-- `MemRead(addr, 1)`: 0 when `addr >= MEM_SIZE` (R12, R63). -/
def State.memRead (s : State) (a : Nat) : Byte := if a < s.params.memSize then Memory.read s.mem a else 0#8

/-- `MemWrite(addr, 1, v)`: nothing when `addr >= MEM_SIZE` (R12, R64). -/
def State.memWrite (s : State) (a : Nat) (v : Byte) : State :=
  { s with mem := if a < s.params.memSize then Memory.write s.mem a v else s.mem }

/-- The Bytes at addresses `0` to `size - 1`. -/
def Memory.toBytes (m : Memory) (size : Nat) : List Byte := (List.range size).map (Memory.read m)

/-- The memory whose Bytes from address `a` on are the given ones and which lists nothing else. -/
def Memory.ofBytesFrom : Nat → List Byte → Memory
  | _, [] => []
  | a, v :: rest => Memory.cons a v (Memory.ofBytesFrom (a + 1) rest)

/-- The memory holding the given Bytes from address 0 on. -/
def Memory.ofBytes (l : List Byte) : Memory := Memory.ofBytesFrom 0 l

/-! ### General registers -/

/-- `x[n]`: 0 when `n >= NREGS` (R185). -/
def State.readReg (s : State) (n : Nat) : Byte := if n < s.params.nregs then s.regs.getD n 0#8 else 0#8

/-- `x[n] <- v`: discarded when `n >= NREGS` (R185). -/
def State.writeReg (s : State) (n : Nat) (v : Byte) : State :=
  { s with regs := if n < s.params.nregs then s.regs.set n v else s.regs }

/-! ### The ALU latch -/

/-- `ALU.RESULT <- y; ALU.FLAGS <- f; return y` (R110, R125). -/
def State.latchAlu (s : State) (y : Byte) (f : FlagSet) : State :=
  { s with alu := ⟨y, f⟩, output := .byte y }

/-! ### The interpreter's ALU result -/

/-- `aluResult <- y; aluFlags <- f` (R184). -/
def State.setUopResult (s : State) (y : Byte) (f : FlagSet) : State :=
  { s with aluResult := y, aluFlags := f }

/-! ### The adder's result -/

/-- `ADDER.MODE <- mode` and the record returned (R145, R146). -/
def State.deliverCalculation (s : State) (m : AdderMode) (r : Calculation) : State :=
  { s with adderMode := m, output := .calculation r }

/-! ### Timer and control store -/

/-- The timer armed and the run state `running` (R203, R204). -/
def State.arm (s : State) : State := { s with runState := .running, timerActive := true }

/-- The timer disarmed and the run state `paused` (R204, R205). -/
def State.disarm (s : State) : State := { s with runState := .paused, timerActive := false }

/-- A load: program and name replaced, timer stopped, step pointer 0, trace empty, `idle`; the datapath is kept
(R208, R209, D22). -/
def State.loadProgram (s : State) (program : List Statement) (name : Option Text) : State :=
  { s with
    timerActive := false
    microProgram := program
    presetName := name
    currentStep := 0
    trace := []
    runState := .idle }

/-- A statement given as text: parsed once, its text kept (R90). -/
def Statement.ofText (t : Text) : Statement := ⟨parseUop t, t⟩

/-- A statement given as a word: decoded, spelled as R214 says. -/
def Statement.ofWord (w : Byte) : Statement := ⟨decodeUop w, wordText w⟩

/-- A statement given as a variant, spelled by its canonical text (R214, log 12). -/
def Statement.ofVariant (u : Uop) : Statement := ⟨u, canonicalText u⟩

/-- A statement as the host gives it, loaded (R209). -/
def Statement.ofSource : Source → Statement
  | .text t => Statement.ofText t
  | .variant u => Statement.ofVariant u
  | .word w => Statement.ofWord w

/-- Whether a statement is given as a word. -/
def Source.isWord : Source → Bool
  | .text _ => false
  | .variant _ => false
  | .word _ => true

end Sys2Proof.Machine
end

