-- ==== Sys2Proof/Machine/Operands.lean ====
section
/-!
DEFINITION. The operand forms: the raw results of the ALU's operations (R110), the adder's operand strings (R145, R146),
the interpreter's operands (register index R86, memory through MAR R172, the two buses R31).
-/
namespace Sys2Proof.Machine

/-! ### ALU Engine: the unmasked mathematical results of R110, step 1 -/

/-- `a & b` (R112). -/
def aluRawAnd (a b : Byte) : Int := ((a &&& b).toNat : Int)
/-- `a | b` (R113). -/
def aluRawOr (a b : Byte) : Int := ((a ||| b).toNat : Int)
/-- `a ^ b` (R114). -/
def aluRawXor (a b : Byte) : Int := ((a ^^^ b).toNat : Int)
/-- `~a`, the mathematical integer `-a - 1` (R11, R115). -/
def aluRawNot (a : Byte) : Int := -(a.toNat : Int) - 1
/-- `a + b` (R116); INC takes `b = 1` (R118). -/
def aluRawAdd (a b : Byte) : Int := (a.toNat : Int) + (b.toNat : Int)
/-- `a - b` (R117); DEC takes `b = 1` (R119). -/
def aluRawSub (a b : Byte) : Int := (a.toNat : Int) - (b.toNat : Int)
/-- `a << 1`, that is `2*a` (R120). -/
def aluRawShl (a : Byte) : Int := 2 * (a.toNat : Int)
/-- `a >> 1`, that is `floor(a/2)` (R121). -/
def aluRawShr (a : Byte) : Int := ((a.toNat / 2 : Nat) : Int)

/-! ### Bit-Serial Adder -/

/-- The bit-string actually added: `bitsB`, or `twosComplement(bitsB)` for a subtraction (R146, R152). -/
def adderSecond (subtract : Bool) (bitsB : BitString) : BitString :=
  if subtract then twosComplement bitsB else bitsB

/-- The sign of the second operand the overflow rule takes: `sB` for an addition (R145); for a subtraction the
complement of the sign of `bitsB`, or the sign of its negation, by ADDER_SUB_OVF_SIGN (R146, R150). -/
def adderSecondSign (p : SubOvfSign) (subtract : Bool) (bitsB : BitString) : Bool :=
  if subtract then
    match p with
    | .flipB => !bitAt bitsB 0
    | .msbOfNegatedB => bitAt (twosComplement bitsB) 0
  else bitAt bitsB 0

/-! ### Interpreter -/

/-- The source of `A ← R[n]` and `B ← R[n]` (R175, R176). -/
def State.regOperand (s : State) (n : Nat) : Byte := s.readReg n

/-- The source of `MDR ← Mem[MAR]`, register-indirect through MAR (R172). -/
def State.marOperand (s : State) : Byte := s.memRead s.mar.toNat

/-- `PC + 1` modulo MEM_SIZE (R174). -/
def State.nextPc (s : State) : Byte := BitVec.ofNat 8 ((s.pc.toNat + 1) % s.params.memSize)

/-- `busA + busB`, unmasked (R177). -/
def State.busRawAdd (s : State) : Int := (s.busA.toNat : Int) + (s.busB.toNat : Int)
/-- `busA - busB`, unmasked (R178). -/
def State.busRawSub (s : State) : Int := (s.busA.toNat : Int) - (s.busB.toNat : Int)
/-- `busA & busB` (R179). -/
def State.busRawAnd (s : State) : Int := ((s.busA &&& s.busB).toNat : Int)

end Sys2Proof.Machine
end

