-- ==== Sys2Proof/Machine/Flags.lean ====
section
/-!
DEFINITION. The three flag rules, kept apart as R2 and R264 require: the ALU Engine's (R111 to R121), the adder's (R147
to R150), the interpreter's simplified one (R184). None is derived from another.
-/
namespace Sys2Proof.Machine

/-! ### ALU Engine -/

/-- `Z` and `N` from the masked result, with the operation's own `C` and `V` (R110, R111). -/
def aluFlagSet (y : Byte) (c v : Bool) : FlagSet := ⟨decide (y = 0#8), signBit y, c, v⟩

/-- Logical operations: `C = 0`, `V = 0` (R112 to R115). -/
def aluLogicFlags (y : Byte) : FlagSet := aluFlagSet y false false

/-- `add`-class: `C` is `raw > 0xFF`; `V` is equal operand signs and a result of the other sign (R116). -/
def aluAddFlags (raw : Int) (a b y : Byte) : FlagSet :=
  aluFlagSet y (decide (raw > 255)) (signBit a == signBit b && signBit a != signBit y)

/-- `sub`-class: `C` is the borrow `raw < 0`; `V` is unequal operand signs and a result whose sign is not `a`'s
(R117). -/
def aluSubFlags (raw : Int) (a b y : Byte) : FlagSet :=
  aluFlagSet y (decide (raw < 0)) (signBit a != signBit b && signBit a != signBit y)

/-- `shl`: `C` is bit 7 of the operand before the shift, `V = 0` (R120). -/
def aluShlFlags (a y : Byte) : FlagSet := aluFlagSet y (a.getLsbD 7) false

/-- `shr`: `C` is bit 0 of the operand before the shift, `V = 0` (R121). -/
def aluShrFlags (a y : Byte) : FlagSet := aluFlagSet y (a.getLsbD 0) false

/-! ### Bit-Serial Adder -/

/-- The adder's flags: `Z` from the eight result bits (R147), `N` only in two's-complement mode (R148), `C` the
carry-out of the final pass (R149), `V` the sign rule or, in unsigned mode, `C` (R150). -/
def adderFlags (m : AdderMode) (bitsR : BitString) (carryOut sA sB : Bool) : FlagSet where
  zero := bitsR.toList.all (!·)
  negative := bitAt bitsR 0 && decide (m = .twosComplement)
  carry := carryOut
  overflow :=
    match m with
    | .unsigned => carryOut
    | .twosComplement => sA == sB && bitAt bitsR 0 != sA

/-! ### Interpreter -/

/-- The simplified update: `Z`, `N` from the masked result, `C` is `raw > 255` on the unmasked one for all three
operations, `V` is fixed false (R184, D35). -/
def uopFlags (raw : Int) : FlagSet :=
  ⟨decide (maskByte raw = 0#8), (maskByte raw).getLsbD 7, decide (raw > 255), false⟩

/-- One flag of a FlagSet replaced, the effect of a poke of a Boolean (R213). -/
def setFlag (f : FlagSet) (n : FlagName) (v : Bool) : FlagSet :=
  match n with
  | .zero => { f with zero := v }
  | .negative => { f with negative := v }
  | .carry => { f with carry := v }
  | .overflow => { f with overflow := v }

end Sys2Proof.Machine
end

