-- ==== Sys2Proof/Machine/Adder.lean ====
section
/-!
DEFINITION. The two operations of the Bit-Serial Adder (R145, R146): operand strings, the ripple-carry pass, the adder's
own flags, the decoded result and the trace of the final pass.
-/
namespace Sys2Proof.Machine

/-- The record of a calculation on operand strings (R145, R146, R152). -/
def calculation (p : SubOvfSign) (subtract : Bool) (m : AdderMode) (bitsA bitsB : BitString) : Calculation :=
  let r := addBinary bitsA (adderSecond subtract bitsB)
  { resultDecimal := fromBinary r.bits m
    resultBits := r.bits
    carryOut := r.carry
    flags := adderFlags m r.bits r.carry (bitAt bitsA 0) (adderSecondSign p subtract bitsB)
    stepTrace := r.steps }

/-- ADDER_ADD (R145): operands outside the mode's legal range are refused (R156, U4). -/
def execAdderAdd (m : AdderMode) (a b : Int) (s : State) : Host.Outcome State Fault Refusal :=
  if inLegalRange m a && inLegalRange m b then
    .next (s.deliverCalculation m (calculation s.params.adderSubOvfSign false m (toBinary a m) (toBinary b m)))
  else .refused .adderOperandOutOfRange

/-- ADDER_SUB (R146): addition of the two's complement "regardless of declared mode"; operands outside the mode's legal
range are refused (R156, U4). -/
def execAdderSub (m : AdderMode) (a b : Int) (s : State) : Host.Outcome State Fault Refusal :=
  if inLegalRange m a && inLegalRange m b then
    .next (s.deliverCalculation m (calculation s.params.adderSubOvfSign true m (toBinary a m) (toBinary b m)))
  else .refused .adderOperandOutOfRange

end Sys2Proof.Machine
end

