-- ==== Sys2Proof/Machine/Alu.lean ====
section
/-!
DEFINITION. The ten operations of the ALU Engine (40_alu.md). Each computes the raw result, masks it, derives all four
flags by its own rule and writes both parts of the latch; the Byte is returned to the caller (R110, R125).
-/
namespace Sys2Proof.Machine

/-- AND (R112). -/
def execAnd (a b : Byte) (s : State) : Host.Outcome State Fault Refusal :=
  let y := maskByte (aluRawAnd a b)
  .next (s.latchAlu y (aluLogicFlags y))

/-- OR (R113). -/
def execOr (a b : Byte) (s : State) : Host.Outcome State Fault Refusal :=
  let y := maskByte (aluRawOr a b)
  .next (s.latchAlu y (aluLogicFlags y))

/-- XOR (R114). -/
def execXor (a b : Byte) (s : State) : Host.Outcome State Fault Refusal :=
  let y := maskByte (aluRawXor a b)
  .next (s.latchAlu y (aluLogicFlags y))

/-- NOT (R115). -/
def execNot (a : Byte) (s : State) : Host.Outcome State Fault Refusal :=
  let y := maskByte (aluRawNot a)
  .next (s.latchAlu y (aluLogicFlags y))

/-- ADD (R116). -/
def execAdd (a b : Byte) (s : State) : Host.Outcome State Fault Refusal :=
  let raw := aluRawAdd a b
  let y := maskByte raw
  .next (s.latchAlu y (aluAddFlags raw a b y))

/-- SUB (R117). -/
def execSub (a b : Byte) (s : State) : Host.Outcome State Fault Refusal :=
  let raw := aluRawSub a b
  let y := maskByte raw
  .next (s.latchAlu y (aluSubFlags raw a b y))

/-- INC: the `add`-class rule with the constant `b = 1` (R118, R91). -/
def execInc (a : Byte) (s : State) : Host.Outcome State Fault Refusal :=
  let raw := aluRawAdd a 1#8
  let y := maskByte raw
  .next (s.latchAlu y (aluAddFlags raw a 1#8 y))

/-- DEC: the `sub`-class rule with the constant `b = 1` (R119, R91). -/
def execDec (a : Byte) (s : State) : Host.Outcome State Fault Refusal :=
  let raw := aluRawSub a 1#8
  let y := maskByte raw
  .next (s.latchAlu y (aluSubFlags raw a 1#8 y))

/-- SHL (R120). -/
def execShl (a : Byte) (s : State) : Host.Outcome State Fault Refusal :=
  let y := maskByte (aluRawShl a)
  .next (s.latchAlu y (aluShlFlags a y))

/-- SHR, a logical shift (R121). -/
def execShr (a : Byte) (s : State) : Host.Outcome State Fault Refusal :=
  let y := maskByte (aluRawShr a)
  .next (s.latchAlu y (aluShrFlags a y))

end Sys2Proof.Machine
end

