-- ==== Sys2Proof/Machine/BusAlu.lean ====
section
/-!
DEFINITION. The bus, ALU, register and flag micro-operations (R175 to R181): their effect on the datapath.
-/
namespace Sys2Proof.Machine

/-- A_R, `A ← R[n]`, 0 for `n >= NREGS` (R175). -/
def execAR (n : Nat) (s : State) : Host.Outcome State Fault Refusal := .next { s with busA := s.regOperand n }

/-- B_R, `B ← R[n]`, 0 for `n >= NREGS` (R176). -/
def execBR (n : Nat) (s : State) : Host.Outcome State Fault Refusal := .next { s with busB := s.regOperand n }

/-- ALU_ADD, `ALU ← A + B` (R177). -/
def execAluAdd (s : State) : Host.Outcome State Fault Refusal :=
  .next (s.setUopResult (maskByte s.busRawAdd) (uopFlags s.busRawAdd))

/-- ALU_SUB, `ALU ← A - B` (R178). -/
def execAluSub (s : State) : Host.Outcome State Fault Refusal :=
  .next (s.setUopResult (maskByte s.busRawSub) (uopFlags s.busRawSub))

/-- ALU_AND, `ALU ← A & B` (R179). -/
def execAluAnd (s : State) : Host.Outcome State Fault Refusal :=
  .next (s.setUopResult (maskByte s.busRawAnd) (uopFlags s.busRawAnd))

/-- R_ALU, `R[n] ← ALU`, discarded for `n >= NREGS` (R180). -/
def execRAlu (n : Nat) (s : State) : Host.Outcome State Fault Refusal := .next (s.writeReg n s.aluResult)

/-- FLAGS_ALU, `FLAGS ← ALU.flags` (R181). -/
def execFlagsAlu (s : State) : Host.Outcome State Fault Refusal := .next { s with flags := s.aluFlags }

end Sys2Proof.Machine
end

