-- ==== Sys2Proof/Machine/FetchPath.lean ====
section
/-!
DEFINITION. The fetch-path micro-operations, the store and UNKNOWN (R171 to R174, R182, R183): their effect on the
datapath. The sequencer's bookkeeping around them is in Machine/Sequencer.lean (R201).
-/
namespace Sys2Proof.Machine

/-- MAR_PC, `MAR ← PC` (R171). -/
def execMarPc (s : State) : Host.Outcome State Fault Refusal := .next { s with mar := s.pc }

/-- MDR_MEM, `MDR ← Mem[MAR]`, 0 if out of range (R172). -/
def execMdrMem (s : State) : Host.Outcome State Fault Refusal := .next { s with mdr := s.marOperand }

/-- IR_MDR, `IR ← MDR`; the value is not interpreted (R173, R187). -/
def execIrMdr (s : State) : Host.Outcome State Fault Refusal := .next { s with ir := s.mdr }

/-- PC_INC, `PC ← PC + 1` modulo MEM_SIZE (R174). -/
def execPcInc (s : State) : Host.Outcome State Fault Refusal := .next { s with pc := s.nextPc }

/-- MEM_MDR, `Mem[MAR] ← MDR`, discarded if out of range (R182). -/
def execMemMdr (s : State) : Host.Outcome State Fault Refusal := .next (s.memWrite s.mar.toNat s.mdr)

/-- UNKNOWN: "a no-op reporting "Unknown operation", not an error" (R183). -/
def execUnknown (s : State) : Host.Outcome State Fault Refusal := .next s

end Sys2Proof.Machine
end

