-- ==== Sys2Proof/Machine/Dispatch.lean ====
section
/-!
DEFINITION. The dispatch of every instruction to its meaning, one arm per constructor of Instr.
-/
namespace Sys2Proof.Machine

-- The own effect of each instruction; what the sequencer does around a micro-operation is in Machine/Sequencer.lean.
def exec (i : Instr) (s : State) : Host.Outcome State Fault Refusal :=
  match i with
  | .and a b => Sys2Proof.Machine.execAnd a b s
  | .or a b => Sys2Proof.Machine.execOr a b s
  | .xor a b => Sys2Proof.Machine.execXor a b s
  | .not a => Sys2Proof.Machine.execNot a s
  | .add a b => Sys2Proof.Machine.execAdd a b s
  | .sub a b => Sys2Proof.Machine.execSub a b s
  | .inc a => Sys2Proof.Machine.execInc a s
  | .dec a => Sys2Proof.Machine.execDec a s
  | .shl a => Sys2Proof.Machine.execShl a s
  | .shr a => Sys2Proof.Machine.execShr a s
  | .adderAdd m a b => Sys2Proof.Machine.execAdderAdd m a b s
  | .adderSub m a b => Sys2Proof.Machine.execAdderSub m a b s
  | .marPc => Sys2Proof.Machine.execMarPc s
  | .mdrMem => Sys2Proof.Machine.execMdrMem s
  | .irMdr => Sys2Proof.Machine.execIrMdr s
  | .pcInc => Sys2Proof.Machine.execPcInc s
  | .aR n => Sys2Proof.Machine.execAR n s
  | .bR n => Sys2Proof.Machine.execBR n s
  | .aluAdd => Sys2Proof.Machine.execAluAdd s
  | .aluSub => Sys2Proof.Machine.execAluSub s
  | .aluAnd => Sys2Proof.Machine.execAluAnd s
  | .rAlu n => Sys2Proof.Machine.execRAlu n s
  | .flagsAlu => Sys2Proof.Machine.execFlagsAlu s
  | .memMdr => Sys2Proof.Machine.execMemMdr s
  | .unknown => Sys2Proof.Machine.execUnknown s

end Sys2Proof.Machine
end

