-- ==== Sys2Proof/Machine/Sequencer.lean ====
section
/-!
DEFINITION. The sequencer: the fetch of a statement, `step()` with its two cases (R200 to R202), the trace entry (R214),
the run driver (R203 to R206, R215), `reset()` (R207) and the placement of a table word.
-/
namespace Sys2Proof.Machine

/-- The statement at `currentStep`; none where the program is exhausted (R65, R200). -/
def State.fetch (s : State) : Option Statement := s.microProgram[s.currentStep]?

/-- The description string a micro-operation returns, from the state it leaves (R170, R214): DT's two known forms, and a
free text for every other statement (log 9). -/
def describe (u : Uop) (t : State) : Text :=
  match u with
  | .marPc => "MAR = ".toList ++ decimal t.mar.toNat
  | .mdrMem => Config.freeText t.freeIndex
  | .irMdr => Config.freeText t.freeIndex
  | .pcInc => Config.freeText t.freeIndex
  | .aR _ => Config.freeText t.freeIndex
  | .bR _ => Config.freeText t.freeIndex
  | .aluAdd => Config.freeText t.freeIndex
  | .aluSub => Config.freeText t.freeIndex
  | .aluAnd => Config.freeText t.freeIndex
  | .rAlu _ => Config.freeText t.freeIndex
  | .flagsAlu => Config.freeText t.freeIndex
  | .memMdr => Config.freeText t.freeIndex
  | .unknown => "Unknown operation".toList

/-- The bookkeeping of a dispatching step after the statement's own effect (R201): the trace entry, `currentStep + 1`,
and `completed` with the timer disarmed at the end of the program. -/
def State.retire (s : State) (stmt : Statement) : State :=
  { s with
    trace := s.trace ++ [⟨s.currentStep, stmt.text, describe stmt.uop s⟩]
    currentStep := s.currentStep + 1
    runState := if s.currentStep + 1 = s.microProgram.length then .completed else s.runState
    timerActive := if s.currentStep + 1 = s.microProgram.length then false else s.timerActive
    freeIndex := s.freeIndex + 1 }

/-- The dispatching step (R201): the statement's effect, then the bookkeeping. -/
def dispatchStep (stmt : Statement) (s : State) : Host.Outcome State Fault Refusal :=
  match exec stmt.uop.toInstr s with
  | .next t => .next (t.retire stmt)
  | .fault f => .fault f
  | .refused r => .refused r

/-- The wrap step (R202): only `currentStep` changes. -/
def State.wrap (s : State) : State := { s with currentStep := 0 }

/-- `step()` of the interpreter (R200). -/
def sequencerStep (s : State) : Host.Outcome State Fault Refusal :=
  match s.fetch with
  | some stmt => dispatchStep stmt s
  | none => .next s.wrap

/-- A timer tick: one `step()` while the timer is armed; none occurs otherwise (R206, R215). -/
def timerTick (s : State) : Host.Outcome State Fault Refusal :=
  if s.timerActive then sequencerStep s else .next s

/-- `run()` (R203); without effect on an empty program (D32). -/
def State.runCommand (s : State) : State :=
  match s.runState with
  | .idle => if s.microProgram = [] then s else s.arm
  | .paused => if s.microProgram = [] then s else s.arm
  | .running => s
  | .completed => s

/-- `toggleRunning()` (R204). -/
def State.toggleCommand (s : State) : State :=
  match s.runState with
  | .running => s.disarm
  | .idle => if s.microProgram = [] then s else s.arm
  | .paused => if s.microProgram = [] then s else s.arm
  | .completed => s

/-- `pause()` (R205). -/
def State.pauseCommand (s : State) : State :=
  match s.runState with
  | .running => s.disarm
  | .idle => s
  | .paused => s
  | .completed => s

/-- `reset()` of the interpreter (R207, R251, R252): the program and its name survive (D19), memory is cleared if
RESET_CLEARS_MEM says so (C1, D18), the other two blocks are not reached (R253). -/
def State.resetCommand (s : State) : State :=
  { s with
    timerActive := false
    regs := List.replicate s.params.nregs 0#8
    pc := 0#8
    ir := 0#8
    mar := 0#8
    mdr := 0#8
    busA := 0#8
    busB := 0#8
    aluResult := 0#8
    aluFlags := FlagSet.clear
    flags := FlagSet.clear
    mem := if s.params.resetClearsMem then [] else s.mem
    trace := []
    currentStep := 0
    runState := .idle }

/-- The state in which an instruction, given in binary, is the very next thing the machine performs: a presentation to
its block, or, for a word of the control store, the one-statement program with a host's `step()` (log 13). -/
def State.placeIssueWord (s : State) : IssueWord → State
  | .alu op a b => { s with inputs := [.aluPresent op a b] }
  | .adder ctl a b => { s with inputs := [.adderPresent ctl a b] }
  | .uop w => { s with microProgram := [Statement.ofWord w], currentStep := 0, inputs := [.step] }

/-- The same for an instruction numbered as the opcode table numbers it. -/
def State.placeTableWord (s : State) (nbits w : Nat) : State :=
  match tableIssueWord nbits w with
  | some x => s.placeIssueWord x
  | none => s

end Sys2Proof.Machine
end

