-- ==== Sys2Proof/Machine/HostCommands.lean ====
section
/-!
DEFINITION. The requests of the agents outside: presentations to the ALU Engine and the adder, the adder's helpers, the
host commands, snapshots and pokes (R122, R140 to R144, R203 to R213), and the creation of an instance (R250, U15).
-/
namespace Sys2Proof.Machine

/-- A result handed to the caller, nothing else changed. -/
def State.answer (s : State) (o : Output) : State := { s with output := o }

/-! ### ALU Engine and adder -/

/-- A presentation in binary form: decoded in its own space and executed; a reserved ALU code is refused (R89). -/
def performIssueWord (x : IssueWord) (s : State) : Host.Outcome State Fault Refusal :=
  match decode x with
  | .ok i => exec i s
  | .error (.reservedAluOp op) => .refused (.aluReservedOp op)

/-- `calculate(operandA, operandB, operation, mode)` (R155, R156). -/
def performCalculate (a b : Int) (operation mode : Text) (s : State) : Host.Outcome State Fault Refusal :=
  match parseMode mode with
  | none => .refused .adderBadMode
  | some m =>
    match parseOperation operation with
    | none => .refused .adderBadOperation
    | some false => exec (.adderAdd m a b) s
    | some true => exec (.adderSub m a b) s

/-- `configure(mode)`: writes ADDER.MODE and nothing else (R144). -/
def performConfigure (mode : Text) (s : State) : Host.Outcome State Fault Refusal :=
  match parseMode mode with
  | none => .refused .adderBadMode
  | some m => .next { s with adderMode := m }

/-- `toBinary(value, mode)` (R140). -/
def performToBinary (v : Int) (mode : Text) (s : State) : Host.Outcome State Fault Refusal :=
  match parseMode mode with
  | none => .refused .adderBadMode
  | some m => if inLegalRange m v then .next (s.answer (.bits (toBinary v m))) else .refused .adderOperandOutOfRange

/-- `fromBinary(bits, mode)` (R141). -/
def performFromBinary (bits mode : Text) (s : State) : Host.Outcome State Fault Refusal :=
  match parseMode mode with
  | none => .refused .adderBadMode
  | some m =>
    match bitStringOfText bits with
    | none => .refused .adderMalformedBits
    | some x => .next (s.answer (.integer (fromBinary x m)))

/-- `addBinary(bitsA, bitsB)` (R142). -/
def performAddBinary (x y : Text) (s : State) : Host.Outcome State Fault Refusal :=
  match bitStringOfText x, bitStringOfText y with
  | some p, some q => .next (s.answer (.sum (addBinary p q).bits (addBinary p q).carry))
  | _, _ => .refused .adderMalformedBits

/-- `twosComplement(bits)` (R143). -/
def performTwosComplement (bits : Text) (s : State) : Host.Outcome State Fault Refusal :=
  match bitStringOfText bits with
  | none => .refused .adderMalformedBits
  | some x => .next (s.answer (.bits (twosComplement x)))

/-! ### Loading a program -/

/-- A program loaded, unless it is longer than PROG_MAX (U22). -/
def performLoad (program : List Statement) (name : Option Text) (s : State) : Host.Outcome State Fault Refusal :=
  if program.length ≤ s.params.progMax then .next (s.loadProgram program name) else .refused .programTooLong

/-- `loadPreset(name)` (R208); an unknown name is a reported failure (D23). -/
def performLoadPreset (name : Text) (s : State) : Host.Outcome State Fault Refusal :=
  match s.params.presets.lookup name with
  | some texts => performLoad (texts.map Statement.ofText) (some name) s
  | none => .next (s.answer (.failure .unknownPreset))

/-- Direct program assignment (R209): the empty list is a reported failure; words need NREGS of at most 16 (R8, U15,
log 19). -/
def performAssign (program : List Source) (s : State) : Host.Outcome State Fault Refusal :=
  if program = [] then .next (s.answer (.failure .emptyProgram))
  else if program.any Source.isWord && decide (16 < s.params.nregs) then .refused .wordsNeedFewerRegisters
  else performLoad (program.map Statement.ofSource) none s

/-! ### Snapshots -/

/-- The datapath aggregate of a state (R211). -/
def State.datapath (s : State) : Datapath where
  registers := s.regs
  pc := s.pc
  ir := s.ir
  mar := s.mar
  mdr := s.mdr
  busA := s.busA
  busB := s.busB
  aluResult := s.aluResult
  aluFlags := s.aluFlags
  flags := s.flags
  memory := s.mem.toBytes s.params.memSize

/-- `exportState()` (R211); it changes no state. -/
def State.exported (s : State) : Snapshot := ⟨s.microProgram.map Statement.text, s.datapath, s.presetName⟩

/-- A datapath aggregate written into a state (R212). -/
def State.withDatapath (s : State) (d : Datapath) : State :=
  { s with
    regs := d.registers
    pc := d.pc
    ir := d.ir
    mar := d.mar
    mdr := d.mdr
    busA := d.busA
    busB := d.busB
    aluResult := d.aluResult
    aluFlags := d.aluFlags
    flags := d.flags
    mem := Memory.ofBytes d.memory }

/-- The datapath of a snapshot checked: every field present, every Byte in 0 to 255, the sizes NREGS and MEM_SIZE
(R212, D29). -/
def RawDatapath.check (p : Params) (r : RawDatapath) : Option Datapath := do
  let registers ← bytesOfInts (← r.registers)
  let pc ← byteOfInt (← r.pc)
  let ir ← byteOfInt (← r.ir)
  let mar ← byteOfInt (← r.mar)
  let mdr ← byteOfInt (← r.mdr)
  let busA ← byteOfInt (← r.busA)
  let busB ← byteOfInt (← r.busB)
  let aluResult ← byteOfInt (← r.aluResult)
  let aluFlags ← r.aluFlags
  let flags ← r.flags
  let memory ← bytesOfInts (← r.memory)
  if registers.length = p.nregs ∧ memory.length = p.memSize then
    some ⟨registers, pc, ir, mar, mdr, busA, busB, aluResult, aluFlags, flags, memory⟩
  else none

/-- A snapshot checked: the three fields present and the program non-empty (R212, D29). -/
def RawSnapshot.check (p : Params) : RawSnapshot → Option Snapshot
  | .badJson => none
  | .fields program state name =>
    match program, state, name with
    | some texts, some d, some n =>
      match d.check p with
      | some datapath => if texts = [] then none else some ⟨texts, datapath, n⟩
      | none => none
    | _, _, _ => none

/-- A datapath aggregate as the data of a snapshot. -/
def Datapath.toRaw (d : Datapath) : RawDatapath where
  registers := some (d.registers.map fun v => (v.toNat : Int))
  pc := some d.pc.toNat
  ir := some d.ir.toNat
  mar := some d.mar.toNat
  mdr := some d.mdr.toNat
  busA := some d.busA.toNat
  busB := some d.busB.toNat
  aluResult := some d.aluResult.toNat
  aluFlags := some d.aluFlags
  flags := some d.flags
  memory := some (d.memory.map fun v => (v.toNat : Int))

/-- An exported snapshot as it is handed back to `importState`. -/
def Snapshot.toRaw (x : Snapshot) : RawSnapshot :=
  .fields (some x.microProgram) (some x.state.toRaw) (some x.presetName)

/-- `importState(snapshot)` (R212): a well-formed one is a program assignment with its name and its datapath; any other
is reported, "state left unchanged on failure". -/
def performImport (r : RawSnapshot) (s : State) : Host.Outcome State Fault Refusal :=
  match r.check s.params with
  | some x => performLoad (x.microProgram.map Statement.ofText) x.presetName (s.withDatapath x.state)
  | none => .next (s.answer (.failure .malformedSnapshot))

/-! ### Pokes -/

/-- Whether a field exists in this instance (R213, log 18). -/
def ByteField.present (p : Params) : ByteField → Bool
  | .reg n => decide (n < p.nregs)
  | .memory a => decide (a < p.memSize)
  | .pc => true
  | .ir => true
  | .mar => true
  | .mdr => true
  | .busA => true
  | .busB => true
  | .aluResult => true

/-- One Byte field of the datapath written (R213). -/
def State.setByteField (s : State) (f : ByteField) (v : Byte) : State :=
  match f with
  | .reg n => s.writeReg n v
  | .pc => { s with pc := v }
  | .ir => { s with ir := v }
  | .mar => { s with mar := v }
  | .mdr => { s with mdr := v }
  | .busA => { s with busA := v }
  | .busB => { s with busB := v }
  | .aluResult => { s with aluResult := v }
  | .memory a => s.memWrite a v

/-- A host poke: one field, an in-range value, nothing else (R213); any other is refused (U14). -/
def performPoke (p : Poke) (s : State) : Host.Outcome State Fault Refusal :=
  match p with
  | .byte f v =>
    if f.present s.params then
      match byteOfInt v with
      | some b => .next (s.setByteField f b)
      | none => .refused .pokeValueOutOfRange
    else .refused .pokeNoSuchField
  | .aluFlag n v => .next { s with aluFlags := setFlag s.aluFlags n v }
  | .flag n v => .next { s with flags := setFlag s.flags n v }
  | .locked _ _ => .refused .pokeLockedField

/-! ### Every request -/

/-- One request performed on a state from whose `inputs` it has been taken. -/
def perform (r : Request) (s : State) : Host.Outcome State Fault Refusal :=
  match r with
  | .aluPresent op a b => performIssueWord (.alu op a b) s
  | .aluGetResult => .next (s.answer (.byte s.alu.result))
  | .aluGetFlags => .next (s.answer (.flags s.alu.flags))
  | .adderPresent ctl a b => performIssueWord (.adder ctl a b) s
  | .calculate a b operation mode => performCalculate a b operation mode s
  | .configure mode => performConfigure mode s
  | .toBinary v mode => performToBinary v mode s
  | .fromBinary bits mode => performFromBinary bits mode s
  | .addBinary x y => performAddBinary x y s
  | .twosComplement bits => performTwosComplement bits s
  | .step => sequencerStep s
  | .tick => timerTick s
  | .run => .next s.runCommand
  | .toggleRunning => .next s.toggleCommand
  | .pause => .next s.pauseCommand
  | .reset => .next s.resetCommand
  | .loadPreset name => performLoadPreset name s
  | .assignProgram program => performAssign program s
  | .exportState => .next (s.answer (.snapshot s.exported))
  | .importState x => performImport x s
  | .poke p => performPoke p s

/-- The state a request is performed on: taken from the list, the last answer cleared. -/
def State.take (s : State) (rest : List Request) : State := { s with inputs := rest, output := .none }

/-- The next transition (log 1): the first waiting request; with none waiting, a tick of the armed timer; with none
armed, nothing happens. -/
def advance (s : State) : Host.Outcome State Fault Refusal :=
  match s.inputs with
  | r :: rest => perform r (s.take rest)
  | [] => timerTick s

/-- Creation of an instance (R250, R255); illegal parameters are refused (U15). -/
def create (p : Params) : Host.Outcome State Fault Refusal :=
  if p.WellFormed then .next (State.powerOn p) else .refused .illegalParameters

end Sys2Proof.Machine
end

