-- ==== Sys2Proof/Machine/Step.lean ====
section
/-!
DEFINITION. One step of the machine, and the state whose next step runs a given table word.
-/
namespace Sys2Proof.Machine

/-- One step: one transition of one agent (R7), as Machine/HostCommands.lean orders them. -/
def step (s : State) : Host.Outcome State Fault Refusal := advance s

/-- `s` with the instruction of a table word as the very next thing performed (log 13). -/
def State.withFetchWord (s : State) (nbits w : Nat) : State := s.placeTableWord nbits w

end Sys2Proof.Machine
end

