-- ==== Sys2Proof/Safety.lean ====
section
/-!
DEFINITION. What counts as a safe run: the invariant of the states a run can reach, and the requests the model accepts.
-/
namespace Sys2Proof.Machine

/-- The invariant: legal parameters (R8), NREGS registers (R26), a canonical data memory inside MEM_SIZE (R35), a step
pointer inside the program (R37), a program within PROG_MAX (D36), a timer armed exactly while running (R41), a program
not exhausted unless completed and not empty while running (R206), statements that are what their text says (R90). -/
structure State.Inv (s : State) : Prop where
  params_legal : s.params.WellFormed
  regs_length : s.regs.length = s.params.nregs
  mem_wf : Memory.wf s.mem
  mem_within : ∀ c ∈ s.mem, c.1 < s.params.memSize
  step_within : s.currentStep ≤ s.microProgram.length
  program_fits : s.microProgram.length ≤ s.params.progMax
  timer_running : s.timerActive = decide (s.runState = .running)
  not_exhausted : s.runState ≠ .completed → s.microProgram ≠ [] → s.currentStep < s.microProgram.length
  running_loaded : s.runState = .running → s.microProgram ≠ []
  texts_parse : ∀ st ∈ s.microProgram, parseUop st.text = st.uop

/-- Whether the model accepts a poke (R213, U14). -/
def Poke.accepted (p : Params) : Poke → Bool
  | .byte f v => f.present p && decide (0 ≤ v ∧ v ≤ 255)
  | .aluFlag _ _ => true
  | .flag _ _ => true
  | .locked _ _ => false

/-- Whether the model accepts a request: legal arguments (R89, R156, R213), a program that fits (U22, U15). -/
def Request.accepted (p : Params) : Request → Bool
  | .aluPresent op _ _ => decide (op.toNat < 10)
  | .aluGetResult => true
  | .aluGetFlags => true
  | .adderPresent _ _ _ => true
  | .calculate a b operation mode =>
    (parseOperation operation).isSome && (parseMode mode).any fun m => inLegalRange m a && inLegalRange m b
  | .configure mode => (parseMode mode).isSome
  | .toBinary v mode => (parseMode mode).any fun m => inLegalRange m v
  | .fromBinary bits mode => (parseMode mode).isSome && (bitStringOfText bits).isSome
  | .addBinary x y => (bitStringOfText x).isSome && (bitStringOfText y).isSome
  | .twosComplement bits => (bitStringOfText bits).isSome
  | .step => true
  | .tick => true
  | .run => true
  | .toggleRunning => true
  | .pause => true
  | .reset => true
  | .loadPreset name => (p.presets.lookup name).all fun texts => decide (texts.length ≤ p.progMax)
  | .assignProgram program =>
    program.isEmpty || (decide (program.length ≤ p.progMax) && !(program.any Source.isWord && decide (16 < p.nregs)))
  | .exportState => true
  | .importState x => (x.check p).all fun y => decide (y.microProgram.length ≤ p.progMax)
  | .poke q => q.accepted p

/-- The step has an effect: it is neither a fault nor a refusal. -/
def State.Steps (s : State) : Prop := ∃ t, step s = .next t

end Sys2Proof.Machine
end

