-- ==== Sys2Proof/Certificates/Slice0/Obligations.lean ====
section
/-!
DEFINITION. The statements handed to the provers. Each docstring names the rule of spec/ it formalises, or says that it is
derived and from what. A next state is written as the old state with the fields the rule writes, so every statement of
that form is a frame as well: every field it does not name, memory included, is unchanged. `output` is the model's field
for what an operation returns to its caller (log 8).
-/
open Sys2Proof Sys2Proof.Machine

/-! ### ALU Engine -/

/-- R112 to R115: encoding, result, flags and latch of AND, OR, XOR and NOT; `C = V = 0`. -/
def Obligations.AluLogicalResults : Prop :=
  ∀ (s : State) (a b : Byte),
    (decode (.alu 0b0000#4 a b) = .ok (.and a b) ∧
      exec (.and a b) s = .next { s with
        alu := ⟨a &&& b, decide (a &&& b = 0#8), (a &&& b).getLsbD 7, false, false⟩, output := .byte (a &&& b) }) ∧
    (decode (.alu 0b0001#4 a b) = .ok (.or a b) ∧
      exec (.or a b) s = .next { s with
        alu := ⟨a ||| b, decide (a ||| b = 0#8), (a ||| b).getLsbD 7, false, false⟩, output := .byte (a ||| b) }) ∧
    (decode (.alu 0b0010#4 a b) = .ok (.xor a b) ∧
      exec (.xor a b) s = .next { s with
        alu := ⟨a ^^^ b, decide (a ^^^ b = 0#8), (a ^^^ b).getLsbD 7, false, false⟩, output := .byte (a ^^^ b) }) ∧
    (decode (.alu 0b0011#4 a b) = .ok (.not a) ∧
      exec (.not a) s = .next { s with
        alu := ⟨255#8 - a, decide (255#8 - a = 0#8), (255#8 - a).getLsbD 7, false, false⟩, output := .byte (255#8 - a) })

/-- R116: encoding, result and flags of ADD. -/
def Obligations.AluAddResult : Prop :=
  ∀ (s : State) (a b : Byte),
    decode (.alu 0b0100#4 a b) = .ok (.add a b) ∧
    exec (.add a b) s = .next { s with
      alu := ⟨a + b, decide (a + b = 0#8), (a + b).getLsbD 7, decide (255 < a.toNat + b.toNat),
        decide (a.getLsbD 7 = b.getLsbD 7 ∧ a.getLsbD 7 ≠ (a + b).getLsbD 7)⟩
      output := .byte (a + b) }

/-- R117: encoding, result and flags of SUB; `C` is the borrow. -/
def Obligations.AluSubResult : Prop :=
  ∀ (s : State) (a b : Byte),
    decode (.alu 0b0101#4 a b) = .ok (.sub a b) ∧
    exec (.sub a b) s = .next { s with
      alu := ⟨a - b, decide (a - b = 0#8), (a - b).getLsbD 7, decide (a.toNat < b.toNat),
        decide (a.getLsbD 7 ≠ b.getLsbD 7 ∧ a.getLsbD 7 ≠ (a - b).getLsbD 7)⟩
      output := .byte (a - b) }

/-- R118, R119: encoding (any `b` presented), result and flags of INC and DEC, which are ADD and SUB with `b = 1`. -/
def Obligations.AluIncDecResults : Prop :=
  ∀ (s : State) (a b : Byte),
    (decode (.alu 0b0110#4 a b) = .ok (.inc a) ∧ exec (.inc a) s = exec (.add a 1#8) s ∧
      exec (.inc a) s = .next { s with
        alu := ⟨a + 1#8, decide (a.toNat = 255), (a + 1#8).getLsbD 7, decide (a.toNat = 255), decide (a.toNat = 127)⟩
        output := .byte (a + 1#8) }) ∧
    (decode (.alu 0b0111#4 a b) = .ok (.dec a) ∧ exec (.dec a) s = exec (.sub a 1#8) s ∧
      exec (.dec a) s = .next { s with
        alu := ⟨a - 1#8, decide (a.toNat = 1), (a - 1#8).getLsbD 7, decide (a.toNat = 0), decide (a.toNat = 128)⟩
        output := .byte (a - 1#8) })

/-- R120, R121: encoding (any `b` presented), result and flags of SHL and SHR. -/
def Obligations.AluShiftResults : Prop :=
  ∀ (s : State) (a b : Byte),
    (decode (.alu 0b1000#4 a b) = .ok (.shl a) ∧
      exec (.shl a) s = .next { s with
        alu := ⟨a <<< 1, decide (a <<< 1 = 0#8), a.getLsbD 6, a.getLsbD 7, false⟩, output := .byte (a <<< 1) }) ∧
    (decode (.alu 0b1001#4 a b) = .ok (.shr a) ∧
      exec (.shr a) s = .next { s with
        alu := ⟨a >>> 1, decide (a >>> 1 = 0#8), false, a.getLsbD 0, false⟩, output := .byte (a >>> 1) })

/-- Derived from R124: for ADD and INC, `C` says that the true sum exceeds 255 and `V` that the two's-complement sum
lies outside -128 to 127; for SUB and DEC, `C` says `a < b` unsigned and `V` the same of the difference. -/
def Obligations.AluCarryAndOverflowAreExact : Prop :=
  ∀ (s : State) (a b : Byte),
    (∃ t, exec (.add a b) s = .next t ∧ t.alu.result.toNat = (a.toNat + b.toNat) % 256 ∧
      (t.alu.flags.carry = true ↔ 255 < a.toNat + b.toNat) ∧
      (t.alu.flags.overflow = true ↔ a.toInt + b.toInt < -128 ∨ 127 < a.toInt + b.toInt)) ∧
    (∃ t, exec (.inc a) s = .next t ∧ t.alu.result.toNat = (a.toNat + 1) % 256 ∧
      (t.alu.flags.carry = true ↔ 255 < a.toNat + 1) ∧ (t.alu.flags.overflow = true ↔ 127 < a.toInt + 1)) ∧
    (∃ t, exec (.sub a b) s = .next t ∧ (t.alu.result.toNat : Int) = ((a.toNat : Int) - b.toNat) % 256 ∧
      (t.alu.flags.carry = true ↔ a.toNat < b.toNat) ∧
      (t.alu.flags.overflow = true ↔ a.toInt - b.toInt < -128 ∨ 127 < a.toInt - b.toInt)) ∧
    (∃ t, exec (.dec a) s = .next t ∧ (t.alu.result.toNat : Int) = ((a.toNat : Int) - 1) % 256 ∧
      (t.alu.flags.carry = true ↔ a.toNat < 1) ∧ (t.alu.flags.overflow = true ↔ a.toInt - 1 < -128))

/-- Derived from R111 to R121, as R126 sums them up: the flag table of the ten operations, in its own closed forms. -/
def Obligations.AluFlagTable : Prop :=
  ∀ (s : State) (a b : Byte),
    (∀ i ∈ [Instr.and a b, .or a b, .xor a b, .not a], ∃ t, exec i s = .next t ∧
      t.alu.flags = ⟨decide (t.alu.result = 0#8), t.alu.result.getLsbD 7, false, false⟩) ∧
    (∃ t, exec (.add a b) s = .next t ∧
      t.alu.flags = ⟨decide (t.alu.result = 0#8), t.alu.result.getLsbD 7, decide (a.toNat + b.toNat > 255),
        decide (a.getLsbD 7 = b.getLsbD 7 ∧ a.getLsbD 7 ≠ t.alu.result.getLsbD 7)⟩) ∧
    (∃ t, exec (.inc a) s = .next t ∧
      t.alu.flags = ⟨decide (a = 255#8), t.alu.result.getLsbD 7, decide (a = 255#8), decide (a = 127#8)⟩) ∧
    (∃ t, exec (.sub a b) s = .next t ∧
      t.alu.flags = ⟨decide (a = b), t.alu.result.getLsbD 7, decide (a.toNat < b.toNat),
        decide (a.getLsbD 7 ≠ b.getLsbD 7 ∧ a.getLsbD 7 ≠ t.alu.result.getLsbD 7)⟩) ∧
    (∃ t, exec (.dec a) s = .next t ∧
      t.alu.flags = ⟨decide (a = 1#8), t.alu.result.getLsbD 7, decide (a = 0#8), decide (a = 128#8)⟩) ∧
    (∃ t, exec (.shl a) s = .next t ∧
      t.alu.flags = ⟨decide (a.extractLsb 6 0 = 0#7), a.getLsbD 6, a.getLsbD 7, false⟩) ∧
    (∃ t, exec (.shr a) s = .next t ∧
      t.alu.flags = ⟨decide (a.toNat ≤ 1), false, a.getLsbD 0, false⟩)

/-- R111: after every ALU operation `Z` and `N` are those of the Byte returned, whichever the operation kind. -/
def Obligations.AluZeroAndNegativeFromReturnedByte : Prop :=
  ∀ (i : Instr) (s : State), i.space = .aluOp →
    ∃ t y, exec i s = .next t ∧ t.output = .byte y ∧ t.alu.result = y ∧
      (t.alu.flags.zero = true ↔ y = 0#8) ∧ t.alu.flags.negative = y.getLsbD 7

/-- Derived from R22 and R125 (no carry-in): an ALU operation reads nothing of the latch it overwrites. -/
def Obligations.AluIgnoresOldLatch : Prop :=
  ∀ (i : Instr) (s : State) (l : AluLatch), i.space = .aluOp → exec i { s with alu := l } = exec i s

/-- Derived from R89 (b) and U3, the spec's reading D2: a presentation to the ALU Engine is refused exactly on codes
1010 to 1111. -/
def Obligations.AluReservedCodesRefused : Prop :=
  ∀ (s : State) (rest : List Request) (op : BitVec 4) (a b : Byte), s.inputs = .aluPresent op a b :: rest →
    (10 ≤ op.toNat → step s = .refused (.aluReservedOp op)) ∧ (op.toNat < 10 → ∃ t, step s = .next t)

/-- Derived from R122 and R23: the accessors return what ALU.RESULT and ALU.FLAGS hold and change no state. A read
before any ALU operation, which U2 would rather refuse, returns the free values the latch has at power-on: that it
completes is the model's choice (log 2). -/
def Obligations.AluAccessorsReturnLatch : Prop :=
  ∀ (s : State) (rest : List Request),
    (s.inputs = .aluGetResult :: rest → step s = .next { s with inputs := rest, output := .byte s.alu.result }) ∧
    (s.inputs = .aluGetFlags :: rest → step s = .next { s with inputs := rest, output := .flags s.alu.flags })

/-! ### Bit-Serial Adder -/

/-- R142: the eight iterations of `addBinary` in order from string index 7, each a full adder on the characters at its
index, the running carry starting at 0 and handed on; its bits and its carry are those emitted; as numbers it adds. -/
def Obligations.AddBinaryIsRippleCarry : Prop :=
  ∀ x y : BitString,
    (addBinary x y).steps.map AdderStep.k = [7, 6, 5, 4, 3, 2, 1, 0] ∧
    (∀ p ∈ (addBinary x y).steps, p.a = bitAt x p.k ∧ p.b = bitAt y p.k ∧ bitAt (addBinary x y).bits p.k = p.sum ∧
      p.sum.toNat = (p.a.toNat + p.b.toNat + p.cIn.toNat) % 2 ∧
      p.cOut.toNat = (p.a.toNat + p.b.toNat + p.cIn.toNat) / 2) ∧
    (addBinary x y).steps.map AdderStep.cIn = false :: ((addBinary x y).steps.map AdderStep.cOut).dropLast ∧
    ((addBinary x y).steps.map AdderStep.cOut).getLast? = some (addBinary x y).carry ∧
    bitsVal (addBinary x y).bits = (bitsVal x + bitsVal y) % 256 ∧
    ((addBinary x y).carry = true ↔ 256 ≤ bitsVal x + bitsVal y)

/-- Derived from R143 with the spec's reading D12 (the carry of the `+1` is dropped): `twosComplement` is negation
modulo 256, and its fixed points are 0 and 128. -/
def Obligations.TwosComplementNegates : Prop :=
  ∀ x : BitString, bitsVal (twosComplement x) = (256 - bitsVal x) % 256 ∧
    (twosComplement x = x ↔ bitsVal x = 0 ∨ bitsVal x = 128)

/-- R153: the round trip over each mode's legal range, and the involution of the negation. -/
def Obligations.AdderRoundTripAndInvolution : Prop :=
  (∀ (m : AdderMode) (v : Int), inLegalRange m v = true → fromBinary (toBinary v m) m = v) ∧
  (∀ x : BitString, twosComplement (twosComplement x) = x)

/-- Derived from R145, R147 to R150 and R83 with the spec's own readings D6 (what is written), D9 (`resultDecimal`), D10
(the legal ranges) and D11 (the trace): on legal operands ADDER_ADD writes ADDER.MODE and returns the sum of the two
bit-strings, its decimal reading, the adder's four flags and the trace of its `addBinary` pass. -/
def Obligations.AdderAddResult : Prop :=
  (∀ a b : Byte,
    decode (.adder 0b00#2 a b) = .ok (.adderAdd .unsigned (fromBinary (str8 a) .unsigned) (fromBinary (str8 b) .unsigned)) ∧
    decode (.adder 0b01#2 a b) =
      .ok (.adderAdd .twosComplement (fromBinary (str8 a) .twosComplement) (fromBinary (str8 b) .twosComplement))) ∧
  ∀ (m : AdderMode) (a b : Int) (s : State), inLegalRange m a = true → inLegalRange m b = true →
    ∃ r : Calculation, exec (.adderAdd m a b) s = .next { s with adderMode := m, output := .calculation r } ∧
      bitsVal r.resultBits = (bitsVal (toBinary a m) + bitsVal (toBinary b m)) % 256 ∧
      r.resultDecimal = fromBinary r.resultBits m ∧
      (r.carryOut = true ↔ 256 ≤ bitsVal (toBinary a m) + bitsVal (toBinary b m)) ∧
      (r.flags.zero = true ↔ bitsVal r.resultBits = 0) ∧
      (r.flags.negative = true ↔ 128 ≤ bitsVal r.resultBits ∧ m = .twosComplement) ∧
      r.flags.carry = r.carryOut ∧
      (m = .unsigned → r.flags.overflow = r.carryOut) ∧
      (m = .twosComplement → (r.flags.overflow = true ↔
        bitAt (toBinary a m) 0 = bitAt (toBinary b m) 0 ∧ bitAt r.resultBits 0 ≠ bitAt (toBinary a m) 0)) ∧
      r.stepTrace = (addBinary (toBinary a m) (toBinary b m)).steps

/-- Derived from R146 to R150 and R83 with the spec's own readings D8, D9, D10 and D11: on legal operands ADDER_SUB adds
the two's complement of the second bit-string, in either mode; `C` is the carry-out of that addition, and the sign its
overflow rule takes is the one ADDER_SUB_OVF_SIGN names. -/
def Obligations.AdderSubResult : Prop :=
  (∀ a b : Byte,
    decode (.adder 0b10#2 a b) = .ok (.adderSub .unsigned (fromBinary (str8 a) .unsigned) (fromBinary (str8 b) .unsigned)) ∧
    decode (.adder 0b11#2 a b) =
      .ok (.adderSub .twosComplement (fromBinary (str8 a) .twosComplement) (fromBinary (str8 b) .twosComplement))) ∧
  ∀ (m : AdderMode) (a b : Int) (s : State), inLegalRange m a = true → inLegalRange m b = true →
    ∃ r : Calculation, exec (.adderSub m a b) s = .next { s with adderMode := m, output := .calculation r } ∧
      (bitsVal r.resultBits : Int) = ((bitsVal (toBinary a m) : Int) - bitsVal (toBinary b m)) % 256 ∧
      r.resultDecimal = fromBinary r.resultBits m ∧
      (r.carryOut = true ↔ bitsVal (toBinary b m) ≠ 0 ∧ bitsVal (toBinary b m) ≤ bitsVal (toBinary a m)) ∧
      (r.flags.zero = true ↔ bitsVal r.resultBits = 0) ∧
      (r.flags.negative = true ↔ 128 ≤ bitsVal r.resultBits ∧ m = .twosComplement) ∧
      r.flags.carry = r.carryOut ∧
      (m = .unsigned → r.flags.overflow = r.carryOut) ∧
      (m = .twosComplement → s.params.adderSubOvfSign = .flipB → (r.flags.overflow = true ↔
        bitAt (toBinary a m) 0 ≠ bitAt (toBinary b m) 0 ∧ bitAt r.resultBits 0 ≠ bitAt (toBinary a m) 0)) ∧
      (m = .twosComplement → s.params.adderSubOvfSign = .msbOfNegatedB → (r.flags.overflow = true ↔
        bitAt (toBinary a m) 0 = bitAt (twosComplement (toBinary b m)) 0 ∧
          bitAt r.resultBits 0 ≠ bitAt (toBinary a m) 0)) ∧
      r.stepTrace = (addBinary (toBinary a m) (twosComplement (toBinary b m))).steps

/-- Derived from 95_test_vectors.md section 3.4 and R150, with the spec's readings D8, D9 and D10: in unsigned mode the
decimal result is the true one modulo 256; in two's-complement mode it is the true one brought into -128 to 127, and `V`
says that the true sum, or under `flip_b` the true difference, lies outside that range. -/
def Obligations.AdderDecimalResultIsExact : Prop :=
  ∀ (a b : Int) (s : State),
    (inLegalRange .unsigned a = true → inLegalRange .unsigned b = true →
      (∃ t r, exec (.adderAdd .unsigned a b) s = .next t ∧ t.output = .calculation r ∧ r.resultDecimal = (a + b) % 256) ∧
      (∃ t r, exec (.adderSub .unsigned a b) s = .next t ∧ t.output = .calculation r ∧
        r.resultDecimal = (a - b) % 256)) ∧
    (inLegalRange .twosComplement a = true → inLegalRange .twosComplement b = true →
      (∃ t r, exec (.adderAdd .twosComplement a b) s = .next t ∧ t.output = .calculation r ∧
        r.resultDecimal = (a + b + 128) % 256 - 128 ∧
        (r.flags.overflow = true ↔ a + b < -128 ∨ 127 < a + b)) ∧
      (∃ t r, exec (.adderSub .twosComplement a b) s = .next t ∧ t.output = .calculation r ∧
        r.resultDecimal = (a - b + 128) % 256 - 128 ∧
        (s.params.adderSubOvfSign = .flipB → (r.flags.overflow = true ↔ a - b < -128 ∨ 127 < a - b))))

/-- Derived from R150 and D8: the two values of ADDER_SUB_OVF_SIGN give the same record for every calculation except a
two's-complement subtraction with `bitsB = 10000000`, where they give opposite `V` and the same everything else. -/
def Obligations.OverflowSignReadingsDifferOnce : Prop :=
  ∀ (subtract : Bool) (m : AdderMode) (x y : BitString),
    ((calculation .flipB subtract m x y = calculation .msbOfNegatedB subtract m x y) ↔
      ¬(subtract = true ∧ m = .twosComplement ∧ bitsVal y = 128)) ∧
    (subtract = true → m = .twosComplement → bitsVal y = 128 →
      calculation .msbOfNegatedB subtract m x y =
        { calculation .flipB subtract m x y with
          flags := { (calculation .flipB subtract m x y).flags with
            overflow := !(calculation .flipB subtract m x y).flags.overflow } })

/-- Derived from R154, its last difference: in two's-complement mode the flags of ADDER_ADD are the ALU Engine's ADD
flags on the same bits, and the result bits are ADD's Byte. -/
def Obligations.AdderTwosComplementAddAgreesWithAlu : Prop :=
  ∀ (a b : Int) (s : State), inLegalRange .twosComplement a = true → inLegalRange .twosComplement b = true →
    ∃ t r u, exec (.adderAdd .twosComplement a b) s = .next t ∧ t.output = .calculation r ∧
      exec (.add (bitsByte (toBinary a .twosComplement)) (bitsByte (toBinary b .twosComplement))) s = .next u ∧
      r.flags = u.alu.flags ∧ bitsByte r.resultBits = u.alu.result

/-- Derived from R156 and D10: an operand outside the mode's legal range is refused, neither clamped nor wrapped. -/
def Obligations.AdderRefusesIllegalOperands : Prop :=
  ∀ (m : AdderMode) (a b : Int) (s : State), ¬(inLegalRange m a = true ∧ inLegalRange m b = true) →
    exec (.adderAdd m a b) s = .refused .adderOperandOutOfRange ∧
    exec (.adderSub m a b) s = .refused .adderOperandOutOfRange

/-- Derived from R140 to R143 with the spec's reading D12 (`twosComplement` answers the bit-string alone, the carry of
its `+1` dropped): what `toBinary` answers on a value of the mode's legal range and what `fromBinary`, `addBinary` and
`twosComplement` answer on the eight characters of any bit-strings; none writes ADDER.MODE. -/
def Obligations.AdderHelpersAnswer : Prop :=
  (∀ (s : State) (rest : List Request) (mode : Text) (m : AdderMode) (v : Int), s.inputs = .toBinary v mode :: rest →
    parseMode mode = some m → inLegalRange m v = true →
    ∃ x : BitString, step s = .next { s with inputs := rest, output := .bits x } ∧
      (bitsVal x : Int) = if 0 ≤ v then v else 256 + v) ∧
  (∀ (s : State) (rest : List Request) (mode : Text) (m : AdderMode) (x : BitString),
    s.inputs = .fromBinary (x.toList.map fun b => if b then '1' else '0') mode :: rest → parseMode mode = some m →
    step s = .next { s with
      inputs := rest
      output := .integer (if m = .twosComplement ∧ 128 ≤ bitsVal x then (bitsVal x : Int) - 256 else bitsVal x) }) ∧
  (∀ (s : State) (rest : List Request) (x y : BitString),
    s.inputs = .addBinary (x.toList.map fun b => if b then '1' else '0') (y.toList.map fun b => if b then '1' else '0')
      :: rest →
    step s = .next { s with inputs := rest, output := .sum (addBinary x y).bits (addBinary x y).carry }) ∧
  (∀ (s : State) (rest : List Request) (x : BitString),
    s.inputs = .twosComplement (x.toList.map fun b => if b then '1' else '0') :: rest →
    step s = .next { s with inputs := rest, output := .bits (twosComplement x) })

/-- Derived from R144 and, for the refusal of another `mode`, D34: `configure` sets ADDER.MODE, computes nothing and
writes no flag. -/
def Obligations.ConfigureWritesModeOnly : Prop :=
  ∀ (s : State) (rest : List Request) (mode : Text), s.inputs = .configure mode :: rest →
    (mode = "unsigned".toList →
      step s = .next { s with inputs := rest, output := .none, adderMode := .unsigned }) ∧
    (mode = "twos-complement".toList →
      step s = .next { s with inputs := rest, output := .none, adderMode := .twosComplement }) ∧
    (mode ≠ "unsigned".toList → mode ≠ "twos-complement".toList → step s = .refused .adderBadMode)

/-! ### Micro-operations -/

/-- R171, R173: `MAR ← PC` with its description string, and `IR ← MDR`. -/
def Obligations.MarPcAndIrMdrResults : Prop :=
  ∀ s : State,
    (decodeUop 0x10#8 = .marPc ∧ parseUop "MAR ← PC".toList = .marPc ∧
      exec .marPc s = .next { s with mar := s.pc } ∧
      describe .marPc { s with mar := s.pc } = "MAR = ".toList ++ decimal s.pc.toNat) ∧
    (decodeUop 0x30#8 = .irMdr ∧ parseUop "IR ← MDR".toList = .irMdr ∧ exec .irMdr s = .next { s with ir := s.mdr })

/-- R172: `MDR ← Mem[MAR]` loads the Byte at MAR, or 0 out of range, and changes nothing else. -/
def Obligations.MdrMemResult : Prop :=
  decodeUop 0x20#8 = .mdrMem ∧ parseUop "MDR ← Mem[MAR]".toList = .mdrMem ∧
  ∀ s : State, exec .mdrMem s =
    .next { s with mdr := if s.mar.toNat < s.params.memSize then Memory.read s.mem s.mar.toNat else 0#8 }

/-- R174: `PC ← PC + 1` modulo MEM_SIZE, for every legal MEM_SIZE and every PC, in range or not. -/
def Obligations.PcIncResult : Prop :=
  decodeUop 0x40#8 = .pcInc ∧ parseUop "PC ← PC + 1".toList = .pcInc ∧
  ∀ s : State, s.params.memSizeLegal = true →
    ∃ v : Byte, exec .pcInc s = .next { s with pc := v } ∧ v.toNat = (s.pc.toNat + 1) % s.params.memSize ∧
      v.toNat < s.params.memSize

/-- R175, R176: `A ← R[n]` and `B ← R[n]` load the register, or 0 for an index out of bounds, in word and text form. -/
def Obligations.BusLoadResults : Prop :=
  (∀ n, n < 16 → decodeUop (BitVec.ofNat 8 (0x50 + n)) = .aR n ∧ decodeUop (BitVec.ofNat 8 (0x60 + n)) = .bR n) ∧
  ∀ (s : State) (n : Nat),
    parseUop ("A ← R[".toList ++ decimal n ++ "]".toList) = .aR n ∧
    parseUop ("B ← R[".toList ++ decimal n ++ "]".toList) = .bR n ∧
    exec (.aR n) s = .next { s with busA := if n < s.params.nregs then s.regs.getD n 0#8 else 0#8 } ∧
    exec (.bR n) s = .next { s with busB := if n < s.params.nregs then s.regs.getD n 0#8 else 0#8 }

/-- R177, R179: result and flags of `ALU ← A + B` and `ALU ← A & B`; `V` is always 0 and `flags` is not written. -/
def Obligations.UopAddAndAndResults : Prop :=
  decodeUop 0x70#8 = .aluAdd ∧ parseUop "ALU ← A + B".toList = .aluAdd ∧
  decodeUop 0x90#8 = .aluAnd ∧ parseUop "ALU ← A & B".toList = .aluAnd ∧
  ∀ s : State,
    exec .aluAdd s = .next { s with
      aluResult := s.busA + s.busB
      aluFlags := ⟨decide (s.busA + s.busB = 0#8), (s.busA + s.busB).getLsbD 7,
        decide (255 < s.busA.toNat + s.busB.toNat), false⟩ } ∧
    exec .aluAnd s = .next { s with
      aluResult := s.busA &&& s.busB
      aluFlags := ⟨decide (s.busA &&& s.busB = 0#8), (s.busA &&& s.busB).getLsbD 7, false, false⟩ }

/-- Derived from R178 and R184 with the spec's reading D35 (log 15): after `ALU ← A - B` both `C` and `V` are 0, a
borrow is not reported; `flags` is not written. -/
def Obligations.UopSubResult : Prop :=
  decodeUop 0x80#8 = .aluSub ∧ parseUop "ALU ← A - B".toList = .aluSub ∧
  ∀ s : State, exec .aluSub s = .next { s with
    aluResult := s.busA - s.busB
    aluFlags := ⟨decide (s.busA = s.busB), (s.busA - s.busB).getLsbD 7, false, false⟩ }

/-- Derived from R180 and R185 with the spec's reading D16 (log 16) for an index out of bounds: after `R[n] ← ALU`
register `n` reads as `aluResult`, every other register reads as before, an index out of bounds changes nothing, and
nothing but the register file changes. -/
def Obligations.RAluResult : Prop :=
  (∀ n, n < 16 → decodeUop (BitVec.ofNat 8 (0xA0 + n)) = .rAlu n) ∧
  (∀ n, parseUop ("R[".toList ++ decimal n ++ "] ← ALU".toList) = .rAlu n) ∧
  ∀ (s : State) (n : Nat), s.regs.length = s.params.nregs →
    ∃ l : List Byte, exec (.rAlu n) s = .next { s with regs := l } ∧ l.length = s.regs.length ∧
      (∀ m, State.readReg { s with regs := l } m = if m = n ∧ n < s.params.nregs then s.aluResult else s.readReg m) ∧
      (s.params.nregs ≤ n → l = s.regs)

/-- R181: `FLAGS ← ALU.flags` copies all four flags and changes nothing else. -/
def Obligations.FlagsAluResult : Prop :=
  decodeUop 0xB0#8 = .flagsAlu ∧ parseUop "FLAGS ← ALU.flags".toList = .flagsAlu ∧
  ∀ s : State, exec .flagsAlu s = .next { s with
    flags := ⟨s.aluFlags.zero, s.aluFlags.negative, s.aluFlags.carry, s.aluFlags.overflow⟩ }

/-- Derived from R182 and R64 with the spec's reading D16 (log 16) for an address out of range: `Mem[MAR] ← MDR` stores
at the address in MAR when it is in range, leaves every other Byte as it reads, discards the write out of range, keeps
the canonical form, and changes nothing but data memory. -/
def Obligations.MemMdrResult : Prop :=
  decodeUop 0xC0#8 = .memMdr ∧ parseUop "Mem[MAR] ← MDR".toList = .memMdr ∧
  ∀ s : State, Memory.wf s.mem →
    ∃ m : Memory, exec .memMdr s = .next { s with mem := m } ∧ Memory.wf m ∧
      (∀ x, State.memRead { s with mem := m } x =
        if x = s.mar.toNat ∧ s.mar.toNat < s.params.memSize then s.mdr else s.memRead x) ∧
      (s.params.memSize ≤ s.mar.toNat → m = s.mem)

/-- Derived from R183 and R232: UNKNOWN changes no datapath state; as a dispatched statement it gets the trace entry
with "Unknown operation" and `currentStep` advances. -/
def Obligations.UnknownIsRecordedNoOperation : Prop :=
  (∀ s : State, exec .unknown s = .next s) ∧
  ∀ (s : State) (rest : List Request) (txt : Text), s.inputs = .step :: rest →
    s.microProgram[s.currentStep]? = some ⟨.unknown, txt⟩ → s.currentStep + 1 < s.microProgram.length →
    step s = .next { s with
      inputs := rest
      output := .none
      trace := s.trace ++ [⟨s.currentStep, txt, "Unknown operation".toList⟩]
      currentStep := s.currentStep + 1
      freeIndex := s.freeIndex + 1 }

/-- Derived from R171 to R183, as R186 sums them up: the frame rule. Every micro-operation completes, and each part of
the datapath changes under its own micro-operations only; nothing outside the datapath changes. -/
def Obligations.UopFrameRule : Prop :=
  ∀ (u : Uop) (s : State), ∃ t, exec u.toInstr s = .next t ∧
    (u ≠ .aluAdd → u ≠ .aluSub → u ≠ .aluAnd → t.aluResult = s.aluResult ∧ t.aluFlags = s.aluFlags) ∧
    (u ≠ .flagsAlu → t.flags = s.flags) ∧ (u ≠ .pcInc → t.pc = s.pc) ∧
    (u ≠ .memMdr → t.mem = s.mem) ∧ ((∀ n, u ≠ .rAlu n) → t.regs = s.regs) ∧
    (u ≠ .marPc → t.mar = s.mar) ∧ (u ≠ .mdrMem → t.mdr = s.mdr) ∧ (u ≠ .irMdr → t.ir = s.ir) ∧
    ((∀ n, u ≠ .aR n) → t.busA = s.busA) ∧ ((∀ n, u ≠ .bR n) → t.busB = s.busB) ∧
    t = { s with regs := t.regs, pc := t.pc, ir := t.ir, mar := t.mar, mdr := t.mdr, busA := t.busA, busB := t.busB,
                 aluResult := t.aluResult, aluFlags := t.aluFlags, flags := t.flags, mem := t.mem }

/-- Derived from R186 ("No micro-operation reads `flags` or `IR`") and R187: a micro-operation does the same to two
states that differ only in `flags` and `IR`. What FLAGS_ALU writes into `flags` and IR_MDR into `IR` is the same in
both; under every other micro-operation each state keeps its own. -/
def Obligations.UopReadsNeitherFlagsNorIr : Prop :=
  ∀ (u : Uop) (s : State) (f : FlagSet) (x : Byte), ∃ t,
    exec u.toInstr s = .next t ∧
    exec u.toInstr { s with flags := f, ir := x } = .next { t with
      flags := if u = .flagsAlu then t.flags else f
      ir := if u = .irMdr then t.ir else x }

/-- Derived from R181 and R184: no step sets an overflow flag of the interpreter, be it a tick of the armed timer with
no request waiting or a step that takes any request but a poke or an import; only those two can. -/
def Obligations.InterpreterOverflowStaysClear : Prop :=
  ∀ s t : State, (∀ p rest, s.inputs ≠ .poke p :: rest) → (∀ x rest, s.inputs ≠ .importState x :: rest) →
    s.aluFlags.overflow = false → s.flags.overflow = false → step s = .next t →
    t.aluFlags.overflow = false ∧ t.flags.overflow = false

/-! ### Sequencer -/

/-- Derived from R201 with the spec's readings D20 (log 20) and D25 (the trace entry): a host's `step()` with the
program not exhausted runs exactly the micro-operation of the statement at `currentStep` on the state from which the
request has been taken, then appends one trace entry, advances `currentStep` by 1 and, at the end of the program, sets
`completed` and disarms the timer. -/
def Obligations.StepRunsFetchedStatement : Prop :=
  ∀ (s : State) (rest : List Request) (stmt : Statement), s.inputs = .step :: rest →
    s.microProgram[s.currentStep]? = some stmt →
    ∃ t, exec stmt.uop.toInstr { s with inputs := rest, output := .none } = .next t ∧
      step s = .next { t with
        trace := s.trace ++ [⟨s.currentStep, stmt.text, describe stmt.uop t⟩]
        currentStep := s.currentStep + 1
        runState := if s.currentStep + 1 = s.microProgram.length then .completed else s.runState
        timerActive := if s.currentStep + 1 = s.microProgram.length then false else s.timerActive
        freeIndex := s.freeIndex + 1 }

/-- Derived from R81, R83, R88, R155 and log 13: what a binary form decodes to is what the next step runs: a
presentation to the ALU Engine or the adder is exec of the decoded instruction on the state from which it has been
taken, and `calculate` is exec of the adder operation it names; a word loaded as a statement holds the micro-operation
it decodes to; and `withFetchWord` places exactly the instruction of a table word. -/
def Obligations.StepRunsDecodedInstruction : Prop :=
  (∀ (s : State) (rest : List Request) (op : BitVec 4) (a b : Byte) (i : Instr),
    s.inputs = .aluPresent op a b :: rest → decode (.alu op a b) = .ok i →
    step s = exec i { s with inputs := rest, output := .none }) ∧
  (∀ (s : State) (rest : List Request) (ctl : BitVec 2) (a b : Byte) (i : Instr),
    s.inputs = .adderPresent ctl a b :: rest → decode (.adder ctl a b) = .ok i →
    i.WellFormed ∧ step s = exec i { s with inputs := rest, output := .none }) ∧
  (∀ (s : State) (rest : List Request) (a b : Int) (operation mode : Text) (m : AdderMode),
    s.inputs = .calculate a b operation mode :: rest → parseMode mode = some m →
    (operation = "add".toList → step s = exec (.adderAdd m a b) { s with inputs := rest, output := .none }) ∧
    (operation = "sub".toList → step s = exec (.adderSub m a b) { s with inputs := rest, output := .none })) ∧
  (∀ (w : Byte) (i : Instr), decode (.uop w) = .ok i → (Statement.ofWord w).uop.toInstr = i) ∧
  (∀ (s : State) (nbits w : Nat) (i : Instr), decodeTableWord nbits w = some i → i.space ≠ .uop →
    step (s.withFetchWord nbits w) = exec i { s with inputs := [], output := .none }) ∧
  (∀ (s : State) (nbits w : Nat) (i : Instr), decodeTableWord nbits w = some i → i.space = .uop →
    ∃ stmt t, exec i { s with microProgram := [stmt], currentStep := 0, inputs := [], output := .none } = .next t ∧
      stmt.uop.toInstr = i ∧ step (s.withFetchWord nbits w) = .next (t.retire stmt))

/-- Derived from R202, the spec's reading D21 (log 11): from the end of the program on, `step()` only rewinds
`currentStep`. -/
def Obligations.WrapStepOnlyRewinds : Prop :=
  ∀ (s : State) (rest : List Request), s.inputs = .step :: rest → s.microProgram.length ≤ s.currentStep →
    step s = .next { s with inputs := rest, output := .none, currentStep := 0 }

/-- Derived from R203 to R205 and R215 with the spec's own completions D20 (the three commands have no effect in
`completed`, and `pause()` has none but while running) and D32 (no run starts on an empty program), DEDUCED in log 20
because the source leaves them open (U20): the driver commands in every run state, with their effect on the timer. -/
def Obligations.RunDriverCommands : Prop :=
  ∀ (s : State) (rest : List Request),
    (s.inputs = .run :: rest →
      ((s.runState = .idle ∨ s.runState = .paused) → s.microProgram ≠ [] →
        step s = .next { s with inputs := rest, output := .none, runState := .running, timerActive := true }) ∧
      (s.runState = .running ∨ s.runState = .completed ∨ s.microProgram = [] →
        step s = .next { s with inputs := rest, output := .none })) ∧
    (s.inputs = .toggleRunning :: rest →
      (s.runState = .running →
        step s = .next { s with inputs := rest, output := .none, runState := .paused, timerActive := false }) ∧
      ((s.runState = .idle ∨ s.runState = .paused) → s.microProgram ≠ [] →
        step s = .next { s with inputs := rest, output := .none, runState := .running, timerActive := true }) ∧
      (s.runState = .completed ∨ (s.runState ≠ .running ∧ s.microProgram = []) →
        step s = .next { s with inputs := rest, output := .none })) ∧
    (s.inputs = .pause :: rest →
      (s.runState = .running →
        step s = .next { s with inputs := rest, output := .none, runState := .paused, timerActive := false }) ∧
      (s.runState ≠ .running → step s = .next { s with inputs := rest, output := .none }))

/-- Derived from R215, the spec's reading D20 (log 20: "`completed` is left only by `reset()` and by a load or import")
and R202: any other request keeps the run state `completed`. -/
def Obligations.CompletedIsLeftOnlyByResetOrLoad : Prop :=
  ∀ (s t : State), s.runState = .completed → step s = .next t → t.runState ≠ .completed →
    t.runState = .idle ∧ t.currentStep = 0 ∧ t.trace = [] ∧
    ∃ r rest, s.inputs = r :: rest ∧ (r = .reset ∨ (∃ n, r = .loadPreset n) ∨ (∃ p, r = .assignProgram p) ∨
      (∃ x, r = .importState x))

/-- Derived from R206 and the model's order of requests (log 1): a tick is exactly one `step()` while the timer is armed
and no tick occurs otherwise. With no request waiting the armed timer ticks all the same: it does what `step()` does and
leaves the last answer as it stands. -/
def Obligations.TickIsOneStep : Prop :=
  ∀ (s : State) (rest : List Request),
    (s.inputs = .tick :: rest → s.timerActive = true → step s = step { s with inputs := .step :: rest }) ∧
    (s.inputs = .tick :: rest → s.timerActive = false → step s = .next { s with inputs := rest, output := .none }) ∧
    (s.inputs = [] → s.timerActive = true →
      ∃ t, step { s with inputs := [.step] } = .next t ∧ step s = .next { t with output := s.output }) ∧
    (s.inputs = [] → s.timerActive = false → step s = .next s)

/-- Derived from R207 with the spec's readings D18 (memory) and D19 (the program stays; log 20): what `reset()` clears
and what it keeps, in any run state; memory by RESET_CLEARS_MEM. -/
def Obligations.ResetCommandEffect : Prop :=
  ∀ (s : State) (rest : List Request), s.inputs = .reset :: rest →
    step s = .next { s with
      inputs := rest
      output := .none
      timerActive := false
      regs := List.replicate s.params.nregs 0#8
      pc := 0#8
      ir := 0#8
      mar := 0#8
      mdr := 0#8
      busA := 0#8
      busB := 0#8
      aluResult := 0#8
      aluFlags := ⟨false, false, false, false⟩
      flags := ⟨false, false, false, false⟩
      mem := if s.params.resetClearsMem then [] else s.mem
      trace := []
      currentStep := 0
      runState := .idle }

/-- Derived from R207 and R254, "a second `reset()` directly after the first changes nothing": the second only takes its
request. -/
def Obligations.ResetCommandIsIdempotent : Prop :=
  ∀ (s : State) (rest : List Request), s.inputs = .reset :: .reset :: rest →
    ∃ t, step s = .next t ∧ step t = .next { t with inputs := rest }

/-- Derived from R208, R209 and U22 with the spec's readings D22 and D23 (log 21): what loading a preset and assigning a
program do, its statements given as texts, variants or words in any mixture, and the failures that leave the state as it
is. A program longer than PROG_MAX is refused, and so are words where there are more than 16 registers (U15, log 19).
The text kept for a variant or word that is UNKNOWN is log 12's. -/
def Obligations.LoadingReplacesProgramOnly : Prop :=
  (∀ (s : State) (rest : List Request) (name : Text), s.inputs = .loadPreset name :: rest →
    (∀ texts, s.params.presets.lookup name = some texts →
      (texts.length ≤ s.params.progMax →
        step s = .next { s with
          inputs := rest, output := .none, timerActive := false, microProgram := texts.map fun t => ⟨parseUop t, t⟩,
          presetName := some name, currentStep := 0, trace := [], runState := .idle }) ∧
      (s.params.progMax < texts.length → step s = .refused .programTooLong)) ∧
    (s.params.presets.lookup name = none →
      step s = .next { s with inputs := rest, output := .failure .unknownPreset })) ∧
  (∀ (s : State) (rest : List Request) (program : List Source), s.inputs = .assignProgram program :: rest →
    (program ≠ [] → program.length ≤ s.params.progMax → ((∀ w, .word w ∉ program) ∨ s.params.nregs ≤ 16) →
      step s = .next { s with
        inputs := rest, output := .none, timerActive := false, microProgram := program.map Statement.ofSource,
        presetName := none, currentStep := 0, trace := [], runState := .idle }) ∧
    (program = [] → step s = .next { s with inputs := rest, output := .failure .emptyProgram }) ∧
    (∀ w, .word w ∈ program → 16 < s.params.nregs → step s = .refused .wordsNeedFewerRegisters) ∧
    (s.params.progMax < program.length → ((∀ w, .word w ∉ program) ∨ s.params.nregs ≤ 16) →
      step s = .refused .programTooLong)) ∧
  (∀ t, Statement.ofSource (.text t) = ⟨parseUop t, t⟩) ∧
  (∀ u, Statement.ofSource (.variant u) = ⟨u, canonicalText u⟩) ∧
  (∀ w, Statement.ofSource (.word w) =
    ⟨decodeUop w, if decodeUop w = .unknown then hexWord w else canonicalText (decodeUop w)⟩)

/-- Derived from R206, R217 and 93_implementation_defined.md ("a run started by `run()` reaches `completed` after
exactly `len - currentStep` ticks"); that a step with no request waiting is the timer's tick is the model's choice
(log 1). From every state of the invariant that is running with no request waiting, that many steps lead to `completed`,
the timer stopped, one trace entry for each statement executed, in order, the program as it was. -/
def Obligations.RunReachesCompleted : Prop :=
  ∀ s : State, s.Inv → s.runState = .running → s.inputs = [] →
    ∃ t, Sys2Proof.core.run (s.microProgram.length - s.currentStep) s = .next t ∧
      t.runState = .completed ∧ t.timerActive = false ∧ t.currentStep = s.microProgram.length ∧
      t.microProgram = s.microProgram ∧
      (t.trace.map fun e => (e.step, e.operation)) = (s.trace.map fun e => (e.step, e.operation)) ++
        ((s.microProgram.map Statement.text).zipIdx.map fun p => (p.2, p.1)).drop s.currentStep

/-- Derived from R217 and R214: `currentStep` stays, goes up by 1 with one entry appended to the trace, or goes to 0
with the trace kept (a wrap step) or emptied. -/
def Obligations.StepPointerMovesInThreeWays : Prop :=
  ∀ s t : State, step s = .next t →
    (t.currentStep = s.currentStep ∧ t.trace = s.trace) ∨
    (t.currentStep = s.currentStep + 1 ∧ s.currentStep < s.microProgram.length ∧
      ∃ e, e.step = s.currentStep ∧ t.trace = s.trace ++ [e]) ∨
    (t.currentStep = 0 ∧ t.trace = s.trace ∧ s.microProgram.length ≤ s.currentStep) ∨
    (t.currentStep = 0 ∧ t.trace = [])

/-- Derived from R74: the control store changes only by a load, an assignment or an import, which also set `currentStep`
to 0; in particular no micro-operation, no store and no poke changes a statement. -/
def Obligations.ControlStoreChangesOnlyByLoads : Prop :=
  ∀ s t : State, step s = .next t → t.microProgram ≠ s.microProgram →
    t.currentStep = 0 ∧ ∃ r rest, s.inputs = r :: rest ∧
      ((∃ n, r = .loadPreset n) ∨ (∃ p, r = .assignProgram p) ∨ (∃ x, r = .importState x))

/-! ### Snapshots and pokes -/

/-- Derived from R211 and R212 (and vector H12), with the spec's readings D29 and D31 (log 21) and U22. `exportState()`
answers, in every state, with a program or without, the snapshot of what the state holds, and changes no state.
`importState` of any well-formed snapshot, exported or not, is a program assignment with its name and its datapath; one
whose program is longer than PROG_MAX is refused. So a snapshot exported from a state of the invariant with a program
and imported into any state of an instance with the same parameters restores program, name and datapath there. -/
def Obligations.ExportThenImportRestores : Prop :=
  (∀ (s : State) (rest : List Request), s.inputs = .exportState :: rest →
    ∃ l : List Byte, l.length = s.params.memSize ∧ (∀ a, l.getD a 0#8 = s.memRead a) ∧
      step s = .next { s with
        inputs := rest
        output := .snapshot {
          microProgram := s.microProgram.map Statement.text
          state := ⟨s.regs, s.pc, s.ir, s.mar, s.mdr, s.busA, s.busB, s.aluResult, s.aluFlags, s.flags, l⟩
          presetName := s.presetName } }) ∧
  (∀ (s : State) (rest : List Request) (x : Snapshot), s.inputs = .importState x.toRaw :: rest →
    x.microProgram ≠ [] → x.state.registers.length = s.params.nregs → x.state.memory.length = s.params.memSize →
    (x.microProgram.length ≤ s.params.progMax →
      ∃ m : Memory, Memory.wf m ∧ (∀ a, State.memRead { s with mem := m } a = x.state.memory.getD a 0#8) ∧
        step s = .next { s with
          inputs := rest, output := .none, timerActive := false,
          microProgram := x.microProgram.map fun t => ⟨parseUop t, t⟩,
          presetName := x.presetName, currentStep := 0, trace := [], runState := .idle,
          regs := x.state.registers, pc := x.state.pc, ir := x.state.ir, mar := x.state.mar, mdr := x.state.mdr,
          busA := x.state.busA, busB := x.state.busB, aluResult := x.state.aluResult, aluFlags := x.state.aluFlags,
          flags := x.state.flags, mem := m }) ∧
    (s.params.progMax < x.microProgram.length → step s = .refused .programTooLong)) ∧
  (∀ (s u : State) (rest rest' : List Request), s.Inv → s.microProgram ≠ [] → s.inputs = .exportState :: rest →
    ∃ x : Snapshot, step s = .next { s with inputs := rest, output := .snapshot x } ∧
      (u.params = s.params → u.inputs = .importState x.toRaw :: rest' →
        step u = .next { u with
          inputs := rest', output := .none, timerActive := false, microProgram := s.microProgram,
          presetName := s.presetName, currentStep := 0, trace := [], runState := .idle,
          regs := s.regs, pc := s.pc, ir := s.ir, mar := s.mar, mdr := s.mdr, busA := s.busA, busB := s.busB,
          aluResult := s.aluResult, aluFlags := s.aluFlags, flags := s.flags, mem := s.mem }))

/-- Derived from R212 and R233, with the spec's reading D29 (log 21) for what goes beyond bad JSON and missing fields:
bad JSON, a missing field at the top or inside `state`, a value outside 0 to 255 in any Byte field, in a register or in
a memory cell, a wrong size, or an empty program is reported and changes nothing else; a running program keeps running.
-/
def Obligations.MalformedImportIsReportedOnly : Prop :=
  ∀ (s : State) (rest : List Request) (x : RawSnapshot), s.inputs = .importState x :: rest →
    (x = .badJson ∨ (∃ d n, x = .fields none d n) ∨ (∃ p n, x = .fields p none n) ∨ (∃ p d, x = .fields p d none) ∨
      (∃ d n, x = .fields (some []) d n) ∨
      (∃ p d n, x = .fields p (some d) n ∧
        (d.registers = none ∨ d.pc = none ∨ d.ir = none ∨ d.mar = none ∨ d.mdr = none ∨ d.busA = none ∨
          d.busB = none ∨ d.aluResult = none ∨ d.aluFlags = none ∨ d.flags = none ∨ d.memory = none)) ∨
      (∃ p d n v, x = .fields p (some d) n ∧ (v < 0 ∨ 255 < v) ∧
        (d.pc = some v ∨ d.ir = some v ∨ d.mar = some v ∨ d.mdr = some v ∨ d.busA = some v ∨ d.busB = some v ∨
          d.aluResult = some v ∨ (∃ l, d.registers = some l ∧ v ∈ l) ∨ (∃ l, d.memory = some l ∧ v ∈ l))) ∨
      (∃ p d n l, x = .fields p (some d) n ∧ d.memory = some l ∧ l.length ≠ s.params.memSize) ∨
      (∃ p d n l, x = .fields p (some d) n ∧ d.registers = some l ∧ l.length ≠ s.params.nregs)) →
    step s = .next { s with inputs := rest, output := .failure .malformedSnapshot }

/-- Derived from R213 and U14, the spec's reading D30: a poke of an in-range value writes its one field, whichever Byte
field or flag of the datapath it is, and nothing else; a value out of range, a field that does not exist (log 18) and a
field that is not the datapath's are refused. -/
def Obligations.PokeWritesOneField : Prop :=
  ∀ (s : State) (rest : List Request),
    (∀ (v : Int) (b : Byte), b.toNat = v →
      (s.inputs = .poke (.byte .pc v) :: rest → step s = .next { s with inputs := rest, output := .none, pc := b }) ∧
      (s.inputs = .poke (.byte .ir v) :: rest → step s = .next { s with inputs := rest, output := .none, ir := b }) ∧
      (s.inputs = .poke (.byte .mar v) :: rest → step s = .next { s with inputs := rest, output := .none, mar := b }) ∧
      (s.inputs = .poke (.byte .mdr v) :: rest → step s = .next { s with inputs := rest, output := .none, mdr := b }) ∧
      (s.inputs = .poke (.byte .busA v) :: rest → step s = .next { s with inputs := rest, output := .none, busA := b }) ∧
      (s.inputs = .poke (.byte .busB v) :: rest → step s = .next { s with inputs := rest, output := .none, busB := b }) ∧
      (s.inputs = .poke (.byte .aluResult v) :: rest →
        step s = .next { s with inputs := rest, output := .none, aluResult := b }) ∧
      (∀ a, Memory.wf s.mem → a < s.params.memSize → s.inputs = .poke (.byte (.memory a) v) :: rest →
        ∃ m, step s = .next { s with inputs := rest, output := .none, mem := m } ∧
          ∀ x, State.memRead { s with mem := m } x = if x = a then b else s.memRead x) ∧
      (∀ n, s.regs.length = s.params.nregs → n < s.params.nregs → s.inputs = .poke (.byte (.reg n) v) :: rest →
        ∃ l, step s = .next { s with inputs := rest, output := .none, regs := l } ∧
          ∀ x, State.readReg { s with regs := l } x = if x = n then b else s.readReg x) ∧
      (∀ f, f.present s.params = true → s.inputs = .poke (.byte f v) :: rest →
        step s = .next (State.setByteField { s with inputs := rest, output := .none } f b))) ∧
    (∀ n q, s.inputs = .poke (.aluFlag n q) :: rest →
      step s = .next { s with inputs := rest, output := .none, aluFlags := setFlag s.aluFlags n q }) ∧
    (∀ n q, s.inputs = .poke (.flag n q) :: rest →
      step s = .next { s with inputs := rest, output := .none, flags := setFlag s.flags n q }) ∧
    (∀ (f : FlagSet) (q : Bool),
      setFlag f .zero q = { f with zero := q } ∧ setFlag f .negative q = { f with negative := q } ∧
      setFlag f .carry q = { f with carry := q } ∧ setFlag f .overflow q = { f with overflow := q }) ∧
    (∀ f w, f.present s.params = true → (w < 0 ∨ 255 < w) → s.inputs = .poke (.byte f w) :: rest →
      step s = .refused .pokeValueOutOfRange) ∧
    (∀ f w, f.present s.params = false → s.inputs = .poke (.byte f w) :: rest → step s = .refused .pokeNoSuchField) ∧
    (∀ f w, s.inputs = .poke (.locked f w) :: rest → step s = .refused .pokeLockedField)

/-! ### The whole machine -/

/-- Derived from R8 and D33: the parameters of an instance never change. -/
def Obligations.ParametersNeverChange : Prop := ∀ s t : State, step s = .next t → t.params = s.params

/-- Derived from R2, with log 1 for the step with no request waiting: the three blocks share no state. A request to the
ALU Engine changes only the latch, one to the adder only ADDER.MODE, every other neither of them (requests taken and
answers given apart). A step with no request waiting, the timer's tick, changes neither of them and leaves the answer
either block gave as it stands. -/
def Obligations.BlocksShareNoState : Prop :=
  (∀ (s t : State) (r : Request) (rest : List Request), s.inputs = r :: rest → step s = .next t →
    ((∃ op a b, r = .aluPresent op a b) ∨ r = .aluGetResult ∨ r = .aluGetFlags →
      t = { s with inputs := rest, alu := t.alu, output := t.output }) ∧
    ((∃ c a b, r = .adderPresent c a b) ∨ (∃ a b o m, r = .calculate a b o m) ∨ (∃ m, r = .configure m) ∨
        (∃ v m, r = .toBinary v m) ∨ (∃ x m, r = .fromBinary x m) ∨ (∃ x y, r = .addBinary x y) ∨
        (∃ x, r = .twosComplement x) →
      t = { s with inputs := rest, adderMode := t.adderMode, output := t.output }) ∧
    (r = .step ∨ r = .tick ∨ r = .run ∨ r = .toggleRunning ∨ r = .pause ∨ r = .reset ∨ r = .exportState ∨
        (∃ n, r = .loadPreset n) ∨ (∃ p, r = .assignProgram p) ∨ (∃ x, r = .importState x) ∨ (∃ p, r = .poke p) →
      t.alu = s.alu ∧ t.adderMode = s.adderMode)) ∧
  (∀ s t : State, s.inputs = [] → step s = .next t →
    t.alu = s.alu ∧ t.adderMode = s.adderMode ∧ t.output = s.output ∧ t.inputs = [])

/-- The headline invariant, derived from R8, R20, R26, R35, R37, R41, R90, R206: from every state that has it, reached
by a run or not, a step that completes leads to one that has it. -/
def Obligations.EveryStepKeepsInvariant : Prop := ∀ s t : State, s.Inv → step s = .next t → t.Inv

/-- The invariant holds right after reset, and right after creation with any legal parameters (derived from R250, the
spec's reading D17, log 22). -/
def Obligations.ResetHasInvariant : Prop :=
  State.reset.Inv ∧ ∀ p : Params, p.WellFormed → ∃ t, create p = .next t ∧ t.Inv

/-- Derived from R250 and R44, the spec's reading D17 (log 22): the power-on state of the interpreter, for every legal
set of parameters. The values of the ALU latch and of ADDER.MODE, which the spec leaves open (log 2, log 3), are not
stated. -/
def Obligations.PowerOnState : Prop :=
  ∀ p : Params, p.WellFormed → ∃ t, create p = .next t ∧ t.params = p ∧
    (∀ n, t.readReg n = 0#8) ∧ t.regs.length = p.nregs ∧ t.pc = 0#8 ∧ t.ir = 0#8 ∧ t.mar = 0#8 ∧ t.mdr = 0#8 ∧
    t.busA = 0#8 ∧ t.busB = 0#8 ∧ t.aluResult = 0#8 ∧ t.aluFlags = ⟨false, false, false, false⟩ ∧
    t.flags = ⟨false, false, false, false⟩ ∧ (∀ a, t.memRead a = 0#8) ∧ t.microProgram = [] ∧ t.currentStep = 0 ∧
    t.runState = .idle ∧ t.trace = [] ∧ t.presetName = none ∧ t.timerActive = false

/-- Derived from R200, R216, R230 and the inputs of 93_implementation_defined.md treated by `refuse` (the spec's
readings D2, D10, D30, D34, D36, and log 18 and log 19): a step completes exactly when the request it takes is one the
model accepts. Two of its cases are the model's choices: `getResult()` and `getFlags()` complete in every state, before
any operation too, where R23 and U2 prefer a fault (log 2); and a step with no request waiting, which the model gives to
the timer, always completes (log 1). -/
def Obligations.StepCompletesExactlyOnAcceptedRequests : Prop :=
  ∀ s : State,
    (s.inputs = [] → ∃ t, step s = .next t) ∧
    (∀ r rest, s.inputs = r :: rest → ((∃ t, step s = .next t) ↔ r.accepted s.params = true))

/-! ### Encodings -/

/-- Decode and encode agree over all instructions: whatever has a binary form decodes back to itself, and every
well-formed instruction whose index fits has one (from R82, R83, R88). -/
def Obligations.DecodeOfEncode : Prop :=
  (∀ (i : Instr) (x : IssueWord), encode i = some x → decode x = .ok i) ∧
  (∀ i : Instr, i.HasWord → ∃ x, encode i = some x)

/-- The text form agrees with the variants, from R84, R85 and the spec's reading D24 (log 14): for every micro-operation
but UNKNOWN, with every index, a text parses to it exactly when it is its canonical text in whatever case its ASCII
letters are written; every other text is UNKNOWN. -/
def Obligations.ParseRecognisesExactlyCanonicalTexts : Prop :=
  ∀ (u : Uop) (t : Text), u ≠ .unknown → (parseUop t = u ↔ foldCase t = foldCase (canonicalText u))

/-- Derived from R88, R89 (a), the spec's reading D14: a word that decodes to a micro-operation other than UNKNOWN is
that micro-operation's word, so the 57 assigned words are told apart and every reserved one is UNKNOWN. -/
def Obligations.EveryOtherWordIsUnknown : Prop :=
  ∀ w : Byte, decodeUop w = .unknown ∨ encodeUop (decodeUop w) = some w

/-- Sanity, from the vectors of 95_test_vectors.md section 7: words written out bit by bit. -/
def Obligations.SpecWordsDecode : Prop :=
  decode (.alu 0b0111#4 0x80#8 0xFF#8) = .ok (.dec 0x80#8) ∧
  decode (.adder 0b11#2 0b00000101#8 0b10000000#8) = .ok (.adderSub .twosComplement 5 (-128)) ∧
  decode (.uop 0b01010111#8) = .ok (.aR 7) ∧ decode (.uop 0b01101010#8) = .ok (.bR 10) ∧
  decode (.uop 0b10100000#8) = .ok (.rAlu 0) ∧ decode (.uop 0b11000000#8) = .ok .memMdr ∧
  decode (.uop 0b10110001#8) = .ok .unknown ∧ decode (.uop 0b11010101#8) = .ok .unknown
end

