-- ==== Sys2Proof/Laws/Bits.lean ====
section
/-!
SUPPORT. What the conversions and the ripple-carry primitive compute, as numbers (R10, R140 to R143), and the round trip
of decimal numerals.
-/
namespace Sys2Proof.Machine

/-! ### Bit-strings and Bytes -/

/-- A bit-string is the eight characters at its string indices. -/
theorem bitString_eq (s : BitString) :
    s = #v[bitAt s 0, bitAt s 1, bitAt s 2, bitAt s 3, bitAt s 4, bitAt s 5, bitAt s 6, bitAt s 7] := by
  obtain ⟨⟨l⟩, h⟩ := s
  match l, h with
  | [b0, b1, b2, b3, b4, b5, b6, b7], _ => rfl

/-- `val(s)`: string index 0 has weight 128, string index 7 weight 1 (R10). -/
theorem bitsVal_eq (s : BitString) :
    bitsVal s = 128 * (bitAt s 0).toNat + 64 * (bitAt s 1).toNat + 32 * (bitAt s 2).toNat + 16 * (bitAt s 3).toNat
      + 8 * (bitAt s 4).toNat + 4 * (bitAt s 5).toNat + 2 * (bitAt s 6).toNat + (bitAt s 7).toNat := by
  obtain ⟨⟨l⟩, h⟩ := s
  match l, h with
  | [b0, b1, b2, b3, b4, b5, b6, b7], _ => simp [bitsVal, natOfBits, bitAt]; omega

theorem bitsVal_lt (s : BitString) : bitsVal s < 256 := by
  have h (b : Bool) : b.toNat ≤ 1 := by cases b <;> simp
  rw [bitsVal_eq]
  have := h (bitAt s 0); have := h (bitAt s 1); have := h (bitAt s 2); have := h (bitAt s 3)
  have := h (bitAt s 4); have := h (bitAt s 5); have := h (bitAt s 6); have := h (bitAt s 7)
  omega

@[simp] theorem bitsVal_str8 (v : Byte) : bitsVal (str8 v) = v.toNat := by
  revert v; decide

@[simp] theorem bitsByte_str8 (v : Byte) : bitsByte (str8 v) = v := by
  simp [bitsByte]

@[simp] theorem bitsByte_toNat (s : BitString) : (bitsByte s).toNat = bitsVal s := by
  simp only [bitsByte, BitVec.toNat_ofNat]
  exact Nat.mod_eq_of_lt (bitsVal_lt s)

@[simp] theorem str8_bitsByte (s : BitString) : str8 (bitsByte s) = s := by
  have h : ∀ b0 b1 b2 b3 b4 b5 b6 b7 : Bool,
      str8 (bitsByte #v[b0, b1, b2, b3, b4, b5, b6, b7]) = #v[b0, b1, b2, b3, b4, b5, b6, b7] := by decide
  rw [bitString_eq s]; exact h _ _ _ _ _ _ _ _

/-- Bit-strings of equal value are equal. -/
theorem bitsVal_inj {s t : BitString} (h : bitsVal s = bitsVal t) : s = t := by
  rw [← str8_bitsByte s, ← str8_bitsByte t, bitsByte, bitsByte, h]

/-- The most significant character is 1 exactly from 128 on. -/
theorem bitAt_zero_iff (s : BitString) : bitAt s 0 = true ↔ 128 ≤ bitsVal s := by
  have h (b : Bool) : b.toNat ≤ 1 := by cases b <;> simp
  rw [bitsVal_eq]
  have := h (bitAt s 1); have := h (bitAt s 2); have := h (bitAt s 3)
  have := h (bitAt s 4); have := h (bitAt s 5); have := h (bitAt s 6); have := h (bitAt s 7)
  cases hb : bitAt s 0 <;> simp <;> omega

/-- The character at a string index of a bit-string made from a list is the list's entry there (R10). -/
theorem bitAt_bitStringOf (l : List Bool) (k : Nat) (h : k < 8) : bitAt (bitStringOf l) k = l.getD k false := by
  interval_cases k <;> rfl

/-! ### The ripple-carry primitive -/

/-- The number of a list of bits, least significant first. -/
def lsbVal (l : List Bool) : Nat := l.foldr (fun b acc => b.toNat + 2 * acc) 0

@[simp] theorem rippleSteps_length (ps : List (Nat × Bool × Bool)) (c : Bool) :
    (rippleSteps ps c).length = ps.length := by
  induction ps generalizing c with
  | nil => rfl
  | cons p rest ih => obtain ⟨k, a, b⟩ := p; simp [rippleSteps, ih]

theorem fullAdd_value (k : Nat) (a b c : Bool) :
    (fullAdd k a b c).sum.toNat + 2 * (fullAdd k a b c).cOut.toNat = a.toNat + b.toNat + c.toNat := by
  cases a <;> cases b <;> cases c <;> rfl

/-- A ripple-carry pass adds: sum bits and final carry together write the sum of the operands and the carry in. -/
theorem rippleSteps_value (ps : List (Nat × Bool × Bool)) (c : Bool) :
    lsbVal ((rippleSteps ps c).map AdderStep.sum)
        + 2 ^ ps.length * (((rippleSteps ps c).map AdderStep.cOut).getLastD c).toNat
      = lsbVal (ps.map fun p => p.2.1) + lsbVal (ps.map fun p => p.2.2) + c.toNat := by
  induction ps generalizing c with
  | nil => simp [rippleSteps, lsbVal]
  | cons p rest ih =>
    obtain ⟨k, a, b⟩ := p
    have hv := fullAdd_value k a b c
    have hi := ih (fullAdd k a b c).cOut
    simp only [rippleSteps, List.map_cons, List.getLastD_cons, List.length_cons, pow_succ, lsbVal, List.foldr_cons]
      at hi ⊢
    generalize (List.map AdderStep.cOut (rippleSteps rest (fullAdd k a b c).cOut)).getLastD
      (fullAdd k a b c).cOut = z at hi ⊢
    have : 2 ^ rest.length * 2 * z.toNat = 2 * (2 ^ rest.length * z.toNat) := by ring
    rw [this]
    omega

@[simp] theorem addBinary_steps_length (x y : BitString) : (addBinary x y).steps.length = 8 := by
  simp [addBinary, ripplePositions]

/-- `addBinary` as numbers: the sum of the operands, its ninth bit apart (R142). -/
theorem addBinary_value (x y : BitString) :
    bitsVal (addBinary x y).bits + 256 * (addBinary x y).carry.toNat = bitsVal x + bitsVal y := by
  have h := rippleSteps_value (ripplePositions x y) false
  have hl : ((rippleSteps (ripplePositions x y) false).map AdderStep.sum).length = 8 := by simp [ripplePositions]
  simp only [addBinary]
  generalize (rippleSteps (ripplePositions x y) false).map AdderStep.sum = l at h hl ⊢
  match l, hl with
  | [r7, r6, r5, r4, r3, r2, r1, r0], _ =>
    simp (disch := decide) only [bitsVal_eq, bitAt_bitStringOf]
    simp only [ripplePositions, List.map_cons, List.map_nil, lsbVal, List.foldr_cons, List.foldr_nil,
      List.length_cons, List.length_nil, Bool.toNat_false] at h
    simp only [ripplePositions, List.map_cons, List.map_nil, List.reverse_cons, List.reverse_nil, List.nil_append,
      List.cons_append, List.getD_cons_zero, List.getD_cons_succ]
    omega

theorem addBinary_bitsVal (x y : BitString) : bitsVal (addBinary x y).bits = (bitsVal x + bitsVal y) % 256 := by
  have := addBinary_value x y
  have := bitsVal_lt (addBinary x y).bits
  cases h : (addBinary x y).carry <;> simp [h] at * <;> omega

theorem addBinary_carry (x y : BitString) : (addBinary x y).carry = decide (256 ≤ bitsVal x + bitsVal y) := by
  have := addBinary_value x y
  have := bitsVal_lt (addBinary x y).bits
  cases h : (addBinary x y).carry <;> simp [h] at * <;> omega

@[simp] theorem bitsVal_oneBits : bitsVal oneBits = 1 := by decide

theorem bitsVal_invertBits (s : BitString) : bitsVal (invertBits s) = 255 - bitsVal s := by
  have h : ∀ b0 b1 b2 b3 b4 b5 b6 b7 : Bool, bitsVal (invertBits #v[b0, b1, b2, b3, b4, b5, b6, b7])
      = 255 - bitsVal #v[b0, b1, b2, b3, b4, b5, b6, b7] := by decide
  rw [bitString_eq s]; exact h _ _ _ _ _ _ _ _

/-- `twosComplement` as numbers (R143). -/
theorem twosComplement_bitsVal (s : BitString) : bitsVal (twosComplement s) = (256 - bitsVal s) % 256 := by
  have := bitsVal_lt s
  rw [twosComplement, addBinary_bitsVal, bitsVal_invertBits, bitsVal_oneBits]
  congr 1; omega

/-! ### Encode and decode -/

theorem inLegalRange_unsigned (v : Int) : inLegalRange .unsigned v = true ↔ 0 ≤ v ∧ v ≤ 255 := by
  simp [inLegalRange]

theorem inLegalRange_twosComplement (v : Int) : inLegalRange .twosComplement v = true ↔ -128 ≤ v ∧ v ≤ 127 := by
  simp [inLegalRange]

theorem ofInt_toNat {v : Int} (h : 0 ≤ v) (h' : v ≤ 255) : ((BitVec.ofInt 8 v).toNat : Int) = v := by
  rw [BitVec.toNat_ofInt]; omega

theorem toBinary_val_unsigned {v : Int} (h : 0 ≤ v) (h' : v ≤ 255) :
    (bitsVal (toBinary v .unsigned) : Int) = v := by
  rw [toBinary, bitsVal_str8, ofInt_toNat h h']

theorem toBinary_val_twos {v : Int} (h : -128 ≤ v) (h' : v ≤ 127) :
    (bitsVal (toBinary v .twosComplement) : Int) = if 0 ≤ v then v else 256 + v := by
  rw [toBinary]
  split_ifs with hv <;> rw [bitsVal_str8, ofInt_toNat] <;> omega

theorem fromBinary_inRange (s : BitString) (m : AdderMode) : inLegalRange m (fromBinary s m) = true := by
  have := bitsVal_lt s
  cases m
  · rw [inLegalRange_unsigned]; simp only [fromBinary]; omega
  · rw [inLegalRange_twosComplement]; simp only [fromBinary]; split_ifs <;> omega

/-! ### Decimal numerals -/

/-- The number a list of digits writes, least significant first. -/
def digitsVal (l : List Nat) : Nat := l.foldr (fun d acc => d + 10 * acc) 0

theorem digitsRev_spec (fuel n : Nat) (h : n < fuel) :
    digitsVal (digitsRev fuel n) = n ∧ (∀ d ∈ digitsRev fuel n, d < 10) ∧ digitsRev fuel n ≠ []
      ∧ ((digitsRev fuel n).length = 1 ∨ (digitsRev fuel n).getLast? ≠ some 0) := by
  induction fuel generalizing n with
  | zero => omega
  | succ fuel ih =>
    by_cases hn : n < 10
    · simp [digitsRev, hn, digitsVal]
    · obtain ⟨hv, hd, hne, hl⟩ := ih (n / 10) (by omega)
      have hval : digitsVal (digitsRev (fuel + 1) n) = n := by
        simp only [digitsRev, hn, if_false, digitsVal, List.foldr_cons]
        rw [show List.foldr (fun d acc => d + 10 * acc) 0 (digitsRev fuel (n / 10)) = n / 10 from hv]
        omega
      refine ⟨hval, ?_, by simp [digitsRev, hn], .inr ?_⟩
      · intro d hd'
        simp only [digitsRev, hn, if_false, List.mem_cons] at hd'
        rcases hd' with rfl | hd'
        · omega
        · exact hd d hd'
      · obtain ⟨x, xs, hx⟩ := List.exists_cons_of_ne_nil hne
        simp only [digitsRev, hn, if_false, hx, List.getLast?_cons_cons]
        rcases hl with hl | hl
        · have : xs = [] := by simpa [hx] using hl
          subst this
          simp only [hx, digitsVal, List.foldr_cons, List.foldr_nil] at hv
          simp only [List.getLast?_singleton, ne_eq, Option.some.injEq]
          omega
        · rwa [hx] at hl

theorem digitChar_toNat {d : Nat} (h : d < 10) : (digitChar d).toNat = 48 + d := by
  interval_cases d <;> rfl

theorem digitChar_isDigit {d : Nat} (h : d < 10) : isDigit (digitChar d) = true := by
  simp [isDigit, digitChar_toNat h]; omega

theorem foldl_digitChar (l : List Nat) (h : ∀ d ∈ l, d < 10) (acc : Nat) :
    (l.map digitChar).foldl (fun acc c => 10 * acc + (c.toNat - 48)) acc
      = l.foldl (fun acc d => 10 * acc + d) acc := by
  induction l generalizing acc with
  | nil => rfl
  | cons d rest ih =>
    simp only [List.map_cons, List.foldl_cons, digitChar_toNat (h d (by simp)), Nat.add_sub_cancel_left]
    exact ih (fun e he => h e (by simp [he])) _

/-- A decimal numeral reads as the number it was written from. -/
theorem parseDecimal_decimal (n : Nat) : parseDecimal (decimal n) = some n := by
  obtain ⟨hv, hd, hne, hl⟩ := digitsRev_spec (n + 1) n (by omega)
  have hall : (decimal n).all isDigit = true := by
    simp only [decimal, List.all_eq_true, List.mem_map, List.mem_reverse]
    rintro c ⟨d, hd', rfl⟩; exact digitChar_isDigit (hd d hd')
  have hlead : (decimal n).length = 1 ∨ (decimal n).head? ≠ some '0' := by
    rcases hl with hl | hl
    · exact .inl (by simpa [decimal] using hl)
    · refine .inr fun h => hl ?_
      simp only [decimal, List.head?_map, List.head?_reverse, Option.map_eq_some_iff] at h
      obtain ⟨d, hd', he⟩ := h
      have hlt := hd d (List.mem_of_getLast? hd')
      have : (digitChar d).toNat = 48 := by rw [he]; rfl
      rw [digitChar_toNat hlt] at this
      rw [hd', show d = 0 by omega]
  have hfold : (decimal n).foldl (fun acc c => 10 * acc + (c.toNat - 48)) 0 = n := by
    rw [decimal, foldl_digitChar _ (fun d h => hd d (List.mem_reverse.mp h)), List.foldl_reverse]
    have : ∀ l : List Nat, List.foldr (fun x y => 10 * y + x) 0 l = digitsVal l := by
      intro l; induction l with
      | nil => rfl
      | cons d rest ih => rw [List.foldr_cons, ih]; simp only [digitsVal, List.foldr_cons]; omega
    rw [this, hv]
  have hnn : decimal n ≠ [] := fun h => hne (by simpa [decimal] using h)
  rw [parseDecimal, if_pos ⟨hnn, hall, hlead⟩, hfold]

end Sys2Proof.Machine
end

