-- ==== Sys2Proof/Laws/State.lean ====
section
/-!
SUPPORT. One lemma per field per named update of State, each true by rfl, so that no proof unfolds a record update.
-/
namespace Sys2Proof.Machine

/-! ### State.latchAlu -/

@[simp] theorem State.latchAlu_params (s : State) (y : Byte) (f : FlagSet) : (s.latchAlu y f).params = s.params := rfl
@[simp] theorem State.latchAlu_alu (s : State) (y : Byte) (f : FlagSet) : (s.latchAlu y f).alu = ⟨y, f⟩ := rfl
@[simp] theorem State.latchAlu_adderMode (s : State) (y : Byte) (f : FlagSet) : (s.latchAlu y f).adderMode = s.adderMode := rfl
@[simp] theorem State.latchAlu_regs (s : State) (y : Byte) (f : FlagSet) : (s.latchAlu y f).regs = s.regs := rfl
@[simp] theorem State.latchAlu_pc (s : State) (y : Byte) (f : FlagSet) : (s.latchAlu y f).pc = s.pc := rfl
@[simp] theorem State.latchAlu_ir (s : State) (y : Byte) (f : FlagSet) : (s.latchAlu y f).ir = s.ir := rfl
@[simp] theorem State.latchAlu_mar (s : State) (y : Byte) (f : FlagSet) : (s.latchAlu y f).mar = s.mar := rfl
@[simp] theorem State.latchAlu_mdr (s : State) (y : Byte) (f : FlagSet) : (s.latchAlu y f).mdr = s.mdr := rfl
@[simp] theorem State.latchAlu_busA (s : State) (y : Byte) (f : FlagSet) : (s.latchAlu y f).busA = s.busA := rfl
@[simp] theorem State.latchAlu_busB (s : State) (y : Byte) (f : FlagSet) : (s.latchAlu y f).busB = s.busB := rfl
@[simp] theorem State.latchAlu_aluResult (s : State) (y : Byte) (f : FlagSet) : (s.latchAlu y f).aluResult = s.aluResult := rfl
@[simp] theorem State.latchAlu_aluFlags (s : State) (y : Byte) (f : FlagSet) : (s.latchAlu y f).aluFlags = s.aluFlags := rfl
@[simp] theorem State.latchAlu_flags (s : State) (y : Byte) (f : FlagSet) : (s.latchAlu y f).flags = s.flags := rfl
@[simp] theorem State.latchAlu_mem (s : State) (y : Byte) (f : FlagSet) : (s.latchAlu y f).mem = s.mem := rfl
@[simp] theorem State.latchAlu_microProgram (s : State) (y : Byte) (f : FlagSet) : (s.latchAlu y f).microProgram = s.microProgram := rfl
@[simp] theorem State.latchAlu_currentStep (s : State) (y : Byte) (f : FlagSet) : (s.latchAlu y f).currentStep = s.currentStep := rfl
@[simp] theorem State.latchAlu_runState (s : State) (y : Byte) (f : FlagSet) : (s.latchAlu y f).runState = s.runState := rfl
@[simp] theorem State.latchAlu_timerActive (s : State) (y : Byte) (f : FlagSet) : (s.latchAlu y f).timerActive = s.timerActive := rfl
@[simp] theorem State.latchAlu_trace (s : State) (y : Byte) (f : FlagSet) : (s.latchAlu y f).trace = s.trace := rfl
@[simp] theorem State.latchAlu_presetName (s : State) (y : Byte) (f : FlagSet) : (s.latchAlu y f).presetName = s.presetName := rfl
@[simp] theorem State.latchAlu_inputs (s : State) (y : Byte) (f : FlagSet) : (s.latchAlu y f).inputs = s.inputs := rfl
@[simp] theorem State.latchAlu_output (s : State) (y : Byte) (f : FlagSet) : (s.latchAlu y f).output = .byte y := rfl
@[simp] theorem State.latchAlu_freeIndex (s : State) (y : Byte) (f : FlagSet) : (s.latchAlu y f).freeIndex = s.freeIndex := rfl

/-! ### State.setUopResult -/

@[simp] theorem State.setUopResult_params (s : State) (y : Byte) (f : FlagSet) : (s.setUopResult y f).params = s.params := rfl
@[simp] theorem State.setUopResult_alu (s : State) (y : Byte) (f : FlagSet) : (s.setUopResult y f).alu = s.alu := rfl
@[simp] theorem State.setUopResult_adderMode (s : State) (y : Byte) (f : FlagSet) : (s.setUopResult y f).adderMode = s.adderMode := rfl
@[simp] theorem State.setUopResult_regs (s : State) (y : Byte) (f : FlagSet) : (s.setUopResult y f).regs = s.regs := rfl
@[simp] theorem State.setUopResult_pc (s : State) (y : Byte) (f : FlagSet) : (s.setUopResult y f).pc = s.pc := rfl
@[simp] theorem State.setUopResult_ir (s : State) (y : Byte) (f : FlagSet) : (s.setUopResult y f).ir = s.ir := rfl
@[simp] theorem State.setUopResult_mar (s : State) (y : Byte) (f : FlagSet) : (s.setUopResult y f).mar = s.mar := rfl
@[simp] theorem State.setUopResult_mdr (s : State) (y : Byte) (f : FlagSet) : (s.setUopResult y f).mdr = s.mdr := rfl
@[simp] theorem State.setUopResult_busA (s : State) (y : Byte) (f : FlagSet) : (s.setUopResult y f).busA = s.busA := rfl
@[simp] theorem State.setUopResult_busB (s : State) (y : Byte) (f : FlagSet) : (s.setUopResult y f).busB = s.busB := rfl
@[simp] theorem State.setUopResult_aluResult (s : State) (y : Byte) (f : FlagSet) : (s.setUopResult y f).aluResult = y := rfl
@[simp] theorem State.setUopResult_aluFlags (s : State) (y : Byte) (f : FlagSet) : (s.setUopResult y f).aluFlags = f := rfl
@[simp] theorem State.setUopResult_flags (s : State) (y : Byte) (f : FlagSet) : (s.setUopResult y f).flags = s.flags := rfl
@[simp] theorem State.setUopResult_mem (s : State) (y : Byte) (f : FlagSet) : (s.setUopResult y f).mem = s.mem := rfl
@[simp] theorem State.setUopResult_microProgram (s : State) (y : Byte) (f : FlagSet) : (s.setUopResult y f).microProgram = s.microProgram := rfl
@[simp] theorem State.setUopResult_currentStep (s : State) (y : Byte) (f : FlagSet) : (s.setUopResult y f).currentStep = s.currentStep := rfl
@[simp] theorem State.setUopResult_runState (s : State) (y : Byte) (f : FlagSet) : (s.setUopResult y f).runState = s.runState := rfl
@[simp] theorem State.setUopResult_timerActive (s : State) (y : Byte) (f : FlagSet) : (s.setUopResult y f).timerActive = s.timerActive := rfl
@[simp] theorem State.setUopResult_trace (s : State) (y : Byte) (f : FlagSet) : (s.setUopResult y f).trace = s.trace := rfl
@[simp] theorem State.setUopResult_presetName (s : State) (y : Byte) (f : FlagSet) : (s.setUopResult y f).presetName = s.presetName := rfl
@[simp] theorem State.setUopResult_inputs (s : State) (y : Byte) (f : FlagSet) : (s.setUopResult y f).inputs = s.inputs := rfl
@[simp] theorem State.setUopResult_output (s : State) (y : Byte) (f : FlagSet) : (s.setUopResult y f).output = s.output := rfl
@[simp] theorem State.setUopResult_freeIndex (s : State) (y : Byte) (f : FlagSet) : (s.setUopResult y f).freeIndex = s.freeIndex := rfl

/-! ### State.deliverCalculation -/

@[simp] theorem State.deliverCalculation_params (s : State) (m : AdderMode) (r : Calculation) : (s.deliverCalculation m r).params = s.params := rfl
@[simp] theorem State.deliverCalculation_alu (s : State) (m : AdderMode) (r : Calculation) : (s.deliverCalculation m r).alu = s.alu := rfl
@[simp] theorem State.deliverCalculation_adderMode (s : State) (m : AdderMode) (r : Calculation) : (s.deliverCalculation m r).adderMode = m := rfl
@[simp] theorem State.deliverCalculation_regs (s : State) (m : AdderMode) (r : Calculation) : (s.deliverCalculation m r).regs = s.regs := rfl
@[simp] theorem State.deliverCalculation_pc (s : State) (m : AdderMode) (r : Calculation) : (s.deliverCalculation m r).pc = s.pc := rfl
@[simp] theorem State.deliverCalculation_ir (s : State) (m : AdderMode) (r : Calculation) : (s.deliverCalculation m r).ir = s.ir := rfl
@[simp] theorem State.deliverCalculation_mar (s : State) (m : AdderMode) (r : Calculation) : (s.deliverCalculation m r).mar = s.mar := rfl
@[simp] theorem State.deliverCalculation_mdr (s : State) (m : AdderMode) (r : Calculation) : (s.deliverCalculation m r).mdr = s.mdr := rfl
@[simp] theorem State.deliverCalculation_busA (s : State) (m : AdderMode) (r : Calculation) : (s.deliverCalculation m r).busA = s.busA := rfl
@[simp] theorem State.deliverCalculation_busB (s : State) (m : AdderMode) (r : Calculation) : (s.deliverCalculation m r).busB = s.busB := rfl
@[simp] theorem State.deliverCalculation_aluResult (s : State) (m : AdderMode) (r : Calculation) : (s.deliverCalculation m r).aluResult = s.aluResult := rfl
@[simp] theorem State.deliverCalculation_aluFlags (s : State) (m : AdderMode) (r : Calculation) : (s.deliverCalculation m r).aluFlags = s.aluFlags := rfl
@[simp] theorem State.deliverCalculation_flags (s : State) (m : AdderMode) (r : Calculation) : (s.deliverCalculation m r).flags = s.flags := rfl
@[simp] theorem State.deliverCalculation_mem (s : State) (m : AdderMode) (r : Calculation) : (s.deliverCalculation m r).mem = s.mem := rfl
@[simp] theorem State.deliverCalculation_microProgram (s : State) (m : AdderMode) (r : Calculation) : (s.deliverCalculation m r).microProgram = s.microProgram := rfl
@[simp] theorem State.deliverCalculation_currentStep (s : State) (m : AdderMode) (r : Calculation) : (s.deliverCalculation m r).currentStep = s.currentStep := rfl
@[simp] theorem State.deliverCalculation_runState (s : State) (m : AdderMode) (r : Calculation) : (s.deliverCalculation m r).runState = s.runState := rfl
@[simp] theorem State.deliverCalculation_timerActive (s : State) (m : AdderMode) (r : Calculation) : (s.deliverCalculation m r).timerActive = s.timerActive := rfl
@[simp] theorem State.deliverCalculation_trace (s : State) (m : AdderMode) (r : Calculation) : (s.deliverCalculation m r).trace = s.trace := rfl
@[simp] theorem State.deliverCalculation_presetName (s : State) (m : AdderMode) (r : Calculation) : (s.deliverCalculation m r).presetName = s.presetName := rfl
@[simp] theorem State.deliverCalculation_inputs (s : State) (m : AdderMode) (r : Calculation) : (s.deliverCalculation m r).inputs = s.inputs := rfl
@[simp] theorem State.deliverCalculation_output (s : State) (m : AdderMode) (r : Calculation) : (s.deliverCalculation m r).output = .calculation r := rfl
@[simp] theorem State.deliverCalculation_freeIndex (s : State) (m : AdderMode) (r : Calculation) : (s.deliverCalculation m r).freeIndex = s.freeIndex := rfl

/-! ### State.writeReg -/

@[simp] theorem State.writeReg_params (s : State) (n : Nat) (v : Byte) : (s.writeReg n v).params = s.params := rfl
@[simp] theorem State.writeReg_alu (s : State) (n : Nat) (v : Byte) : (s.writeReg n v).alu = s.alu := rfl
@[simp] theorem State.writeReg_adderMode (s : State) (n : Nat) (v : Byte) : (s.writeReg n v).adderMode = s.adderMode := rfl
@[simp] theorem State.writeReg_regs (s : State) (n : Nat) (v : Byte) : (s.writeReg n v).regs = if n < s.params.nregs then s.regs.set n v else s.regs := rfl
@[simp] theorem State.writeReg_pc (s : State) (n : Nat) (v : Byte) : (s.writeReg n v).pc = s.pc := rfl
@[simp] theorem State.writeReg_ir (s : State) (n : Nat) (v : Byte) : (s.writeReg n v).ir = s.ir := rfl
@[simp] theorem State.writeReg_mar (s : State) (n : Nat) (v : Byte) : (s.writeReg n v).mar = s.mar := rfl
@[simp] theorem State.writeReg_mdr (s : State) (n : Nat) (v : Byte) : (s.writeReg n v).mdr = s.mdr := rfl
@[simp] theorem State.writeReg_busA (s : State) (n : Nat) (v : Byte) : (s.writeReg n v).busA = s.busA := rfl
@[simp] theorem State.writeReg_busB (s : State) (n : Nat) (v : Byte) : (s.writeReg n v).busB = s.busB := rfl
@[simp] theorem State.writeReg_aluResult (s : State) (n : Nat) (v : Byte) : (s.writeReg n v).aluResult = s.aluResult := rfl
@[simp] theorem State.writeReg_aluFlags (s : State) (n : Nat) (v : Byte) : (s.writeReg n v).aluFlags = s.aluFlags := rfl
@[simp] theorem State.writeReg_flags (s : State) (n : Nat) (v : Byte) : (s.writeReg n v).flags = s.flags := rfl
@[simp] theorem State.writeReg_mem (s : State) (n : Nat) (v : Byte) : (s.writeReg n v).mem = s.mem := rfl
@[simp] theorem State.writeReg_microProgram (s : State) (n : Nat) (v : Byte) : (s.writeReg n v).microProgram = s.microProgram := rfl
@[simp] theorem State.writeReg_currentStep (s : State) (n : Nat) (v : Byte) : (s.writeReg n v).currentStep = s.currentStep := rfl
@[simp] theorem State.writeReg_runState (s : State) (n : Nat) (v : Byte) : (s.writeReg n v).runState = s.runState := rfl
@[simp] theorem State.writeReg_timerActive (s : State) (n : Nat) (v : Byte) : (s.writeReg n v).timerActive = s.timerActive := rfl
@[simp] theorem State.writeReg_trace (s : State) (n : Nat) (v : Byte) : (s.writeReg n v).trace = s.trace := rfl
@[simp] theorem State.writeReg_presetName (s : State) (n : Nat) (v : Byte) : (s.writeReg n v).presetName = s.presetName := rfl
@[simp] theorem State.writeReg_inputs (s : State) (n : Nat) (v : Byte) : (s.writeReg n v).inputs = s.inputs := rfl
@[simp] theorem State.writeReg_output (s : State) (n : Nat) (v : Byte) : (s.writeReg n v).output = s.output := rfl
@[simp] theorem State.writeReg_freeIndex (s : State) (n : Nat) (v : Byte) : (s.writeReg n v).freeIndex = s.freeIndex := rfl

/-! ### State.memWrite -/

@[simp] theorem State.memWrite_params (s : State) (a : Nat) (v : Byte) : (s.memWrite a v).params = s.params := rfl
@[simp] theorem State.memWrite_alu (s : State) (a : Nat) (v : Byte) : (s.memWrite a v).alu = s.alu := rfl
@[simp] theorem State.memWrite_adderMode (s : State) (a : Nat) (v : Byte) : (s.memWrite a v).adderMode = s.adderMode := rfl
@[simp] theorem State.memWrite_regs (s : State) (a : Nat) (v : Byte) : (s.memWrite a v).regs = s.regs := rfl
@[simp] theorem State.memWrite_pc (s : State) (a : Nat) (v : Byte) : (s.memWrite a v).pc = s.pc := rfl
@[simp] theorem State.memWrite_ir (s : State) (a : Nat) (v : Byte) : (s.memWrite a v).ir = s.ir := rfl
@[simp] theorem State.memWrite_mar (s : State) (a : Nat) (v : Byte) : (s.memWrite a v).mar = s.mar := rfl
@[simp] theorem State.memWrite_mdr (s : State) (a : Nat) (v : Byte) : (s.memWrite a v).mdr = s.mdr := rfl
@[simp] theorem State.memWrite_busA (s : State) (a : Nat) (v : Byte) : (s.memWrite a v).busA = s.busA := rfl
@[simp] theorem State.memWrite_busB (s : State) (a : Nat) (v : Byte) : (s.memWrite a v).busB = s.busB := rfl
@[simp] theorem State.memWrite_aluResult (s : State) (a : Nat) (v : Byte) : (s.memWrite a v).aluResult = s.aluResult := rfl
@[simp] theorem State.memWrite_aluFlags (s : State) (a : Nat) (v : Byte) : (s.memWrite a v).aluFlags = s.aluFlags := rfl
@[simp] theorem State.memWrite_flags (s : State) (a : Nat) (v : Byte) : (s.memWrite a v).flags = s.flags := rfl
@[simp] theorem State.memWrite_mem (s : State) (a : Nat) (v : Byte) : (s.memWrite a v).mem = if a < s.params.memSize then Memory.write s.mem a v else s.mem := rfl
@[simp] theorem State.memWrite_microProgram (s : State) (a : Nat) (v : Byte) : (s.memWrite a v).microProgram = s.microProgram := rfl
@[simp] theorem State.memWrite_currentStep (s : State) (a : Nat) (v : Byte) : (s.memWrite a v).currentStep = s.currentStep := rfl
@[simp] theorem State.memWrite_runState (s : State) (a : Nat) (v : Byte) : (s.memWrite a v).runState = s.runState := rfl
@[simp] theorem State.memWrite_timerActive (s : State) (a : Nat) (v : Byte) : (s.memWrite a v).timerActive = s.timerActive := rfl
@[simp] theorem State.memWrite_trace (s : State) (a : Nat) (v : Byte) : (s.memWrite a v).trace = s.trace := rfl
@[simp] theorem State.memWrite_presetName (s : State) (a : Nat) (v : Byte) : (s.memWrite a v).presetName = s.presetName := rfl
@[simp] theorem State.memWrite_inputs (s : State) (a : Nat) (v : Byte) : (s.memWrite a v).inputs = s.inputs := rfl
@[simp] theorem State.memWrite_output (s : State) (a : Nat) (v : Byte) : (s.memWrite a v).output = s.output := rfl
@[simp] theorem State.memWrite_freeIndex (s : State) (a : Nat) (v : Byte) : (s.memWrite a v).freeIndex = s.freeIndex := rfl

/-! ### State.arm -/

@[simp] theorem State.arm_params (s : State) : (s.arm).params = s.params := rfl
@[simp] theorem State.arm_alu (s : State) : (s.arm).alu = s.alu := rfl
@[simp] theorem State.arm_adderMode (s : State) : (s.arm).adderMode = s.adderMode := rfl
@[simp] theorem State.arm_regs (s : State) : (s.arm).regs = s.regs := rfl
@[simp] theorem State.arm_pc (s : State) : (s.arm).pc = s.pc := rfl
@[simp] theorem State.arm_ir (s : State) : (s.arm).ir = s.ir := rfl
@[simp] theorem State.arm_mar (s : State) : (s.arm).mar = s.mar := rfl
@[simp] theorem State.arm_mdr (s : State) : (s.arm).mdr = s.mdr := rfl
@[simp] theorem State.arm_busA (s : State) : (s.arm).busA = s.busA := rfl
@[simp] theorem State.arm_busB (s : State) : (s.arm).busB = s.busB := rfl
@[simp] theorem State.arm_aluResult (s : State) : (s.arm).aluResult = s.aluResult := rfl
@[simp] theorem State.arm_aluFlags (s : State) : (s.arm).aluFlags = s.aluFlags := rfl
@[simp] theorem State.arm_flags (s : State) : (s.arm).flags = s.flags := rfl
@[simp] theorem State.arm_mem (s : State) : (s.arm).mem = s.mem := rfl
@[simp] theorem State.arm_microProgram (s : State) : (s.arm).microProgram = s.microProgram := rfl
@[simp] theorem State.arm_currentStep (s : State) : (s.arm).currentStep = s.currentStep := rfl
@[simp] theorem State.arm_runState (s : State) : (s.arm).runState = .running := rfl
@[simp] theorem State.arm_timerActive (s : State) : (s.arm).timerActive = true := rfl
@[simp] theorem State.arm_trace (s : State) : (s.arm).trace = s.trace := rfl
@[simp] theorem State.arm_presetName (s : State) : (s.arm).presetName = s.presetName := rfl
@[simp] theorem State.arm_inputs (s : State) : (s.arm).inputs = s.inputs := rfl
@[simp] theorem State.arm_output (s : State) : (s.arm).output = s.output := rfl
@[simp] theorem State.arm_freeIndex (s : State) : (s.arm).freeIndex = s.freeIndex := rfl

/-! ### State.disarm -/

@[simp] theorem State.disarm_params (s : State) : (s.disarm).params = s.params := rfl
@[simp] theorem State.disarm_alu (s : State) : (s.disarm).alu = s.alu := rfl
@[simp] theorem State.disarm_adderMode (s : State) : (s.disarm).adderMode = s.adderMode := rfl
@[simp] theorem State.disarm_regs (s : State) : (s.disarm).regs = s.regs := rfl
@[simp] theorem State.disarm_pc (s : State) : (s.disarm).pc = s.pc := rfl
@[simp] theorem State.disarm_ir (s : State) : (s.disarm).ir = s.ir := rfl
@[simp] theorem State.disarm_mar (s : State) : (s.disarm).mar = s.mar := rfl
@[simp] theorem State.disarm_mdr (s : State) : (s.disarm).mdr = s.mdr := rfl
@[simp] theorem State.disarm_busA (s : State) : (s.disarm).busA = s.busA := rfl
@[simp] theorem State.disarm_busB (s : State) : (s.disarm).busB = s.busB := rfl
@[simp] theorem State.disarm_aluResult (s : State) : (s.disarm).aluResult = s.aluResult := rfl
@[simp] theorem State.disarm_aluFlags (s : State) : (s.disarm).aluFlags = s.aluFlags := rfl
@[simp] theorem State.disarm_flags (s : State) : (s.disarm).flags = s.flags := rfl
@[simp] theorem State.disarm_mem (s : State) : (s.disarm).mem = s.mem := rfl
@[simp] theorem State.disarm_microProgram (s : State) : (s.disarm).microProgram = s.microProgram := rfl
@[simp] theorem State.disarm_currentStep (s : State) : (s.disarm).currentStep = s.currentStep := rfl
@[simp] theorem State.disarm_runState (s : State) : (s.disarm).runState = .paused := rfl
@[simp] theorem State.disarm_timerActive (s : State) : (s.disarm).timerActive = false := rfl
@[simp] theorem State.disarm_trace (s : State) : (s.disarm).trace = s.trace := rfl
@[simp] theorem State.disarm_presetName (s : State) : (s.disarm).presetName = s.presetName := rfl
@[simp] theorem State.disarm_inputs (s : State) : (s.disarm).inputs = s.inputs := rfl
@[simp] theorem State.disarm_output (s : State) : (s.disarm).output = s.output := rfl
@[simp] theorem State.disarm_freeIndex (s : State) : (s.disarm).freeIndex = s.freeIndex := rfl

/-! ### State.loadProgram -/

@[simp] theorem State.loadProgram_params (s : State) (program : List Statement) (name : Option Text) : (s.loadProgram program name).params = s.params := rfl
@[simp] theorem State.loadProgram_alu (s : State) (program : List Statement) (name : Option Text) : (s.loadProgram program name).alu = s.alu := rfl
@[simp] theorem State.loadProgram_adderMode (s : State) (program : List Statement) (name : Option Text) : (s.loadProgram program name).adderMode = s.adderMode := rfl
@[simp] theorem State.loadProgram_regs (s : State) (program : List Statement) (name : Option Text) : (s.loadProgram program name).regs = s.regs := rfl
@[simp] theorem State.loadProgram_pc (s : State) (program : List Statement) (name : Option Text) : (s.loadProgram program name).pc = s.pc := rfl
@[simp] theorem State.loadProgram_ir (s : State) (program : List Statement) (name : Option Text) : (s.loadProgram program name).ir = s.ir := rfl
@[simp] theorem State.loadProgram_mar (s : State) (program : List Statement) (name : Option Text) : (s.loadProgram program name).mar = s.mar := rfl
@[simp] theorem State.loadProgram_mdr (s : State) (program : List Statement) (name : Option Text) : (s.loadProgram program name).mdr = s.mdr := rfl
@[simp] theorem State.loadProgram_busA (s : State) (program : List Statement) (name : Option Text) : (s.loadProgram program name).busA = s.busA := rfl
@[simp] theorem State.loadProgram_busB (s : State) (program : List Statement) (name : Option Text) : (s.loadProgram program name).busB = s.busB := rfl
@[simp] theorem State.loadProgram_aluResult (s : State) (program : List Statement) (name : Option Text) : (s.loadProgram program name).aluResult = s.aluResult := rfl
@[simp] theorem State.loadProgram_aluFlags (s : State) (program : List Statement) (name : Option Text) : (s.loadProgram program name).aluFlags = s.aluFlags := rfl
@[simp] theorem State.loadProgram_flags (s : State) (program : List Statement) (name : Option Text) : (s.loadProgram program name).flags = s.flags := rfl
@[simp] theorem State.loadProgram_mem (s : State) (program : List Statement) (name : Option Text) : (s.loadProgram program name).mem = s.mem := rfl
@[simp] theorem State.loadProgram_microProgram (s : State) (program : List Statement) (name : Option Text) : (s.loadProgram program name).microProgram = program := rfl
@[simp] theorem State.loadProgram_currentStep (s : State) (program : List Statement) (name : Option Text) : (s.loadProgram program name).currentStep = 0 := rfl
@[simp] theorem State.loadProgram_runState (s : State) (program : List Statement) (name : Option Text) : (s.loadProgram program name).runState = .idle := rfl
@[simp] theorem State.loadProgram_timerActive (s : State) (program : List Statement) (name : Option Text) : (s.loadProgram program name).timerActive = false := rfl
@[simp] theorem State.loadProgram_trace (s : State) (program : List Statement) (name : Option Text) : (s.loadProgram program name).trace = [] := rfl
@[simp] theorem State.loadProgram_presetName (s : State) (program : List Statement) (name : Option Text) : (s.loadProgram program name).presetName = name := rfl
@[simp] theorem State.loadProgram_inputs (s : State) (program : List Statement) (name : Option Text) : (s.loadProgram program name).inputs = s.inputs := rfl
@[simp] theorem State.loadProgram_output (s : State) (program : List Statement) (name : Option Text) : (s.loadProgram program name).output = s.output := rfl
@[simp] theorem State.loadProgram_freeIndex (s : State) (program : List Statement) (name : Option Text) : (s.loadProgram program name).freeIndex = s.freeIndex := rfl

/-! ### State.wrap -/

@[simp] theorem State.wrap_params (s : State) : (s.wrap).params = s.params := rfl
@[simp] theorem State.wrap_alu (s : State) : (s.wrap).alu = s.alu := rfl
@[simp] theorem State.wrap_adderMode (s : State) : (s.wrap).adderMode = s.adderMode := rfl
@[simp] theorem State.wrap_regs (s : State) : (s.wrap).regs = s.regs := rfl
@[simp] theorem State.wrap_pc (s : State) : (s.wrap).pc = s.pc := rfl
@[simp] theorem State.wrap_ir (s : State) : (s.wrap).ir = s.ir := rfl
@[simp] theorem State.wrap_mar (s : State) : (s.wrap).mar = s.mar := rfl
@[simp] theorem State.wrap_mdr (s : State) : (s.wrap).mdr = s.mdr := rfl
@[simp] theorem State.wrap_busA (s : State) : (s.wrap).busA = s.busA := rfl
@[simp] theorem State.wrap_busB (s : State) : (s.wrap).busB = s.busB := rfl
@[simp] theorem State.wrap_aluResult (s : State) : (s.wrap).aluResult = s.aluResult := rfl
@[simp] theorem State.wrap_aluFlags (s : State) : (s.wrap).aluFlags = s.aluFlags := rfl
@[simp] theorem State.wrap_flags (s : State) : (s.wrap).flags = s.flags := rfl
@[simp] theorem State.wrap_mem (s : State) : (s.wrap).mem = s.mem := rfl
@[simp] theorem State.wrap_microProgram (s : State) : (s.wrap).microProgram = s.microProgram := rfl
@[simp] theorem State.wrap_currentStep (s : State) : (s.wrap).currentStep = 0 := rfl
@[simp] theorem State.wrap_runState (s : State) : (s.wrap).runState = s.runState := rfl
@[simp] theorem State.wrap_timerActive (s : State) : (s.wrap).timerActive = s.timerActive := rfl
@[simp] theorem State.wrap_trace (s : State) : (s.wrap).trace = s.trace := rfl
@[simp] theorem State.wrap_presetName (s : State) : (s.wrap).presetName = s.presetName := rfl
@[simp] theorem State.wrap_inputs (s : State) : (s.wrap).inputs = s.inputs := rfl
@[simp] theorem State.wrap_output (s : State) : (s.wrap).output = s.output := rfl
@[simp] theorem State.wrap_freeIndex (s : State) : (s.wrap).freeIndex = s.freeIndex := rfl

/-! ### State.retire -/

@[simp] theorem State.retire_params (s : State) (stmt : Statement) : (s.retire stmt).params = s.params := rfl
@[simp] theorem State.retire_alu (s : State) (stmt : Statement) : (s.retire stmt).alu = s.alu := rfl
@[simp] theorem State.retire_adderMode (s : State) (stmt : Statement) : (s.retire stmt).adderMode = s.adderMode := rfl
@[simp] theorem State.retire_regs (s : State) (stmt : Statement) : (s.retire stmt).regs = s.regs := rfl
@[simp] theorem State.retire_pc (s : State) (stmt : Statement) : (s.retire stmt).pc = s.pc := rfl
@[simp] theorem State.retire_ir (s : State) (stmt : Statement) : (s.retire stmt).ir = s.ir := rfl
@[simp] theorem State.retire_mar (s : State) (stmt : Statement) : (s.retire stmt).mar = s.mar := rfl
@[simp] theorem State.retire_mdr (s : State) (stmt : Statement) : (s.retire stmt).mdr = s.mdr := rfl
@[simp] theorem State.retire_busA (s : State) (stmt : Statement) : (s.retire stmt).busA = s.busA := rfl
@[simp] theorem State.retire_busB (s : State) (stmt : Statement) : (s.retire stmt).busB = s.busB := rfl
@[simp] theorem State.retire_aluResult (s : State) (stmt : Statement) : (s.retire stmt).aluResult = s.aluResult := rfl
@[simp] theorem State.retire_aluFlags (s : State) (stmt : Statement) : (s.retire stmt).aluFlags = s.aluFlags := rfl
@[simp] theorem State.retire_flags (s : State) (stmt : Statement) : (s.retire stmt).flags = s.flags := rfl
@[simp] theorem State.retire_mem (s : State) (stmt : Statement) : (s.retire stmt).mem = s.mem := rfl
@[simp] theorem State.retire_microProgram (s : State) (stmt : Statement) : (s.retire stmt).microProgram = s.microProgram := rfl
@[simp] theorem State.retire_currentStep (s : State) (stmt : Statement) : (s.retire stmt).currentStep = s.currentStep + 1 := rfl
@[simp] theorem State.retire_runState (s : State) (stmt : Statement) : (s.retire stmt).runState = if s.currentStep + 1 = s.microProgram.length then .completed else s.runState := rfl
@[simp] theorem State.retire_timerActive (s : State) (stmt : Statement) : (s.retire stmt).timerActive = if s.currentStep + 1 = s.microProgram.length then false else s.timerActive := rfl
@[simp] theorem State.retire_trace (s : State) (stmt : Statement) : (s.retire stmt).trace = s.trace ++ [⟨s.currentStep, stmt.text, describe stmt.uop s⟩] := rfl
@[simp] theorem State.retire_presetName (s : State) (stmt : Statement) : (s.retire stmt).presetName = s.presetName := rfl
@[simp] theorem State.retire_inputs (s : State) (stmt : Statement) : (s.retire stmt).inputs = s.inputs := rfl
@[simp] theorem State.retire_output (s : State) (stmt : Statement) : (s.retire stmt).output = s.output := rfl
@[simp] theorem State.retire_freeIndex (s : State) (stmt : Statement) : (s.retire stmt).freeIndex = s.freeIndex + 1 := rfl

/-! ### State.resetCommand -/

@[simp] theorem State.resetCommand_params (s : State) : (s.resetCommand).params = s.params := rfl
@[simp] theorem State.resetCommand_alu (s : State) : (s.resetCommand).alu = s.alu := rfl
@[simp] theorem State.resetCommand_adderMode (s : State) : (s.resetCommand).adderMode = s.adderMode := rfl
@[simp] theorem State.resetCommand_regs (s : State) : (s.resetCommand).regs = List.replicate s.params.nregs 0#8 := rfl
@[simp] theorem State.resetCommand_pc (s : State) : (s.resetCommand).pc = 0#8 := rfl
@[simp] theorem State.resetCommand_ir (s : State) : (s.resetCommand).ir = 0#8 := rfl
@[simp] theorem State.resetCommand_mar (s : State) : (s.resetCommand).mar = 0#8 := rfl
@[simp] theorem State.resetCommand_mdr (s : State) : (s.resetCommand).mdr = 0#8 := rfl
@[simp] theorem State.resetCommand_busA (s : State) : (s.resetCommand).busA = 0#8 := rfl
@[simp] theorem State.resetCommand_busB (s : State) : (s.resetCommand).busB = 0#8 := rfl
@[simp] theorem State.resetCommand_aluResult (s : State) : (s.resetCommand).aluResult = 0#8 := rfl
@[simp] theorem State.resetCommand_aluFlags (s : State) : (s.resetCommand).aluFlags = FlagSet.clear := rfl
@[simp] theorem State.resetCommand_flags (s : State) : (s.resetCommand).flags = FlagSet.clear := rfl
@[simp] theorem State.resetCommand_mem (s : State) : (s.resetCommand).mem = if s.params.resetClearsMem then [] else s.mem := rfl
@[simp] theorem State.resetCommand_microProgram (s : State) : (s.resetCommand).microProgram = s.microProgram := rfl
@[simp] theorem State.resetCommand_currentStep (s : State) : (s.resetCommand).currentStep = 0 := rfl
@[simp] theorem State.resetCommand_runState (s : State) : (s.resetCommand).runState = .idle := rfl
@[simp] theorem State.resetCommand_timerActive (s : State) : (s.resetCommand).timerActive = false := rfl
@[simp] theorem State.resetCommand_trace (s : State) : (s.resetCommand).trace = [] := rfl
@[simp] theorem State.resetCommand_presetName (s : State) : (s.resetCommand).presetName = s.presetName := rfl
@[simp] theorem State.resetCommand_inputs (s : State) : (s.resetCommand).inputs = s.inputs := rfl
@[simp] theorem State.resetCommand_output (s : State) : (s.resetCommand).output = s.output := rfl
@[simp] theorem State.resetCommand_freeIndex (s : State) : (s.resetCommand).freeIndex = s.freeIndex := rfl

/-! ### State.answer -/

@[simp] theorem State.answer_params (s : State) (o : Output) : (s.answer o).params = s.params := rfl
@[simp] theorem State.answer_alu (s : State) (o : Output) : (s.answer o).alu = s.alu := rfl
@[simp] theorem State.answer_adderMode (s : State) (o : Output) : (s.answer o).adderMode = s.adderMode := rfl
@[simp] theorem State.answer_regs (s : State) (o : Output) : (s.answer o).regs = s.regs := rfl
@[simp] theorem State.answer_pc (s : State) (o : Output) : (s.answer o).pc = s.pc := rfl
@[simp] theorem State.answer_ir (s : State) (o : Output) : (s.answer o).ir = s.ir := rfl
@[simp] theorem State.answer_mar (s : State) (o : Output) : (s.answer o).mar = s.mar := rfl
@[simp] theorem State.answer_mdr (s : State) (o : Output) : (s.answer o).mdr = s.mdr := rfl
@[simp] theorem State.answer_busA (s : State) (o : Output) : (s.answer o).busA = s.busA := rfl
@[simp] theorem State.answer_busB (s : State) (o : Output) : (s.answer o).busB = s.busB := rfl
@[simp] theorem State.answer_aluResult (s : State) (o : Output) : (s.answer o).aluResult = s.aluResult := rfl
@[simp] theorem State.answer_aluFlags (s : State) (o : Output) : (s.answer o).aluFlags = s.aluFlags := rfl
@[simp] theorem State.answer_flags (s : State) (o : Output) : (s.answer o).flags = s.flags := rfl
@[simp] theorem State.answer_mem (s : State) (o : Output) : (s.answer o).mem = s.mem := rfl
@[simp] theorem State.answer_microProgram (s : State) (o : Output) : (s.answer o).microProgram = s.microProgram := rfl
@[simp] theorem State.answer_currentStep (s : State) (o : Output) : (s.answer o).currentStep = s.currentStep := rfl
@[simp] theorem State.answer_runState (s : State) (o : Output) : (s.answer o).runState = s.runState := rfl
@[simp] theorem State.answer_timerActive (s : State) (o : Output) : (s.answer o).timerActive = s.timerActive := rfl
@[simp] theorem State.answer_trace (s : State) (o : Output) : (s.answer o).trace = s.trace := rfl
@[simp] theorem State.answer_presetName (s : State) (o : Output) : (s.answer o).presetName = s.presetName := rfl
@[simp] theorem State.answer_inputs (s : State) (o : Output) : (s.answer o).inputs = s.inputs := rfl
@[simp] theorem State.answer_output (s : State) (o : Output) : (s.answer o).output = o := rfl
@[simp] theorem State.answer_freeIndex (s : State) (o : Output) : (s.answer o).freeIndex = s.freeIndex := rfl

/-! ### State.withDatapath -/

@[simp] theorem State.withDatapath_params (s : State) (d : Datapath) : (s.withDatapath d).params = s.params := rfl
@[simp] theorem State.withDatapath_alu (s : State) (d : Datapath) : (s.withDatapath d).alu = s.alu := rfl
@[simp] theorem State.withDatapath_adderMode (s : State) (d : Datapath) : (s.withDatapath d).adderMode = s.adderMode := rfl
@[simp] theorem State.withDatapath_regs (s : State) (d : Datapath) : (s.withDatapath d).regs = d.registers := rfl
@[simp] theorem State.withDatapath_pc (s : State) (d : Datapath) : (s.withDatapath d).pc = d.pc := rfl
@[simp] theorem State.withDatapath_ir (s : State) (d : Datapath) : (s.withDatapath d).ir = d.ir := rfl
@[simp] theorem State.withDatapath_mar (s : State) (d : Datapath) : (s.withDatapath d).mar = d.mar := rfl
@[simp] theorem State.withDatapath_mdr (s : State) (d : Datapath) : (s.withDatapath d).mdr = d.mdr := rfl
@[simp] theorem State.withDatapath_busA (s : State) (d : Datapath) : (s.withDatapath d).busA = d.busA := rfl
@[simp] theorem State.withDatapath_busB (s : State) (d : Datapath) : (s.withDatapath d).busB = d.busB := rfl
@[simp] theorem State.withDatapath_aluResult (s : State) (d : Datapath) : (s.withDatapath d).aluResult = d.aluResult := rfl
@[simp] theorem State.withDatapath_aluFlags (s : State) (d : Datapath) : (s.withDatapath d).aluFlags = d.aluFlags := rfl
@[simp] theorem State.withDatapath_flags (s : State) (d : Datapath) : (s.withDatapath d).flags = d.flags := rfl
@[simp] theorem State.withDatapath_mem (s : State) (d : Datapath) : (s.withDatapath d).mem = Memory.ofBytes d.memory := rfl
@[simp] theorem State.withDatapath_microProgram (s : State) (d : Datapath) : (s.withDatapath d).microProgram = s.microProgram := rfl
@[simp] theorem State.withDatapath_currentStep (s : State) (d : Datapath) : (s.withDatapath d).currentStep = s.currentStep := rfl
@[simp] theorem State.withDatapath_runState (s : State) (d : Datapath) : (s.withDatapath d).runState = s.runState := rfl
@[simp] theorem State.withDatapath_timerActive (s : State) (d : Datapath) : (s.withDatapath d).timerActive = s.timerActive := rfl
@[simp] theorem State.withDatapath_trace (s : State) (d : Datapath) : (s.withDatapath d).trace = s.trace := rfl
@[simp] theorem State.withDatapath_presetName (s : State) (d : Datapath) : (s.withDatapath d).presetName = s.presetName := rfl
@[simp] theorem State.withDatapath_inputs (s : State) (d : Datapath) : (s.withDatapath d).inputs = s.inputs := rfl
@[simp] theorem State.withDatapath_output (s : State) (d : Datapath) : (s.withDatapath d).output = s.output := rfl
@[simp] theorem State.withDatapath_freeIndex (s : State) (d : Datapath) : (s.withDatapath d).freeIndex = s.freeIndex := rfl

/-! ### State.take -/

@[simp] theorem State.take_params (s : State) (rest : List Request) : (s.take rest).params = s.params := rfl
@[simp] theorem State.take_alu (s : State) (rest : List Request) : (s.take rest).alu = s.alu := rfl
@[simp] theorem State.take_adderMode (s : State) (rest : List Request) : (s.take rest).adderMode = s.adderMode := rfl
@[simp] theorem State.take_regs (s : State) (rest : List Request) : (s.take rest).regs = s.regs := rfl
@[simp] theorem State.take_pc (s : State) (rest : List Request) : (s.take rest).pc = s.pc := rfl
@[simp] theorem State.take_ir (s : State) (rest : List Request) : (s.take rest).ir = s.ir := rfl
@[simp] theorem State.take_mar (s : State) (rest : List Request) : (s.take rest).mar = s.mar := rfl
@[simp] theorem State.take_mdr (s : State) (rest : List Request) : (s.take rest).mdr = s.mdr := rfl
@[simp] theorem State.take_busA (s : State) (rest : List Request) : (s.take rest).busA = s.busA := rfl
@[simp] theorem State.take_busB (s : State) (rest : List Request) : (s.take rest).busB = s.busB := rfl
@[simp] theorem State.take_aluResult (s : State) (rest : List Request) : (s.take rest).aluResult = s.aluResult := rfl
@[simp] theorem State.take_aluFlags (s : State) (rest : List Request) : (s.take rest).aluFlags = s.aluFlags := rfl
@[simp] theorem State.take_flags (s : State) (rest : List Request) : (s.take rest).flags = s.flags := rfl
@[simp] theorem State.take_mem (s : State) (rest : List Request) : (s.take rest).mem = s.mem := rfl
@[simp] theorem State.take_microProgram (s : State) (rest : List Request) : (s.take rest).microProgram = s.microProgram := rfl
@[simp] theorem State.take_currentStep (s : State) (rest : List Request) : (s.take rest).currentStep = s.currentStep := rfl
@[simp] theorem State.take_runState (s : State) (rest : List Request) : (s.take rest).runState = s.runState := rfl
@[simp] theorem State.take_timerActive (s : State) (rest : List Request) : (s.take rest).timerActive = s.timerActive := rfl
@[simp] theorem State.take_trace (s : State) (rest : List Request) : (s.take rest).trace = s.trace := rfl
@[simp] theorem State.take_presetName (s : State) (rest : List Request) : (s.take rest).presetName = s.presetName := rfl
@[simp] theorem State.take_inputs (s : State) (rest : List Request) : (s.take rest).inputs = rest := rfl
@[simp] theorem State.take_output (s : State) (rest : List Request) : (s.take rest).output = .none := rfl
@[simp] theorem State.take_freeIndex (s : State) (rest : List Request) : (s.take rest).freeIndex = s.freeIndex := rfl

end Sys2Proof.Machine
end

