-- ==== Sys2Proof/Laws/Ops.lean ====
section
/-!
SUPPORT. What the memory and register operations can do: reading after writing, and that every memory operation keeps the
canonical form and the bound.
-/
namespace Sys2Proof.Machine

/-! ### Reading -/

theorem Memory.read_nil (a : Nat) : Memory.read [] a = Memory.unlisted := rfl

theorem Memory.read_of_lt {m : Memory} {a : Nat} (h : ∀ c ∈ m, a < c.1) : Memory.read m a = Memory.unlisted := by
  induction m with
  | nil => rfl
  | cons c rest ih =>
    have hc : a ≠ c.1 := Nat.ne_of_lt (h c (by simp))
    simp only [Memory.read, hc, if_false]
    exact ih fun d hd => h d (by simp [hd])

theorem Memory.read_cons {a x : Nat} {v : Byte} {m : Memory} (h : ∀ c ∈ m, a < c.1) :
    Memory.read (Memory.cons a v m) x = if x = a then v else Memory.read m x := by
  unfold Memory.cons
  split_ifs with hv hx hx
  · subst hx; rw [Memory.read_of_lt h, hv]
  · rfl
  · simp [Memory.read, hx]
  · simp [Memory.read, hx]

/-- Reading after a write gives the value at the address written and the old Byte everywhere else. -/
theorem Memory.read_write {m : Memory} (hm : Memory.wf m) (a x : Nat) (v : Byte) :
    Memory.read (Memory.write m a v) x = if x = a then v else Memory.read m x := by
  induction m with
  | nil => simpa [Memory.write] using Memory.read_cons (a := a) (x := x) (v := v) (m := []) (by simp)
  | cons c rest ih =>
    obtain ⟨b, w⟩ := c
    have hlt : ∀ d ∈ rest, b < d.1 := (List.pairwise_cons.mp hm.1).1
    have hrest : Memory.wf rest := ⟨(List.pairwise_cons.mp hm.1).2, fun d hd => hm.2 d (by simp [hd])⟩
    rw [Memory.write]
    by_cases h1 : a < b
    · rw [if_pos h1]
      exact Memory.read_cons fun d hd => by
        rcases List.mem_cons.mp hd with rfl | hd
        · exact h1
        · exact Nat.lt_trans h1 (hlt d hd)
    · rw [if_neg h1]
      by_cases h2 : a = b
      · subst h2
        rw [if_pos rfl, Memory.read_cons hlt]
        by_cases hx : x = a <;> simp [Memory.read, hx]
      · have hba : b ≠ a := fun h => h2 h.symm
        rw [if_neg h2]
        simp only [Memory.read, ih hrest]
        by_cases hx : x = b
        · subst hx; simp [hba]
        · simp [hx]

/-! ### The canonical form -/

theorem Memory.mem_cons_iff {a : Nat} {v : Byte} {m : Memory} {c : Host.Cell} (h : c ∈ Memory.cons a v m) :
    c = (a, v) ∨ c ∈ m := by
  unfold Memory.cons at h
  split_ifs at h
  · exact .inr h
  · exact List.mem_cons.mp h

theorem Memory.wf_cons {a : Nat} {v : Byte} {m : Memory} (hm : Memory.wf m) (h : ∀ c ∈ m, a < c.1) :
    Memory.wf (Memory.cons a v m) := by
  unfold Memory.cons
  split_ifs with hv
  · exact hm
  · refine ⟨List.pairwise_cons.mpr ⟨h, hm.1⟩, fun c hc => ?_⟩
    rcases List.mem_cons.mp hc with rfl | hc
    · exact hv
    · exact hm.2 c hc

/-- Every cell of a written memory is the one written or an old one. -/
theorem Memory.mem_write {m : Memory} {a : Nat} {v : Byte} {c : Host.Cell} (h : c ∈ Memory.write m a v) :
    c = (a, v) ∨ c ∈ m := by
  induction m with
  | nil => exact Memory.mem_cons_iff h
  | cons d rest ih =>
    simp only [Memory.write] at h
    split_ifs at h
    · exact Memory.mem_cons_iff h
    · rcases Memory.mem_cons_iff h with h | h
      · exact .inl h
      · exact .inr (by simp [h])
    · rcases List.mem_cons.mp h with h | h
      · exact .inr (by simp [h])
      · rcases ih h with h | h
        · exact .inl h
        · exact .inr (by simp [h])

theorem Memory.wf_write {m : Memory} (hm : Memory.wf m) (a : Nat) (v : Byte) : Memory.wf (Memory.write m a v) := by
  induction m with
  | nil => exact Memory.wf_cons hm (by simp)
  | cons c rest ih =>
    obtain ⟨b, w⟩ := c
    have hlt : ∀ d ∈ rest, b < d.1 := (List.pairwise_cons.mp hm.1).1
    have hrest : Memory.wf rest := ⟨(List.pairwise_cons.mp hm.1).2, fun d hd => hm.2 d (by simp [hd])⟩
    simp only [Memory.write]
    split_ifs with h1 h2
    · exact Memory.wf_cons hm fun d hd => by
        rcases List.mem_cons.mp hd with rfl | hd
        · exact h1
        · exact Nat.lt_trans h1 (hlt d hd)
    · subst h2; exact Memory.wf_cons hrest hlt
    · refine ⟨List.pairwise_cons.mpr ⟨fun d hd => ?_, (ih hrest).1⟩, fun d hd => ?_⟩
      · rcases Memory.mem_write hd with rfl | hd
        · show b < a; omega
        · exact hlt d hd
      · rcases List.mem_cons.mp hd with rfl | hd
        · exact hm.2 _ (by simp)
        · exact (ih hrest).2 d hd

/-- Two canonical memories that read alike everywhere are equal. -/
theorem Memory.ext_of_read {m m' : Memory} (h : Memory.wf m) (h' : Memory.wf m')
    (hr : ∀ a, Memory.read m a = Memory.read m' a) : m = m' := by
  induction m generalizing m' with
  | nil =>
    cases m' with
    | nil => rfl
    | cons c rest =>
      have := hr c.1
      simp only [Memory.read, if_true] at this
      exact absurd this.symm (h'.2 c (by simp))
  | cons c rest ih =>
    have hc : c.2 ≠ Memory.unlisted := h.2 c (by simp)
    have hlt : ∀ d ∈ rest, c.1 < d.1 := (List.pairwise_cons.mp h.1).1
    have hrest : Memory.wf rest := ⟨(List.pairwise_cons.mp h.1).2, fun d hd => h.2 d (by simp [hd])⟩
    cases m' with
    | nil =>
      have := hr c.1
      simp only [Memory.read, if_true] at this
      exact absurd this hc
    | cons c' rest' =>
      have hc' : c'.2 ≠ Memory.unlisted := h'.2 c' (by simp)
      have hlt' : ∀ d ∈ rest', c'.1 < d.1 := (List.pairwise_cons.mp h'.1).1
      have hrest' : Memory.wf rest' := ⟨(List.pairwise_cons.mp h'.1).2, fun d hd => h'.2 d (by simp [hd])⟩
      have hkey : c.1 = c'.1 := by
        rcases Nat.lt_trichotomy c.1 c'.1 with hk | hk | hk
        · have := hr c.1
          rw [Memory.read_of_lt (m := c' :: rest') fun d hd => by
            rcases List.mem_cons.mp hd with rfl | hd
            · exact hk
            · exact Nat.lt_trans hk (hlt' d hd)] at this
          simp only [Memory.read, if_true] at this
          exact absurd this hc
        · exact hk
        · have := hr c'.1
          rw [Memory.read_of_lt (m := c :: rest) fun d hd => by
            rcases List.mem_cons.mp hd with rfl | hd
            · exact hk
            · exact Nat.lt_trans hk (hlt d hd)] at this
          simp only [Memory.read, if_true] at this
          exact absurd this.symm hc'
      have hval : c.2 = c'.2 := by
        have := hr c.1
        simpa [Memory.read, hkey] using this
      have htail : rest = rest' := ih hrest hrest' fun a => by
        by_cases ha : a = c.1
        · rw [Memory.read_of_lt fun d hd => ha ▸ hlt d hd,
            Memory.read_of_lt fun d hd => (ha.trans hkey) ▸ hlt' d hd]
        · have := hr a
          simpa [Memory.read, ha, hkey ▸ ha] using this
      rw [htail, Prod.ext hkey hval]

/-! ### Memories given as Bytes -/

theorem Memory.mem_ofBytesFrom {l : List Byte} {k : Nat} {c : Host.Cell} (h : c ∈ Memory.ofBytesFrom k l) :
    k ≤ c.1 ∧ c.1 < k + l.length := by
  induction l generalizing k with
  | nil => simp [Memory.ofBytesFrom] at h
  | cons v rest ih =>
    rcases Memory.mem_cons_iff h with rfl | h
    · simp
    · have := ih h; simp only [List.length_cons]; omega

theorem Memory.wf_ofBytesFrom (k : Nat) (l : List Byte) : Memory.wf (Memory.ofBytesFrom k l) := by
  induction l generalizing k with
  | nil => exact ⟨List.Pairwise.nil, by simp [Memory.ofBytesFrom]⟩
  | cons v rest ih => exact Memory.wf_cons (ih (k + 1)) fun c hc => (Memory.mem_ofBytesFrom hc).1

theorem Memory.wf_ofBytes (l : List Byte) : Memory.wf (Memory.ofBytes l) := Memory.wf_ofBytesFrom 0 l

theorem Memory.ofBytes_within {l : List Byte} {c : Host.Cell} (h : c ∈ Memory.ofBytes l) : c.1 < l.length := by
  simpa using (Memory.mem_ofBytesFrom h).2

theorem Memory.read_ofBytesFrom (k a : Nat) (l : List Byte) :
    Memory.read (Memory.ofBytesFrom k l) (k + a) = l.getD a Memory.unlisted := by
  induction l generalizing k a with
  | nil => simp [Memory.ofBytesFrom, Memory.read]
  | cons v rest ih =>
    rw [Memory.ofBytesFrom, Memory.read_cons fun c hc => (Memory.mem_ofBytesFrom hc).1]
    cases a with
    | zero => simp
    | succ a =>
      rw [if_neg (by omega), show k + (a + 1) = (k + 1) + a by omega, ih]
      simp

theorem Memory.read_ofBytes (a : Nat) (l : List Byte) :
    Memory.read (Memory.ofBytes l) a = l.getD a Memory.unlisted := by
  simpa [Memory.ofBytes] using Memory.read_ofBytesFrom 0 a l

theorem Memory.read_of_within {m : Memory} {size a : Nat} (h : ∀ c ∈ m, c.1 < size) (ha : size ≤ a) :
    Memory.read m a = Memory.unlisted := by
  induction m with
  | nil => rfl
  | cons c rest ih =>
    have hc : a ≠ c.1 := by have := h c (by simp); omega
    simp only [Memory.read, hc, if_false]
    exact ih fun d hd => h d (by simp [hd])

@[simp] theorem Memory.length_toBytes (m : Memory) (size : Nat) : (m.toBytes size).length = size := by
  simp [Memory.toBytes]

/-- The Byte listed for an address below the size is the one memory holds there; none is listed from the size on. -/
theorem Memory.getD_toBytes (m : Memory) (size a : Nat) :
    (m.toBytes size).getD a 0#8 = if a < size then Memory.read m a else 0#8 := by
  split_ifs with h <;> simp [Memory.toBytes, List.getD_eq_getElem?_getD, h]

/-- The Bytes of a canonical memory within a size determine it. -/
theorem Memory.ofBytes_toBytes {m : Memory} {size : Nat} (hm : Memory.wf m) (h : ∀ c ∈ m, c.1 < size) :
    Memory.ofBytes (m.toBytes size) = m := by
  refine Memory.ext_of_read (Memory.wf_ofBytes _) hm fun a => ?_
  rw [Memory.read_ofBytes]
  by_cases ha : a < size
  · simp [Memory.toBytes, List.getD_eq_getElem?_getD, ha]
  · rw [Memory.read_of_within h (by omega)]
    simp [Memory.toBytes, List.getD_eq_getElem?_getD, ha]

/-! ### The state's memory and registers -/

/-- `MemRead` after `MemWrite`: the value at an address in range, the old Byte elsewhere. -/
theorem State.memRead_memWrite {s : State} (hm : Memory.wf s.mem) (a x : Nat) (v : Byte) :
    (s.memWrite a v).memRead x = if x = a ∧ a < s.params.memSize then v else s.memRead x := by
  simp only [State.memRead, State.memWrite_params, State.memWrite_mem]
  by_cases ha : a < s.params.memSize
  · simp only [ha, if_true, Memory.read_write hm, and_true]
    by_cases hx : x = a
    · subst hx; simp [ha]
    · simp [hx]
  · simp [ha]

theorem State.memWrite_wf {s : State} (hm : Memory.wf s.mem) (a : Nat) (v : Byte) :
    Memory.wf (s.memWrite a v).mem := by
  rw [State.memWrite_mem]
  split_ifs
  · exact Memory.wf_write hm a v
  · exact hm

theorem State.memWrite_within {s : State} (h : ∀ c ∈ s.mem, c.1 < s.params.memSize) (a : Nat) (v : Byte) :
    ∀ c ∈ (s.memWrite a v).mem, c.1 < s.params.memSize := by
  intro c hc
  rw [State.memWrite_mem] at hc
  split_ifs at hc with ha
  · rcases Memory.mem_write hc with rfl | hc
    · exact ha
    · exact h c hc
  · exact h c hc

theorem State.writeReg_regs_length (s : State) (n : Nat) (v : Byte) :
    (s.writeReg n v).regs.length = s.regs.length := by
  rw [State.writeReg_regs]; split_ifs <;> simp

/-- Reading a register after `x[n] <- v`: the value for an index in bounds, the old Byte elsewhere. -/
theorem State.readReg_writeReg {s : State} (h : s.regs.length = s.params.nregs) (n m : Nat) (v : Byte) :
    (s.writeReg n v).readReg m = if m = n ∧ n < s.params.nregs then v else s.readReg m := by
  simp only [State.readReg, State.writeReg_params, State.writeReg_regs]
  by_cases hn : n < s.params.nregs
  · by_cases hm : m = n
    · subst hm; simp [hn, List.getD_eq_getElem?_getD, h]
    · simp [hn, hm, List.getD_eq_getElem?_getD, Ne.symm hm]
  · simp [hn]

/-! ### Statements as the host gives them -/

/-- A program is given in words somewhere exactly when one of its statements is a word (R209). -/
theorem Source.any_isWord {program : List Source} :
    program.any Source.isWord = true ↔ ∃ w, Source.word w ∈ program := by
  rw [List.any_eq_true]
  constructor
  · rintro ⟨x, hx, hw⟩
    cases x with
    | word w => exact ⟨w, hx⟩
    | text t => cases hw
    | variant u => cases hw
  · rintro ⟨w, hw⟩
    exact ⟨_, hw, rfl⟩

end Sys2Proof.Machine
end

