-- ==== Sys2Proof/Laws/Exec.lean ====
section
/-!
SUPPORT. Once for each shared operation: what it can do when it answers a next state. Later proofs cite these lemmas
instead of unfolding the meanings and the step.
-/
namespace Sys2Proof.Machine

/-! ### Micro-operations -/

/-- Every micro-operation completes and changes at most the datapath (R170, R186). -/
theorem exec_uop_next (u : Uop) (s : State) : ∃ t, exec u.toInstr s = .next t ∧
    t = { s with
      regs := t.regs, pc := t.pc, ir := t.ir, mar := t.mar, mdr := t.mdr, busA := t.busA, busB := t.busB,
      aluResult := t.aluResult, aluFlags := t.aluFlags, flags := t.flags, mem := t.mem } := by
  cases u <;> exact ⟨_, rfl, rfl⟩

/-- A micro-operation neither reads nor writes the answer to the last request (R186). -/
theorem exec_uop_output (u : Uop) (s : State) :
    ∃ t : State, ∀ o : Output, exec u.toInstr { s with output := o } = .next { t with output := o } := by
  obtain ⟨t, h, _⟩ := exec_uop_next u s
  refine ⟨t, fun o => ?_⟩
  cases u <;> injection h with h <;> subst h <;> rfl

/-- Everything outside the datapath, which no micro-operation changes (R186). -/
theorem exec_uop_book {u : Uop} {s t : State} (h : exec u.toInstr s = .next t) :
    t.params = s.params ∧ t.alu = s.alu ∧ t.adderMode = s.adderMode ∧ t.microProgram = s.microProgram ∧
    t.currentStep = s.currentStep ∧ t.runState = s.runState ∧ t.timerActive = s.timerActive ∧ t.trace = s.trace ∧
    t.presetName = s.presetName ∧ t.inputs = s.inputs ∧ t.output = s.output ∧ t.freeIndex = s.freeIndex := by
  obtain ⟨u', h1, h2⟩ := exec_uop_next u s
  rw [h] at h1; cases h1; rw [h2]; simp

/-- What a micro-operation does to the two FlagSets: `aluFlags` by the simplified rule, `flags` from `aluFlags` (R186). -/
theorem exec_uop_flags {u : Uop} {s t : State} (h : exec u.toInstr s = .next t) :
    (t.aluFlags = s.aluFlags ∨ ∃ raw, t.aluFlags = uopFlags raw) ∧ (t.flags = s.flags ∨ t.flags = s.aluFlags) := by
  cases u <;> cases h <;> simp [State.setUopResult, State.writeReg, State.memWrite]

/-- What a micro-operation does to the register file: nothing, or `R[n] ← ALU` (R186). -/
theorem exec_uop_regs {u : Uop} {s t : State} (h : exec u.toInstr s = .next t) :
    t.regs = s.regs ∨ ∃ n, u = .rAlu n ∧ t = s.writeReg n s.aluResult := by
  cases u with
  | rAlu n => exact .inr ⟨n, rfl, by injection h with h; exact h.symm⟩
  | _ => left; injection h with h; subst h; rfl

/-- What a micro-operation does to data memory: nothing, or `Mem[MAR] ← MDR` (R186). -/
theorem exec_uop_mem {u : Uop} {s t : State} (h : exec u.toInstr s = .next t) :
    t.mem = s.mem ∨ (u = .memMdr ∧ t = s.memWrite s.mar.toNat s.mdr) := by
  cases u with
  | memMdr => exact .inr ⟨rfl, by injection h with h; exact h.symm⟩
  | _ => left; injection h with h; subst h; rfl

/-! ### The adder's operations -/

/-- ADDER_ADD completes exactly on legal operands (R145, R156). -/
theorem execAdderAdd_cases (m : AdderMode) (a b : Int) (s : State) :
    (inLegalRange m a = true ∧ inLegalRange m b = true ∧ execAdderAdd m a b s =
      .next (s.deliverCalculation m (calculation s.params.adderSubOvfSign false m (toBinary a m) (toBinary b m))))
    ∨ (¬(inLegalRange m a = true ∧ inLegalRange m b = true)
      ∧ execAdderAdd m a b s = .refused .adderOperandOutOfRange) := by
  unfold execAdderAdd
  by_cases h : inLegalRange m a = true ∧ inLegalRange m b = true
  · exact .inl ⟨h.1, h.2, by simp [h.1, h.2]⟩
  · exact .inr ⟨h, by rw [if_neg (by simpa using h)]⟩

/-- ADDER_SUB completes exactly on legal operands (R146, R156). -/
theorem execAdderSub_cases (m : AdderMode) (a b : Int) (s : State) :
    (inLegalRange m a = true ∧ inLegalRange m b = true ∧ execAdderSub m a b s =
      .next (s.deliverCalculation m (calculation s.params.adderSubOvfSign true m (toBinary a m) (toBinary b m))))
    ∨ (¬(inLegalRange m a = true ∧ inLegalRange m b = true)
      ∧ execAdderSub m a b s = .refused .adderOperandOutOfRange) := by
  unfold execAdderSub
  by_cases h : inLegalRange m a = true ∧ inLegalRange m b = true
  · exact .inl ⟨h.1, h.2, by simp [h.1, h.2]⟩
  · exact .inr ⟨h, by rw [if_neg (by simpa using h)]⟩

/-! ### The sequencer -/

/-- The dispatching step always completes: the statement's effect, then the bookkeeping (R201, R216). -/
theorem dispatchStep_next (stmt : Statement) (s : State) :
    ∃ t, exec stmt.uop.toInstr s = .next t ∧ dispatchStep stmt s = .next (t.retire stmt) := by
  obtain ⟨t, h, _⟩ := exec_uop_next stmt.uop s
  exact ⟨t, h, by simp [dispatchStep, h]⟩

/-- The two cases of `step()` (R200): dispatch below the end of the program, wrap from the end on. -/
theorem sequencerStep_cases (s : State) :
    (∃ stmt t, s.fetch = some stmt ∧ s.currentStep < s.microProgram.length ∧ exec stmt.uop.toInstr s = .next t
      ∧ sequencerStep s = .next (t.retire stmt))
    ∨ (s.microProgram.length ≤ s.currentStep ∧ sequencerStep s = .next s.wrap) := by
  cases hf : s.fetch with
  | some stmt =>
    obtain ⟨t, h, hd⟩ := dispatchStep_next stmt s
    refine .inl ⟨stmt, t, rfl, ?_, h, by simp [sequencerStep, hf, hd]⟩
    exact (List.getElem?_eq_some_iff.mp hf).1
  | none => exact .inr ⟨List.getElem?_eq_none_iff.mp hf, by simp [sequencerStep, hf]⟩

/-- `step()` neither reads nor writes the answer to the last request (R200). -/
theorem sequencerStep_output (s : State) :
    ∃ t : State, ∀ o : Output, sequencerStep { s with output := o } = .next { t with output := o } := by
  cases hf : s.fetch with
  | none =>
    refine ⟨s.wrap, fun o => ?_⟩
    rw [sequencerStep, show State.fetch { s with output := o } = none from hf]
    rfl
  | some stmt =>
    obtain ⟨t, ht⟩ := exec_uop_output stmt.uop s
    refine ⟨t.retire stmt, fun o => ?_⟩
    rw [sequencerStep, show State.fetch { s with output := o } = some stmt from hf]
    simp only [dispatchStep, ht o]
    rfl

/-- A tick is one `step()` while the timer is armed, and nothing otherwise (R206). -/
theorem timerTick_cases (s : State) :
    (s.timerActive = true ∧ timerTick s = sequencerStep s) ∨ (s.timerActive = false ∧ timerTick s = .next s) := by
  cases h : s.timerActive <;> simp [timerTick, h]

/-- The driver commands leave the state as it is, arm the timer over a loaded program, or pause a run (R215). -/
theorem runCommand_cases (s : State) : s.runCommand = s ∨ (s.microProgram ≠ [] ∧
    (s.runState = .idle ∨ s.runState = .paused) ∧ s.runCommand = s.arm) := by
  unfold State.runCommand
  cases h : s.runState <;> by_cases hp : s.microProgram = [] <;> simp [hp]

/-- See runCommand_cases. -/
theorem toggleCommand_cases (s : State) : s.toggleCommand = s ∨ (s.microProgram ≠ [] ∧
    (s.runState = .idle ∨ s.runState = .paused) ∧ s.toggleCommand = s.arm) ∨
    (s.runState = .running ∧ s.toggleCommand = s.disarm) := by
  unfold State.toggleCommand
  cases h : s.runState <;> by_cases hp : s.microProgram = [] <;> simp [hp]

/-- See runCommand_cases. -/
theorem pauseCommand_cases (s : State) : s.pauseCommand = s ∨ (s.runState = .running ∧ s.pauseCommand = s.disarm) := by
  unfold State.pauseCommand
  cases h : s.runState <;> simp

/-! ### Requests -/

/-- A load answers a next state only for a program within PROG_MAX, and then it is the loaded state (R208, U22). -/
theorem performLoad_next {program : List Statement} {name : Option Text} {s t : State}
    (h : performLoad program name s = .next t) :
    program.length ≤ s.params.progMax ∧ t = s.loadProgram program name := by
  unfold performLoad at h
  split_ifs at h with hl
  exact ⟨hl, by injection h with h; exact h.symm⟩

/-- The operands an adder presentation decodes to are legal, so it always completes (R83, R89). -/
theorem adderPresent_next (ctl : BitVec 2) (a b : Byte) (s : State) :
    ∃ m r, performIssueWord (.adder ctl a b) s = .next (s.deliverCalculation m r) := by
  simp only [performIssueWord, decode, decodeAdderCtl]
  split_ifs
  · simp only [exec, execAdderSub, fromBinary_inRange, Bool.and_self, if_true]; exact ⟨_, _, rfl⟩
  · simp only [exec, execAdderAdd, fromBinary_inRange, Bool.and_self, if_true]; exact ⟨_, _, rfl⟩

/-- A presentation to the ALU Engine writes the latch, or is refused for a reserved code (R89, R125). -/
theorem aluPresent_cases (op : BitVec 4) (a b : Byte) (s : State) :
    (op.toNat < 10 ∧ ∃ y f, performIssueWord (.alu op a b) s = .next (s.latchAlu y f))
    ∨ (10 ≤ op.toNat ∧ performIssueWord (.alu op a b) s = .refused (.aluReservedOp op)) := by
  have hop : op = BitVec.ofNat 4 op.toNat := by simp
  have hlt := op.isLt
  generalize hn : op.toNat = n at hop hlt
  subst hop
  interval_cases n
  all_goals first
    | exact .inl ⟨by decide, _, _, rfl⟩
    | exact .inr ⟨by decide, rfl⟩

/-- A poke that is accepted writes one field of the datapath (R213). -/
theorem performPoke_next {p : Poke} {s t : State} (h : performPoke p s = .next t) :
    (∃ f b, f.present s.params = true ∧ t = s.setByteField f b)
    ∨ (∃ g, t = { s with aluFlags := g }) ∨ (∃ g, t = { s with flags := g }) := by
  cases p with
  | byte f v =>
    simp only [performPoke] at h
    split_ifs at h with hf
    cases hb : byteOfInt v with
    | none => simp [hb] at h
    | some b =>
      simp only [hb] at h
      exact .inl ⟨f, b, hf, by injection h with h; exact h.symm⟩
  | aluFlag n v => exact .inr (.inl ⟨_, by injection h with h; exact h.symm⟩)
  | flag n v => exact .inr (.inr ⟨_, by injection h with h; exact h.symm⟩)
  | locked f v => simp [performPoke] at h

/-- One step: the first waiting request, or, with none waiting, a tick (log 1). -/
theorem step_cons {s : State} {r : Request} {rest : List Request} (h : s.inputs = r :: rest) :
    advance s = perform r (s.take rest) := by simp [advance, h]

/-- See step_cons. -/
theorem step_nil {s : State} (h : s.inputs = []) : advance s = timerTick s := by simp [advance, h]

/-! ### The parser -/

@[simp] theorem foldCase_append (t u : Text) : foldCase (t ++ u) = foldCase t ++ foldCase u := by simp [foldCase]

@[simp] theorem foldCase_length (t : Text) : (foldCase t).length = t.length := by simp [foldCase]

theorem asciiLower_digitChar {d : Nat} (h : d < 10) : asciiLower (digitChar d) = digitChar d := by
  interval_cases d <;> rfl

/-- A numeral has no letters. -/
theorem foldCase_decimal (n : Nat) : foldCase (decimal n) = decimal n := by
  have hd := (digitsRev_spec (n + 1) n (by omega)).2.1
  simp only [foldCase, decimal, List.map_map]
  exact List.map_congr_left fun d h => asciiLower_digitChar (hd d (List.mem_reverse.mp h))

/-- A text of the form `pre n suf` yields its numeral's number. -/
theorem indexBetween_append (pre mid suf : Text) : indexBetween pre suf (pre ++ mid ++ suf) = parseDecimal mid := by
  have h : ((pre ++ mid ++ suf).drop pre.length).take ((pre ++ mid ++ suf).length - pre.length - suf.length) = mid := by
    simp [List.append_assoc]
  simp only [indexBetween, h, if_true]

/-- A text that does not begin with `pre` yields nothing. -/
theorem indexBetween_none {pre suf t : Text} (h : ¬pre <+: t) : indexBetween pre suf t = none := by
  simp only [indexBetween]
  rw [if_neg fun he => h ⟨_, by rw [List.append_assoc] at he; exact he.symm⟩]

end Sys2Proof.Machine
end

