-- ==== Sys2Proof/Laws/Flags.lean ====
section
/-!
SUPPORT. Once for each masked raw result and each flag rule: its value in the arithmetic of Bytes. Later proofs rewrite
with these instead of unfolding `maskByte` and the flag rules.
-/
namespace Sys2Proof.Machine

/-! ### `raw & 0xFF` (R11) -/

theorem maskByte_ofNat (n : Nat) : maskByte (n : Int) = BitVec.ofNat 8 n := by
  apply BitVec.eq_of_toNat_eq; simp [maskByte]

theorem maskByte_toNat (a : Byte) : maskByte (a.toNat : Int) = a := by simp [maskByte_ofNat]

theorem maskByte_add (a b : Byte) : maskByte ((a.toNat : Int) + b.toNat) = a + b := by
  apply BitVec.eq_of_toNat_eq; simp [maskByte]; omega

theorem maskByte_sub (a b : Byte) : maskByte ((a.toNat : Int) - b.toNat) = a - b := by
  apply BitVec.eq_of_toNat_eq; simp [maskByte, BitVec.toNat_ofInt, BitVec.toNat_sub]; omega

theorem maskByte_not (a : Byte) : maskByte (-(a.toNat : Int) - 1) = 255#8 - a := by
  apply BitVec.eq_of_toNat_eq; simp [maskByte, BitVec.toNat_ofInt, BitVec.toNat_sub]; omega

theorem maskByte_shl (a : Byte) : maskByte (2 * (a.toNat : Int)) = a <<< 1 := by
  apply BitVec.eq_of_toNat_eq; simp [maskByte, BitVec.toNat_ofInt, Nat.shiftLeft_eq]; omega

theorem maskByte_shr (a : Byte) : maskByte ((a.toNat / 2 : Nat) : Int) = a >>> 1 := by
  rw [maskByte_ofNat]
  apply BitVec.eq_of_toNat_eq; simp [Nat.shiftRight_eq_div_pow]; omega

/-! ### The ALU Engine's flag rules (R111 to R121) -/

theorem signs_same_then_other (a b c : Bool) : (a == b && a != c) = decide (a = b ∧ a ≠ c) := by
  cases a <;> cases b <;> cases c <;> rfl

theorem signs_other_then_other (a b c : Bool) : (a != b && a != c) = decide (a ≠ b ∧ a ≠ c) := by
  cases a <;> cases b <;> cases c <;> rfl

theorem aluAddFlags_eq (a b : Byte) : aluAddFlags (aluRawAdd a b) a b (a + b) =
    ⟨decide (a + b = 0#8), (a + b).getLsbD 7, decide (255 < a.toNat + b.toNat),
      decide (a.getLsbD 7 = b.getLsbD 7 ∧ a.getLsbD 7 ≠ (a + b).getLsbD 7)⟩ := by
  have h : decide (aluRawAdd a b > 255) = decide (255 < a.toNat + b.toNat) := by
    rw [decide_eq_decide, aluRawAdd]; omega
  simp only [aluAddFlags, aluFlagSet, signBit, h, signs_same_then_other]

theorem aluSubFlags_eq (a b : Byte) : aluSubFlags (aluRawSub a b) a b (a - b) =
    ⟨decide (a - b = 0#8), (a - b).getLsbD 7, decide (a.toNat < b.toNat),
      decide (a.getLsbD 7 ≠ b.getLsbD 7 ∧ a.getLsbD 7 ≠ (a - b).getLsbD 7)⟩ := by
  have h : decide (aluRawSub a b < 0) = decide (a.toNat < b.toNat) := by
    rw [decide_eq_decide, aluRawSub]; omega
  simp only [aluSubFlags, aluFlagSet, signBit, h, signs_other_then_other]

/-! ### The interpreter's flag rule (R184) -/

theorem uopFlags_busRawAdd (s : State) : uopFlags s.busRawAdd =
    ⟨decide (s.busA + s.busB = 0#8), (s.busA + s.busB).getLsbD 7, decide (255 < s.busA.toNat + s.busB.toNat),
      false⟩ := by
  have h : decide (s.busRawAdd > 255) = decide (255 < s.busA.toNat + s.busB.toNat) := by
    rw [decide_eq_decide, State.busRawAdd]; omega
  rw [uopFlags, h, State.busRawAdd, maskByte_add]

/-- The raw difference never exceeds 255, so `C` stays 0 (D35). -/
theorem uopFlags_busRawSub (s : State) : uopFlags s.busRawSub =
    ⟨decide (s.busA = s.busB), (s.busA - s.busB).getLsbD 7, false, false⟩ := by
  have hl := s.busA.isLt
  have h : decide (s.busRawSub > 255) = false := by
    rw [decide_eq_false_iff_not, State.busRawSub]; omega
  have hz : decide (s.busA - s.busB = 0#8) = decide (s.busA = s.busB) := by
    rw [decide_eq_decide, BitVec.sub_eq_iff_eq_add]; simp
  rw [uopFlags, h, State.busRawSub, maskByte_sub, hz]

theorem uopFlags_busRawAnd (s : State) : uopFlags s.busRawAnd =
    ⟨decide (s.busA &&& s.busB = 0#8), (s.busA &&& s.busB).getLsbD 7, false, false⟩ := by
  have hl := (s.busA &&& s.busB).isLt
  have h : decide (s.busRawAnd > 255) = false := by
    rw [decide_eq_false_iff_not, State.busRawAnd]; omega
  rw [uopFlags, h, State.busRawAnd, maskByte_toNat]

/-- `V` is fixed false (R184). -/
@[simp] theorem uopFlags_overflow (raw : Int) : (uopFlags raw).overflow = false := rfl

end Sys2Proof.Machine
end

