-- ==== Sys2Proof/Laws/PerInstr.lean ====
section
/-!
SUPPORT. A statement about every instruction as syntax, made per instruction: its binary form, where it has one, belongs
to its own space (R80).
-/
namespace Sys2Proof.Laws.WordOfItsSpace

/-- The binary form of an instruction is of the instruction's space, "and no instruction of one block can be issued to
another" (R80). -/
def Statement (i : Instr) : Prop := ∀ x, encode i = some x → x.space = i.space

theorem and (a b : Byte) : Statement (.and a b) := fun _ h => by cases h; rfl

theorem or (a b : Byte) : Statement (.or a b) := fun _ h => by cases h; rfl

theorem xor (a b : Byte) : Statement (.xor a b) := fun _ h => by cases h; rfl

theorem add (a b : Byte) : Statement (.add a b) := fun _ h => by cases h; rfl

theorem sub (a b : Byte) : Statement (.sub a b) := fun _ h => by cases h; rfl

theorem not (a : Byte) : Statement (.not a) := fun _ h => by cases h; rfl

theorem inc (a : Byte) : Statement (.inc a) := fun _ h => by cases h; rfl

theorem dec (a : Byte) : Statement (.dec a) := fun _ h => by cases h; rfl

theorem shl (a : Byte) : Statement (.shl a) := fun _ h => by cases h; rfl

theorem shr (a : Byte) : Statement (.shr a) := fun _ h => by cases h; rfl

theorem of_adder {s : BitVec 2} {m : AdderMode} {a b : Int} {x : IssueWord} (h : encodeAdder s m a b = some x) :
    x.space = .adderCtl := by
  unfold encodeAdder at h
  split_ifs at h
  cases h; rfl

theorem adderAdd (m : AdderMode) (a b : Int) : Statement (.adderAdd m a b) := fun _ h => of_adder h

theorem adderSub (m : AdderMode) (a b : Int) : Statement (.adderSub m a b) := fun _ h => of_adder h

theorem of_uop {w : Option Byte} {x : IssueWord} (h : w.map IssueWord.uop = some x) : x.space = .uop := by
  obtain ⟨v, _, rfl⟩ := Option.map_eq_some_iff.mp h
  rfl

theorem marPc : Statement .marPc := fun _ h => by cases h; rfl

theorem mdrMem : Statement .mdrMem := fun _ h => by cases h; rfl

theorem irMdr : Statement .irMdr := fun _ h => by cases h; rfl

theorem pcInc : Statement .pcInc := fun _ h => by cases h; rfl

theorem aluAdd : Statement .aluAdd := fun _ h => by cases h; rfl

theorem aluSub : Statement .aluSub := fun _ h => by cases h; rfl

theorem aluAnd : Statement .aluAnd := fun _ h => by cases h; rfl

theorem flagsAlu : Statement .flagsAlu := fun _ h => by cases h; rfl

theorem memMdr : Statement .memMdr := fun _ h => by cases h; rfl

theorem unknown : Statement .unknown := fun _ h => by cases h; rfl

theorem aR (n : Nat) : Statement (.aR n) := fun _ h => of_uop h

theorem bR (n : Nat) : Statement (.bR n) := fun _ h => of_uop h

theorem rAlu (n : Nat) : Statement (.rAlu n) := fun _ h => of_uop h

end Sys2Proof.Laws.WordOfItsSpace
end

