-- ==== Sys2Proof/Laws/Text.lean ====
section
/-!
SUPPORT. Once for each conversion between texts, integers and what they stand for: decimal numerals and the parser's
pieces (R85), the Bytes of a snapshot (R212), the characters of a bit-string (R20).
-/
namespace Sys2Proof.Machine

/-! ### Decimal numerals -/

theorem digitChar_of_isDigit {c : Char} (h : isDigit c = true) : digitChar (c.toNat - 48) = c := by
  simp only [isDigit, decide_eq_true_eq] at h
  rw [digitChar, show 48 + (c.toNat - 48) = c.toNat by omega]
  exact Char.ofNat_toNat c

/-- Fuel above the number does not matter. -/
theorem digitsRev_fuel : ∀ f g n : Nat, n < f → n < g → digitsRev f n = digitsRev g n := by
  intro f
  induction f with
  | zero => intro g n h; omega
  | succ f ih =>
    intro g n hf hg
    cases g with
    | zero => omega
    | succ g =>
      simp only [digitsRev]
      split_ifs
      · rfl
      · rw [ih g (n / 10) (by omega) (by omega)]

theorem decimal_snoc (m d : Nat) (hm : 1 ≤ m) (hd : d < 10) : decimal (10 * m + d) = decimal m ++ [digitChar d] := by
  simp only [decimal]
  rw [digitsRev, if_neg (by omega), show (10 * m + d) % 10 = d by omega, show (10 * m + d) / 10 = m by omega,
    digitsRev_fuel (10 * m + d) (m + 1) m (by omega) (by omega)]
  simp

/-- A numeral without a leading zero writes a number of 1 or more. -/
theorem numeral_pos (c : Char) (l : List Char) (hc : isDigit c = true) (h0 : c ≠ '0') :
    1 ≤ (c :: l).foldl (fun acc c => 10 * acc + (c.toNat - 48)) 0 := by
  have key : ∀ (l : List Char) (acc : Nat), 1 ≤ acc → 1 ≤ l.foldl (fun acc c => 10 * acc + (c.toNat - 48)) acc := by
    intro l
    induction l with
    | nil => intro acc h; exact h
    | cons c l ih => intro acc h; exact ih (10 * acc + (c.toNat - 48)) (by omega)
  refine key l (10 * 0 + (c.toNat - 48)) ?_
  simp only [isDigit, decide_eq_true_eq] at hc
  have : c.toNat ≠ 48 := by
    intro h; apply h0; rw [← Char.ofNat_toNat c, h]
  omega

/-- Digits without a superfluous leading zero are the decimal of the number they write. -/
theorem decimal_of_digits (r : List Char) : ∀ t : List Char, t.reverse = r → t ≠ [] → t.all isDigit = true →
    (t.length = 1 ∨ t.head? ≠ some '0') → t = decimal (t.foldl (fun acc c => 10 * acc + (c.toNat - 48)) 0) := by
  induction r with
  | nil => intro t ht hne; simp at ht; exact absurd ht hne
  | cons c r ih =>
    intro t ht hne hall hz
    have ht' : t = r.reverse ++ [c] := by rw [← List.reverse_reverse t, ht]; simp
    subst ht'
    simp only [List.all_append, Bool.and_eq_true, List.all_cons, List.all_nil, Bool.and_true] at hall
    have hc := hall.2
    have hcd : c.toNat - 48 < 10 := by simp only [isDigit, decide_eq_true_eq] at hc; omega
    rw [List.foldl_append]
    simp only [List.foldl_cons, List.foldl_nil]
    cases hr : r.reverse with
    | nil =>
      simp only [List.nil_append, List.foldl_nil, Nat.mul_zero, Nat.zero_add, decimal, digitsRev, if_pos hcd]
      simp [digitChar_of_isDigit hc]
    | cons x xs =>
      have h2 : (r.reverse ++ [c]).head? = some x := by rw [hr]; rfl
      have hx0 : x ≠ '0' := by
        rcases hz with h | h
        · rw [hr] at h; simp at h
        · intro hx; apply h; rw [h2, hx]
      have hx : isDigit x = true := by
        have := hall.1; rw [hr] at this; simp at this; exact this.1
      rw [decimal_snoc _ _ (numeral_pos x xs hx hx0) hcd, digitChar_of_isDigit hc]
      congr 1
      rw [← hr]
      exact ih r.reverse (by simp) (by rw [hr]; simp) hall.1 (.inr (by rw [hr]; simpa using hx0))

/-- What `parseDecimal` accepts is a decimal without superfluous zeros. -/
theorem parseDecimal_some {t : Text} {n : Nat} (h : parseDecimal t = some n) : t = decimal n := by
  simp only [parseDecimal] at h
  split_ifs at h with hc
  cases h
  exact decimal_of_digits t.reverse t rfl hc.1 hc.2.1 hc.2.2

/-- What `indexBetween` accepts is `pre`, a decimal, `suf`. -/
theorem indexBetween_some {pre suf t : Text} {n : Nat} (h : indexBetween pre suf t = some n) :
    t = pre ++ decimal n ++ suf := by
  simp only [indexBetween] at h
  split_ifs at h with hc
  rw [← parseDecimal_some h]
  exact hc

/-! ### Bytes and bit-strings given from outside -/

theorem byteOfInt_toNat (b : Byte) : byteOfInt (b.toNat : Int) = some b := by
  have := b.isLt
  rw [byteOfInt, if_pos (by omega)]
  congr 1; apply BitVec.eq_of_toNat_eq; simp

theorem bytesOfInts_toNat (l : List Byte) : bytesOfInts (l.map fun v => (v.toNat : Int)) = some l := by
  induction l with
  | nil => rfl
  | cons b l ih => simp [bytesOfInts, byteOfInt_toNat, ih]

/-- A number read as a Byte is that Byte's number (R20). -/
theorem byteOfInt_some {v : Int} {b : Byte} (h : byteOfInt v = some b) : v = b.toNat := by
  simp only [byteOfInt] at h
  split_ifs at h with hv
  cases h
  rw [BitVec.toNat_ofInt]; omega

/-- Numbers read as Bytes are those Bytes' numbers, one by one. -/
theorem bytesOfInts_some {l : List Int} {bs : List Byte} (h : bytesOfInts l = some bs) :
    l = bs.map fun v => (v.toNat : Int) := by
  induction l generalizing bs with
  | nil => cases h; rfl
  | cons v l ih =>
    simp only [bytesOfInts] at h
    split at h
    · cases h
      rename_i hb hbs
      rw [List.map_cons, ← ih hbs, ← byteOfInt_some hb]
    · cases h

theorem bitStringOfText_chars (x : BitString) :
    bitStringOfText (x.toList.map fun b => if b then '1' else '0') = some x := by
  have h : ∀ b0 b1 b2 b3 b4 b5 b6 b7 : Bool,
      bitStringOfText ([b0, b1, b2, b3, b4, b5, b6, b7].map fun b => if b then '1' else '0') =
        some #v[b0, b1, b2, b3, b4, b5, b6, b7] := by decide
  rw [bitString_eq x]
  exact h _ _ _ _ _ _ _ _

end Sys2Proof.Machine
end

