-- ==== Sys2Proof/Laws/Step.lean ====
section
/-!
SUPPORT. Once for the whole step: everything a request can do when it answers a next state. A proof about every step is a
case analysis of `Performed`, after `step_next`.
-/
namespace Sys2Proof.Machine

/-- What request `r` does to a state, from whose `inputs` it has been taken, when it completes: `Performed r s t`. -/
inductive Performed : Request → State → State → Prop where
  | alu (op : BitVec 4) (a b y : Byte) (f : FlagSet) (s : State) (hop : op.toNat < 10) :
      Performed (.aluPresent op a b) s (s.latchAlu y f)
  | aluGetResult (s : State) : Performed .aluGetResult s (s.answer (.byte s.alu.result))
  | aluGetFlags (s : State) : Performed .aluGetFlags s (s.answer (.flags s.alu.flags))
  | adder (ctl : BitVec 2) (a b : Byte) (m : AdderMode) (c : Calculation) (s : State) :
      Performed (.adderPresent ctl a b) s (s.deliverCalculation m c)
  | calculate (a b : Int) (operation mode : Text) (m : AdderMode) (c : Calculation) (s : State) :
      Performed (.calculate a b operation mode) s (s.deliverCalculation m c)
  | configure (mode : Text) (m : AdderMode) (s : State) : Performed (.configure mode) s { s with adderMode := m }
  | toBinary (v : Int) (mode : Text) (o : Output) (s : State) : Performed (.toBinary v mode) s (s.answer o)
  | fromBinary (bits mode : Text) (o : Output) (s : State) : Performed (.fromBinary bits mode) s (s.answer o)
  | addBinary (x y : Text) (o : Output) (s : State) : Performed (.addBinary x y) s (s.answer o)
  | twosComplement (bits : Text) (o : Output) (s : State) : Performed (.twosComplement bits) s (s.answer o)
  | step (s t : State) (h : sequencerStep s = .next t) : Performed .step s t
  | tick (s t : State) (h : timerTick s = .next t) : Performed .tick s t
  | run (s : State) : Performed .run s s.runCommand
  | toggleRunning (s : State) : Performed .toggleRunning s s.toggleCommand
  | pause (s : State) : Performed .pause s s.pauseCommand
  | reset (s : State) : Performed .reset s s.resetCommand
  | loadPreset (name : Text) (texts : List Text) (s : State) (hp : s.params.presets.lookup name = some texts)
      (hl : texts.length ≤ s.params.progMax) :
      Performed (.loadPreset name) s (s.loadProgram (texts.map Statement.ofText) (some name))
  | unknownPreset (name : Text) (s : State) (hp : s.params.presets.lookup name = none) :
      Performed (.loadPreset name) s (s.answer (.failure .unknownPreset))
  | assign (program : List Source) (s : State) (hne : program ≠ []) (hl : program.length ≤ s.params.progMax) :
      Performed (.assignProgram program) s (s.loadProgram (program.map Statement.ofSource) none)
  | assignEmpty (s : State) : Performed (.assignProgram []) s (s.answer (.failure .emptyProgram))
  | exportState (s : State) : Performed .exportState s (s.answer (.snapshot s.exported))
  | importState (r : RawSnapshot) (x : Snapshot) (s : State) (hx : r.check s.params = some x)
      (hl : x.microProgram.length ≤ s.params.progMax) :
      Performed (.importState r) s
        ((s.withDatapath x.state).loadProgram (x.microProgram.map Statement.ofText) x.presetName)
  | importMalformed (r : RawSnapshot) (s : State) (hx : r.check s.params = none) :
      Performed (.importState r) s (s.answer (.failure .malformedSnapshot))
  | pokeByte (f : ByteField) (v : Int) (b : Byte) (s : State) (hf : f.present s.params = true) (hb : byteOfInt v = some b) :
      Performed (.poke (.byte f v)) s (s.setByteField f b)
  | pokeAluFlag (n : FlagName) (v : Bool) (s : State) :
      Performed (.poke (.aluFlag n v)) s { s with aluFlags := setFlag s.aluFlags n v }
  | pokeFlag (n : FlagName) (v : Bool) (s : State) :
      Performed (.poke (.flag n v)) s { s with flags := setFlag s.flags n v }

/-- A request that completes does what `Performed` says. -/
theorem perform_next {r : Request} {s t : State} (h : perform r s = .next t) : Performed r s t := by
  cases r with
  | aluPresent op a b =>
    simp only [perform] at h
    rcases aluPresent_cases op a b s with ⟨ho, y, f, e⟩ | ⟨_, e⟩ <;> rw [e] at h <;> cases h
    exact .alu _ _ _ _ _ _ ho
  | aluGetResult => cases h; exact .aluGetResult _
  | aluGetFlags => cases h; exact .aluGetFlags _
  | adderPresent ctl a b =>
    obtain ⟨m, c, e⟩ := adderPresent_next ctl a b s
    rw [perform, e] at h; cases h; exact .adder _ _ _ _ _ _
  | calculate a b operation mode =>
    simp only [perform, performCalculate] at h
    split at h <;> try cases h
    split at h <;> try cases h
    · rename_i m _ _ _
      rcases execAdderAdd_cases m a b s with ⟨_, _, e⟩ | ⟨_, e⟩ <;> simp only [exec, e] at h <;> cases h
      exact .calculate _ _ _ _ _ _ _
    · rename_i m _ _ _
      rcases execAdderSub_cases m a b s with ⟨_, _, e⟩ | ⟨_, e⟩ <;> simp only [exec, e] at h <;> cases h
      exact .calculate _ _ _ _ _ _ _
  | configure mode =>
    simp only [perform, performConfigure] at h
    split at h <;> cases h; exact .configure _ _ _
  | toBinary v mode =>
    simp only [perform, performToBinary] at h
    split at h <;> try cases h
    split at h <;> cases h; exact .toBinary _ _ _ _
  | fromBinary bits mode =>
    simp only [perform, performFromBinary] at h
    split at h <;> try cases h
    split at h <;> cases h; exact .fromBinary _ _ _ _
  | addBinary x y =>
    simp only [perform, performAddBinary] at h
    split at h <;> cases h; exact .addBinary _ _ _ _
  | twosComplement bits =>
    simp only [perform, performTwosComplement] at h
    split at h <;> cases h; exact .twosComplement _ _ _
  | step => exact .step _ _ h
  | tick => exact .tick _ _ h
  | run => cases h; exact .run _
  | toggleRunning => cases h; exact .toggleRunning _
  | pause => cases h; exact .pause _
  | reset => cases h; exact .reset _
  | loadPreset name =>
    simp only [perform, performLoadPreset] at h
    split at h
    · obtain ⟨hl, rfl⟩ := performLoad_next h
      exact .loadPreset _ _ _ ‹_› (by simpa using hl)
    · cases h; exact .unknownPreset _ _ ‹_›
  | assignProgram program =>
    simp only [perform, performAssign] at h
    split_ifs at h with hp hw
    · cases h; subst hp; exact .assignEmpty _
    · obtain ⟨hl, rfl⟩ := performLoad_next h
      exact .assign _ _ hp (by simpa using hl)
  | exportState => cases h; exact .exportState _
  | importState x =>
    simp only [perform, performImport] at h
    split at h
    · obtain ⟨hl, rfl⟩ := performLoad_next h
      exact .importState _ _ _ ‹_› (by simpa using hl)
    · cases h; exact .importMalformed _ _ ‹_›
  | poke p =>
    simp only [perform] at h
    cases p with
    | byte f v =>
      simp only [performPoke] at h
      split_ifs at h with hf
      split at h <;> cases h; exact .pokeByte _ _ _ _ hf ‹_›
    | aluFlag n v => cases h; exact .pokeAluFlag _ _ _
    | flag n v => cases h; exact .pokeFlag _ _ _
    | locked f v => cases h

/-- Everything a step that completes can do: the first waiting request performed, or, with none waiting, a tick. -/
theorem step_next {s t : State} (h : step s = .next t) :
    (∃ r rest, s.inputs = r :: rest ∧ Performed r (s.take rest) t) ∨ (s.inputs = [] ∧ timerTick s = .next t) := by
  cases hi : s.inputs with
  | nil => exact .inr ⟨rfl, by rwa [step, step_nil hi] at h⟩
  | cons r rest => exact .inl ⟨r, rest, rfl, perform_next (by rwa [step, step_cons hi] at h)⟩

/-- `step()` that completes: the fetched statement executed and retired, or the wrap step (R200). -/
theorem sequencerStep_next {s t : State} (h : sequencerStep s = .next t) :
    (∃ stmt u, s.fetch = some stmt ∧ s.currentStep < s.microProgram.length ∧ exec stmt.uop.toInstr s = .next u ∧
      t = u.retire stmt) ∨ (s.microProgram.length ≤ s.currentStep ∧ t = s.wrap) := by
  rcases sequencerStep_cases s with ⟨stmt, u, hf, hl, he, e⟩ | ⟨hl, e⟩ <;> rw [e] at h <;> cases h
  · exact .inl ⟨stmt, u, hf, hl, he, rfl⟩
  · exact .inr ⟨hl, rfl⟩

/-- A tick that completes: one `step()` while the timer is armed, nothing otherwise (R206). -/
theorem timerTick_next {s t : State} (h : timerTick s = .next t) :
    (s.timerActive = true ∧ sequencerStep s = .next t) ∨ (s.timerActive = false ∧ t = s) := by
  rcases timerTick_cases s with ⟨ha, e⟩ | ⟨ha, e⟩ <;> rw [e] at h
  · exact .inl ⟨ha, h⟩
  · cases h; exact .inr ⟨ha, rfl⟩

/-- A Byte field of a checked datapath is present and holds the number of a Byte. -/
theorem byteField_some {α : Type} {o : Option Int} {f : Byte → Option α} {y : α}
    (h : (o >>= fun v => byteOfInt v >>= f) = some y) : ∃ b : Byte, o = some (b.toNat : Int) ∧ f b = some y := by
  obtain ⟨v, hv, h⟩ := Option.bind_eq_some_iff.mp h
  obtain ⟨b, hb, h⟩ := Option.bind_eq_some_iff.mp h
  exact ⟨b, by rw [hv, byteOfInt_some hb], h⟩

/-- The same for a list of Bytes. -/
theorem bytesField_some {α : Type} {o : Option (List Int)} {f : List Byte → Option α} {y : α}
    (h : (o >>= fun l => bytesOfInts l >>= f) = some y) :
    ∃ bs : List Byte, o = some (bs.map fun b => (b.toNat : Int)) ∧ f bs = some y := by
  obtain ⟨l, hl, h⟩ := Option.bind_eq_some_iff.mp h
  obtain ⟨bs, hb, h⟩ := Option.bind_eq_some_iff.mp h
  exact ⟨bs, by rw [hl, bytesOfInts_some hb], h⟩

/-- A datapath passes the check of `importState` exactly as the data of one of the instance's sizes (R212, D29). -/
theorem RawDatapath.check_eq_some {p : Params} {r : RawDatapath} {d : Datapath} :
    r.check p = some d ↔ r = d.toRaw ∧ d.registers.length = p.nregs ∧ d.memory.length = p.memSize := by
  constructor
  · intro h
    obtain ⟨_, registers, h⟩ := bytesField_some h
    obtain ⟨_, pc, h⟩ := byteField_some h
    obtain ⟨_, ir, h⟩ := byteField_some h
    obtain ⟨_, mar, h⟩ := byteField_some h
    obtain ⟨_, mdr, h⟩ := byteField_some h
    obtain ⟨_, busA, h⟩ := byteField_some h
    obtain ⟨_, busB, h⟩ := byteField_some h
    obtain ⟨_, aluResult, h⟩ := byteField_some h
    obtain ⟨_, aluFlags, h⟩ := Option.bind_eq_some_iff.mp h
    obtain ⟨_, flags, h⟩ := Option.bind_eq_some_iff.mp h
    obtain ⟨_, memory, h⟩ := bytesField_some h
    obtain ⟨hs, h⟩ := Option.ite_none_right_eq_some.mp h
    cases h
    refine ⟨?_, hs⟩
    cases r
    simp only at registers pc ir mar mdr busA busB aluResult aluFlags flags memory
    simp only [Datapath.toRaw, registers, pc, ir, mar, mdr, busA, busB, aluResult, aluFlags, flags, memory]
  · rintro ⟨rfl, hr, hm⟩
    simp only [RawDatapath.check, Datapath.toRaw, bind, Option.bind_some, byteOfInt_toNat, bytesOfInts_toNat]
    exact if_pos ⟨hr, hm⟩

/-- A snapshot passes the check of `importState` exactly as the data of one with a program and of the instance's sizes
(R212, D29). -/
theorem RawSnapshot.check_eq_some {p : Params} {r : RawSnapshot} {x : Snapshot} :
    r.check p = some x ↔ r = x.toRaw ∧ x.microProgram ≠ [] ∧ x.state.registers.length = p.nregs ∧
      x.state.memory.length = p.memSize := by
  constructor
  · intro h
    cases r with
    | badJson => cases h
    | fields texts d n =>
      simp only [RawSnapshot.check] at h
      split at h <;> try cases h
      split at h <;> try cases h
      split_ifs at h with hne
      cases h
      obtain ⟨rfl, hs⟩ := RawDatapath.check_eq_some.mp ‹_›
      exact ⟨rfl, hne, hs⟩
  · rintro ⟨rfl, hne, hs⟩
    simp only [Snapshot.toRaw, RawSnapshot.check, RawDatapath.check_eq_some.mpr ⟨rfl, hs⟩]
    exact if_neg hne

end Sys2Proof.Machine
end

