-- ==== Sys2Proof/Tests/Slice0.lean ====
section
/-!
SUPPORT. The model's own tests. Expected values come from spec/ alone: the rules' examples and corner cases, and the
vectors of 95_test_vectors.md (S, M and H rows and the tables of its sections 2, 3 and 7), named in each docstring. The
last part shows, for every statement of Certificates/Slice0/Obligations.lean that has hypotheses, states and operands that
meet them.
-/
namespace Sys2Proof.Tests
open Sys2Proof Sys2Proof.Machine

/-! ### Helpers -/

/-- A field of the next state; none where the step stops. -/
def after {α : Type} (o : Host.Outcome State Fault Refusal) (f : State → α) : Option α :=
  match o with
  | .next t => some (f t)
  | .fault _ => none
  | .refused _ => none

/-- The refusal; none where the step goes on. -/
def stop (o : Host.Outcome State Fault Refusal) : Option Refusal :=
  match o with
  | .next _ => none
  | .fault _ => none
  | .refused r => some r

/-- Legal parameters with a small memory, the one preset the spec names, and room for four statements. -/
def params : Params where
  memSize := 16
  nregs := 4
  clockInterval := 0
  resetClearsMem := false
  adderSubOvfSign := .flipB
  progMax := 4
  presets := [(Config.fetchDecodeExecuteName, Config.fetchDecodeExecuteTexts)]

/-- The other reading of the adder's overflow rule, and a `reset()` that clears memory. -/
def otherParams : Params := { params with adderSubOvfSign := .msbOfNegatedB, resetClearsMem := true }

/-- The power-on state with a latch and a mode written, so that nothing open is read. -/
def small : State := { State.powerOn params with alu := ⟨0x5A#8, true, false, true, false⟩, adderMode := .unsigned }

/-- `small` with requests waiting. -/
def asked (l : List Request) : State := { small with inputs := l }

/-- A two-statement program, the second one UNKNOWN. -/
def program : List Statement := [⟨.unknown, "NOP".toList⟩, ⟨.marPc, "MAR ← PC".toList⟩]

/-- `small` with that program loaded and requests waiting. -/
def loaded (l : List Request) : State := { small with microProgram := program, inputs := l }

/-- The latch after an ALU operation. -/
def latch (i : Instr) : Option (Byte × FlagSet) := after (exec i small) fun t => (t.alu.result, t.alu.flags)

/-- Result Byte, decimal result and flags of an adder operation. -/
def sum (p : Params) (i : Instr) : Option (Nat × Int × FlagSet) :=
  match after (exec i { small with params := p }) (·.output) with
  | some (.calculation r) => some (bitsVal r.resultBits, r.resultDecimal, r.flags)
  | _ => none

/-! ### Well-formedness: an ill-formed term for each check -/

/-- R156, `toBinary(256, unsigned)` refused. -/
theorem test_wf_first_operand :
    Instr.firstOperandLegal (.adderAdd .unsigned 256 0) = false ∧
    Instr.secondOperandLegal (.adderAdd .unsigned 256 0) = true :=
  by decide

/-- R156, `toBinary(128, twos-complement)` refused. -/
theorem test_wf_second_operand :
    Instr.firstOperandLegal (.adderSub .twosComplement 0 128) = true ∧
    Instr.secondOperandLegal (.adderSub .twosComplement 0 128) = false :=
  by decide

/-- R87: the word form has four index bits. -/
theorem test_wf_index : Instr.indexFits (.rAlu 16) = false ∧ Instr.indexFits (.rAlu 15) = true := by decide

/-- R8: MEM_SIZE is 1 to 256. -/
theorem test_wf_mem_size :
    Params.memSizeLegal { params with memSize := 0 } = false ∧
    Params.memSizeLegal { params with memSize := 257 } = false :=
  by decide

/-- R8: NREGS is 1 or more. -/
theorem test_wf_nregs : Params.nregsLegal { params with nregs := 0 } = false := by decide

/-- R8: PROG_MAX is 1 or more. -/
theorem test_wf_prog_max : Params.progMaxLegal { params with progMax := 0 } = false := by decide

/-- U13: `fetch-decode-execute` is a preset, and none is empty. -/
theorem test_wf_presets : Params.presetsLegal { params with presets := [] } = false ∧
    Params.presetsLegal { params with presets := params.presets ++ [("p".toList, [])] } = false := by decide

/-- The canonical form: rising addresses, no listed 0. -/
theorem test_wf_memory :
    ¬Memory.wf [(1, 1#8), (0, 2#8)] ∧ ¬Memory.wf [(3, 0#8)] ∧ Memory.wf [(0, 7#8), (3, 9#8)] :=
  by decide

/-- The parameters of these tests are legal, and an instance with illegal ones is refused. -/
theorem test_wf_params : params.WellFormed ∧ otherParams.WellFormed ∧
    stop (create { params with nregs := 0 }) = some .illegalParameters := by decide

/-! ### Decoding, one word for every constructor, from R82, R83 and R88 -/

theorem test_decode_and : decode (.alu 0b0000#4 0xF0#8 0x3C#8) = .ok (.and 0xF0#8 0x3C#8) := by decide

theorem test_decode_or : decode (.alu 0b0001#4 0xF0#8 0x3C#8) = .ok (.or 0xF0#8 0x3C#8) := by decide

theorem test_decode_xor : decode (.alu 0b0010#4 0xF0#8 0x3C#8) = .ok (.xor 0xF0#8 0x3C#8) := by decide

theorem test_decode_not : decode (.alu 0b0011#4 0xF0#8 0x3C#8) = .ok (.not 0xF0#8) := by decide

theorem test_decode_add : decode (.alu 0b0100#4 0xF0#8 0x3C#8) = .ok (.add 0xF0#8 0x3C#8) := by decide

theorem test_decode_sub : decode (.alu 0b0101#4 0xF0#8 0x3C#8) = .ok (.sub 0xF0#8 0x3C#8) := by decide

theorem test_decode_inc : decode (.alu 0b0110#4 0xF0#8 0x3C#8) = .ok (.inc 0xF0#8) := by decide

theorem test_decode_dec : decode (.alu 0b0111#4 0xF0#8 0x3C#8) = .ok (.dec 0xF0#8) := by decide

theorem test_decode_shl : decode (.alu 0b1000#4 0xF0#8 0x3C#8) = .ok (.shl 0xF0#8) := by decide

theorem test_decode_shr : decode (.alu 0b1001#4 0xF0#8 0x3C#8) = .ok (.shr 0xF0#8) := by decide

theorem test_decode_adder_add :
    decode (.adder 0b00#2 0b11111111#8 0b00000001#8) = .ok (.adderAdd .unsigned 255 1) :=
  by decide

theorem test_decode_adder_add_signed :
    decode (.adder 0b01#2 0b11111111#8 0b00000001#8) = .ok (.adderAdd .twosComplement (-1) 1) :=
  by decide

theorem test_decode_adder_sub :
    decode (.adder 0b10#2 0b00000101#8 0b10000000#8) = .ok (.adderSub .unsigned 5 128) :=
  by decide

theorem test_decode_adder_sub_signed :
    decode (.adder 0b11#2 0b00000101#8 0b10000000#8) = .ok (.adderSub .twosComplement 5 (-128)) :=
  by decide

theorem test_decode_mar_pc : decode (.uop 0b00010000#8) = .ok (.marPc) := by decide

theorem test_decode_mdr_mem : decode (.uop 0b00100000#8) = .ok (.mdrMem) := by decide

theorem test_decode_ir_mdr : decode (.uop 0b00110000#8) = .ok (.irMdr) := by decide

theorem test_decode_pc_inc : decode (.uop 0b01000000#8) = .ok (.pcInc) := by decide

theorem test_decode_a_r : decode (.uop 0b01011001#8) = .ok (.aR 9) := by decide

theorem test_decode_b_r : decode (.uop 0b01100110#8) = .ok (.bR 6) := by decide

theorem test_decode_alu_add : decode (.uop 0b01110000#8) = .ok (.aluAdd) := by decide

theorem test_decode_alu_sub : decode (.uop 0b10000000#8) = .ok (.aluSub) := by decide

theorem test_decode_alu_and : decode (.uop 0b10010000#8) = .ok (.aluAnd) := by decide

theorem test_decode_r_alu : decode (.uop 0b10101100#8) = .ok (.rAlu 12) := by decide

theorem test_decode_flags_alu : decode (.uop 0b10110000#8) = .ok (.flagsAlu) := by decide

theorem test_decode_mem_mdr : decode (.uop 0b11000000#8) = .ok (.memMdr) := by decide

theorem test_decode_unknown : decode (.uop 0b00000000#8) = .ok (.unknown) := by decide

/-- R89 (a): `0x11`, `0x7F`, `0x0F` and `0xD5` are UNKNOWN. -/
theorem test_decode_reserved_words :
    decodeUop 0x11#8 = .unknown ∧ decodeUop 0x7F#8 = .unknown ∧ decodeUop 0x0F#8 = .unknown ∧
    decodeUop 0xD5#8 = .unknown :=
  by decide

/-- R89 (b): the first and the last reserved code. -/
theorem test_decode_reserved_alu : decode (.alu 0b1010#4 1#8 2#8) = .error (.reservedAluOp 0b1010#4) ∧
    decode (.alu 0b1111#4 1#8 2#8) = .error (.reservedAluOp 0b1111#4) := by decide

/-- Words as the opcode table numbers them. -/
theorem test_table_words :
    decodeTableWord 8 0x53 = some (.aR 3) ∧ decodeTableWord 8 9 = some (.shr 0#8) ∧
    decodeTableWord 4 0 = some (.and 0#8 0#8) ∧
    decodeTableWord 2 3 = some (.adderSub .twosComplement 0 0) ∧ decodeTableWord 8 0 = some .unknown ∧
    decodeTableWord 4 10 = none ∧ decodeTableWord 16 0 = none :=
  by decide

/-- M29, and the example of R85: letter case is ignored. -/
theorem test_parse_case :
    parseUop "mar ← pc".toList = .marPc ∧ parseUop "flags ← alu.FLAGS".toList = .flagsAlu ∧
    parseUop "r[12] ← alu".toList = .rAlu 12 :=
  by decide

/-- M28, M30 and D24: other operations, spellings and leading zeros are UNKNOWN. -/
theorem test_parse_unknown :
    parseUop "NOP".toList = .unknown ∧ parseUop "ALU ← A | B".toList = .unknown ∧
    parseUop "MAR <- PC".toList = .unknown ∧
    parseUop "A ← R[01]".toList = .unknown ∧ parseUop "A ← R[]".toList = .unknown ∧ parseUop [] = .unknown :=
  by decide

/-! ### The ALU Engine (95_test_vectors.md section 2) -/

theorem test_alu_and : latch (.and 0xFF#8 0x80#8) = some (0x80#8, ⟨false, true, false, false⟩) := by decide

theorem test_alu_or : latch (.or 0x12#8 0x34#8) = some (0x36#8, ⟨false, false, false, false⟩) := by decide

theorem test_alu_xor : latch (.xor 0xFF#8 0xFF#8) = some (0x00#8, ⟨true, false, false, false⟩) := by decide

theorem test_alu_not : latch (.not 0x0F#8) = some (0xF0#8, ⟨false, true, false, false⟩) := by decide

theorem test_alu_add : latch (.add 100#8 50#8) = some (0x96#8, ⟨false, true, false, true⟩) := by decide

theorem test_alu_add_both : latch (.add 0x80#8 0x80#8) = some (0x00#8, ⟨true, false, true, true⟩) := by decide

theorem test_alu_sub : latch (.sub 0x7F#8 0xFF#8) = some (0x80#8, ⟨false, true, true, true⟩) := by decide

theorem test_alu_sub_signed : latch (.sub 0x80#8 0x7F#8) = some (0x01#8, ⟨false, false, false, true⟩) := by decide

theorem test_alu_inc : latch (.inc 255#8) = some (0x00#8, ⟨true, false, true, false⟩) := by decide

theorem test_alu_inc_signed : latch (.inc 127#8) = some (0x80#8, ⟨false, true, false, true⟩) := by decide

theorem test_alu_dec : latch (.dec 0#8) = some (0xFF#8, ⟨false, true, true, false⟩) := by decide

theorem test_alu_dec_signed : latch (.dec 128#8) = some (0x7F#8, ⟨false, false, false, true⟩) := by decide

theorem test_alu_shl : latch (.shl 0xC0#8) = some (0x80#8, ⟨false, true, true, false⟩) := by decide

theorem test_alu_shl_sign : latch (.shl 0x40#8) = some (0x80#8, ⟨false, true, false, false⟩) := by decide

theorem test_alu_shr : latch (.shr 43#8) = some (0x15#8, ⟨false, false, true, false⟩) := by decide

theorem test_alu_shr_logical : latch (.shr 0x80#8) = some (0x40#8, ⟨false, false, false, false⟩) := by decide

/-! ### The Bit-Serial Adder (section 3.4) -/

theorem test_adder_add_signed :
    sum params (.adderAdd .twosComplement 100 50) = some (150, -106, ⟨false, true, false, true⟩) :=
  by decide

theorem test_adder_add_unsigned :
    sum params (.adderAdd .unsigned 255 1) = some (0, 0, ⟨true, false, true, true⟩) :=
  by decide

theorem test_adder_sub_unsigned :
    sum params (.adderSub .unsigned 3 5) = some (254, 254, ⟨false, false, false, false⟩) :=
  by decide

/-- The row `0 - (-128)` under both values of ADDER_SUB_OVF_SIGN. -/
theorem test_adder_sub_flip_b :
    sum params (.adderSub .twosComplement 0 (-128)) = some (128, -128, ⟨false, true, false, true⟩) ∧
    sum otherParams (.adderSub .twosComplement 0 (-128)) = some (128, -128, ⟨false, true, false, false⟩) :=
  by decide

/-- Section 3.2. -/
theorem test_adder_twos_complement :
    [0, 1, 100, 128, 255].map (fun v => bitsVal (twosComplement (str8 (BitVec.ofNat 8 v)))) = [0, 255, 156, 128, 1] :=
  by decide

/-! ### Micro-operations (section 4) -/

/-- M1. -/
theorem test_uop_mar_pc : after (exec (.marPc) { small with pc := 5#8 }) (·.mar) = some (5#8) := by decide

/-- M2. -/
theorem test_uop_mdr_mem :
    after (exec (.mdrMem) { small with mar := 3#8, mem := [(3, 0x9A#8)] }) (·.mdr) = some (0x9A#8) :=
  by decide

/-- M3. -/
theorem test_uop_mdr_mem_out :
    after (exec (.mdrMem) { small with mar := 16#8, mdr := 0x55#8 }) (·.mdr) = some (0#8) :=
  by decide

/-- M4. -/
theorem test_uop_ir_mdr : after (exec (.irMdr) { small with mdr := 7#8 }) (·.ir) = some (7#8) := by decide

/-- M7. -/
theorem test_uop_pc_inc : after (exec (.pcInc) { small with pc := 15#8 }) (·.pc) = some (0#8) := by decide

/-- M8. -/
theorem test_uop_pc_inc_out : after (exec (.pcInc) { small with pc := 200#8 }) (·.pc) = some (9#8) := by decide

/-- M9. -/
theorem test_uop_a_r :
    after (exec (.aR 3) { small with regs := [0#8, 1#8, 2#8, 0x42#8] }) (fun t => (t.busA, t.busB)) =
      some (0x42#8, 0#8) :=
  by decide

/-- M10. -/
theorem test_uop_a_r_out : after (exec (.aR 9) { small with busA := 0x42#8 }) (·.busA) = some (0#8) := by decide

/-- M11. -/
theorem test_uop_b_r :
    after (exec (.bR 0) { small with regs := [200#8, 1#8, 2#8, 3#8] }) (fun t => (t.busA, t.busB)) =
      some (0#8, 200#8) :=
  by decide

/-- M14: no `V`, ever; `flags` unchanged. -/
theorem test_uop_alu_add :
    after (exec (.aluAdd) { small with busA := 128#8, busB := 128#8 }) (fun t => (t.aluResult, t.aluFlags, t.flags)) =
      some (0#8, ⟨true, false, true, false⟩, FlagSet.clear) :=
  by decide

/-- M12. -/
theorem test_uop_alu_add_signed :
    after (exec (.aluAdd) { small with busA := 100#8, busB := 50#8 }) (fun t => (t.aluResult, t.aluFlags, t.flags)) =
      some (150#8, ⟨false, true, false, false⟩, FlagSet.clear) :=
  by decide

/-- M16: no borrow flag. -/
theorem test_uop_alu_sub :
    after (exec (.aluSub) { small with busA := 5#8, busB := 7#8 }) (fun t => (t.aluResult, t.aluFlags, t.flags)) =
      some (254#8, ⟨false, true, false, false⟩, FlagSet.clear) :=
  by decide

/-- M22. -/
theorem test_uop_alu_and :
    after (exec (.aluAnd) { small with busA := 0xFF#8, busB := 0x80#8 }) (fun t => (t.aluResult, t.aluFlags, t.flags)) =
      some (0x80#8, ⟨false, true, false, false⟩, FlagSet.clear) :=
  by decide

/-- M23. -/
theorem test_uop_r_alu :
    after (exec (.rAlu 2) { small with aluResult := 44#8 }) (·.regs) = some ([0#8, 0#8, 44#8, 0#8]) :=
  by decide

/-- M24. -/
theorem test_uop_r_alu_out :
    after (exec (.rAlu 12) { small with aluResult := 44#8 }) (·.regs) = some ([0#8, 0#8, 0#8, 0#8]) :=
  by decide

/-- M25. -/
theorem test_uop_flags_alu :
    after (exec (.flagsAlu) { small with aluFlags := ⟨false, false, true, false⟩, flags := ⟨false, true, false, false⟩ }) (·.flags) =
      some (⟨false, false, true, false⟩) :=
  by decide

/-- M26, beside a cell that stays. -/
theorem test_uop_mem_mdr :
    after (exec (.memMdr) { small with mar := 4#8, mdr := 0xAB#8, mem := [(0, 7#8)] }) (·.mem) =
      some ([(0, 7#8), (4, 0xAB#8)]) :=
  by decide

/-- M27. -/
theorem test_uop_mem_mdr_out :
    after (exec (.memMdr) { small with mar := 200#8, mdr := 0xAB#8, mem := [(0, 7#8)] }) (·.mem) =
      some ([(0, 7#8)]) :=
  by decide

/-! ### One step of the machine -/

/-- M28: the trace entry of UNKNOWN, and no other change. -/
theorem test_step_unknown :
    after (step (loaded [.step])) (fun t => (t.trace, t.currentStep)) =
      some ([⟨0, "NOP".toList, "Unknown operation".toList⟩], 1) ∧
    after (step (loaded [.step])) (fun t => (t.regs, t.mem, t.runState)) = some (small.regs, small.mem, .idle) := by
  decide

/-- M1 with R201: the last statement completes the run and stops the timer; the text is "MAR = 5". -/
theorem test_step_end :
    after (step { loaded [.tick] with currentStep := 1, pc := 5#8, runState := .running, timerActive := true })
      (fun t => (t.mar, t.trace, t.currentStep, t.runState, t.timerActive)) =
    some (5#8, [⟨1, "MAR ← PC".toList, "MAR = 5".toList⟩], 2, .completed, false) :=
  by decide

/-- P1, call 5: the wrap step only rewinds. -/
theorem test_step_wrap :
    after (step { loaded [.step] with currentStep := 2, runState := .completed }) (fun t => (t.currentStep, t.trace, t.runState)) =
    some (0, [], .completed) :=
  by decide

/-- S9: loading the preset of the source. -/
theorem test_step_preset :
    after (step (asked [.loadPreset Config.fetchDecodeExecuteName])) (fun t => t.microProgram.map Statement.uop) =
    some [.marPc, .mdrMem, .irMdr, .pcInc] :=
  by decide

/-- P4, R209: a program given as words, with the text of a reserved word. -/
theorem test_step_words : after (step (asked [.assignProgram [.word 0x40#8, .word 0xD5#8]])) (·.microProgram) =
    some [⟨.pcInc, "PC ← PC + 1".toList⟩, ⟨.unknown, "0xD5".toList⟩] := by decide

/-- U22: a program longer than PROG_MAX. -/
theorem test_step_too_long :
    stop (step (asked [.assignProgram (List.replicate 5 (.variant .marPc))])) = some .programTooLong :=
  by decide

/-- U3: a reserved code. -/
theorem test_step_reserved_alu :
    stop (step (asked [.aluPresent 0b1010#4 1#8 2#8])) = some (.aluReservedOp 0b1010#4) :=
  by decide

/-- D34: a bit-string of seven characters. -/
theorem test_step_bad_bits :
    stop (step (asked [.fromBinary "0000000".toList "unsigned".toList])) = some .adderMalformedBits :=
  by decide

/-- `withFetchWord` runs exactly the instruction of a table word. -/
theorem test_step_fetch_word :
    after (step (small.withFetchWord 8 0x40)) (fun t => (t.pc, t.currentStep)) = some (1#8, 1) ∧
    after (step (small.withFetchWord 8 9)) (·.alu.result) = some 0#8 :=
  by decide

/-! ### The hypotheses of the statements are met

One theorem for each statement of Certificates/Slice0/Obligations.lean that has hypotheses, one conjunct for each of its
clauses, at the ends of the ranges it names. -/

/-- `small` satisfies the invariant. -/
theorem small_inv : small.Inv where
  params_legal := by decide
  regs_length := by decide
  mem_wf := by decide
  mem_within := by decide
  step_within := by decide
  program_fits := by decide
  timer_running := by decide
  not_exhausted := by decide
  running_loaded := by decide
  texts_parse := by decide

/-- So does a state that is running the two-statement program. -/
def running (l : List Request) : State := { loaded l with runState := .running, timerActive := true }

theorem running_inv (l : List Request) : (running l).Inv where
  params_legal := (by decide : params.WellFormed)
  regs_length := (by decide : small.regs.length = params.nregs)
  mem_wf := (by decide : Memory.wf small.mem)
  mem_within := (by decide : ∀ c ∈ small.mem, c.1 < params.memSize)
  step_within := Nat.zero_le _
  program_fits := (by decide : program.length ≤ params.progMax)
  timer_running := rfl
  not_exhausted := fun _ _ => (by decide : 0 < program.length)
  running_loaded := fun _ => (by decide : program ≠ [])
  texts_parse := (by decide : ∀ st ∈ program, parseUop st.text = st.uop)

theorem test_hyp_AluZeroAndNegativeFromReturnedByte :
    (Instr.and 0#8 0#8).space = .aluOp ∧ (Instr.shr 255#8).space = .aluOp :=
  by decide

theorem test_hyp_AluIgnoresOldLatch :
    (Instr.add 0#8 0#8).space = .aluOp ∧ (Instr.not 255#8).space = .aluOp :=
  by decide

theorem test_hyp_AluReservedCodesRefused :
    (asked [.aluPresent 9#4 1#8 2#8]).inputs = .aluPresent 9#4 1#8 2#8 :: [] ∧ (9#4).toNat < 10 ∧
    (asked [.aluPresent 10#4 1#8 2#8]).inputs = .aluPresent 10#4 1#8 2#8 :: [] ∧ 10 ≤ (10#4).toNat ∧
    10 ≤ (15#4).toNat :=
  by decide

theorem test_hyp_AluAccessorsReturnLatch :
    (asked [.aluGetResult]).inputs = .aluGetResult :: [] ∧ (asked [.aluGetFlags]).inputs = .aluGetFlags :: [] :=
  by decide

theorem test_hyp_AdderRoundTripAndInvolution :
    inLegalRange .unsigned 0 = true ∧ inLegalRange .unsigned 255 = true ∧
    inLegalRange .twosComplement (-128) = true ∧ inLegalRange .twosComplement 127 = true :=
  by decide

theorem test_hyp_AdderAddResult :
    inLegalRange .unsigned 0 = true ∧ inLegalRange .unsigned 255 = true ∧
    inLegalRange .twosComplement (-128) = true ∧ inLegalRange .twosComplement 127 = true :=
  by decide

theorem test_hyp_AdderDecimalResultIsExact :
    inLegalRange .unsigned 0 = true ∧ inLegalRange .unsigned 255 = true ∧
    inLegalRange .twosComplement (-128) = true ∧ inLegalRange .twosComplement 127 = true :=
  by decide

theorem test_hyp_AdderSubResult :
    inLegalRange .unsigned 0 = true ∧ inLegalRange .unsigned 255 = true ∧
    inLegalRange .twosComplement (-128) = true ∧ inLegalRange .twosComplement 127 = true ∧
    params.adderSubOvfSign = .flipB ∧ otherParams.adderSubOvfSign = .msbOfNegatedB :=
  by decide

theorem test_hyp_OverflowSignReadingsDifferOnce :
    bitsVal (str8 128#8) = 128 ∧ bitsVal (str8 127#8) ≠ 128 :=
  by decide

theorem test_hyp_AdderTwosComplementAddAgreesWithAlu :
    inLegalRange .twosComplement (-128) = true ∧ inLegalRange .twosComplement 127 = true :=
  by decide

theorem test_hyp_AdderRefusesIllegalOperands :
    ¬(inLegalRange .unsigned 256 = true ∧ inLegalRange .unsigned 0 = true) ∧
    ¬(inLegalRange .unsigned 0 = true ∧ inLegalRange .unsigned (-1) = true) ∧
    ¬(inLegalRange .twosComplement 128 = true ∧ inLegalRange .twosComplement (-129) = true) :=
  by decide

theorem test_hyp_AdderHelpersAnswer :
    (asked [.toBinary (-128) "twos-complement".toList]).inputs = .toBinary (-128) "twos-complement".toList :: [] ∧
    parseMode "twos-complement".toList = some .twosComplement ∧ inLegalRange .twosComplement (-128) = true ∧
    parseMode "unsigned".toList = some .unsigned ∧ inLegalRange .unsigned 255 = true ∧
    (asked [.fromBinary "10000000".toList "unsigned".toList]).inputs =
      .fromBinary ((str8 128#8).toList.map fun b => if b then '1' else '0') "unsigned".toList :: [] ∧
    (asked [.addBinary "11111111".toList "00000001".toList]).inputs =
      .addBinary ((str8 255#8).toList.map fun b => if b then '1' else '0')
        ((str8 1#8).toList.map fun b => if b then '1' else '0') :: [] ∧
    (asked [.twosComplement "10000000".toList]).inputs =
      .twosComplement ((str8 128#8).toList.map fun b => if b then '1' else '0') :: [] :=
  by decide

theorem test_hyp_ConfigureWritesModeOnly :
    (asked [.configure "unsigned".toList]).inputs = .configure "unsigned".toList :: [] ∧
    (asked [.configure "twos-complement".toList]).inputs = .configure "twos-complement".toList :: [] ∧
    (asked [.configure "signed".toList]).inputs = .configure "signed".toList :: [] ∧
    "signed".toList ≠ "unsigned".toList ∧ "signed".toList ≠ "twos-complement".toList :=
  by decide

theorem test_hyp_PcIncResult :
    Params.memSizeLegal { params with memSize := 1 } = true ∧
    Params.memSizeLegal { params with memSize := 256 } = true :=
  by decide

theorem test_hyp_RAluResult :
    small.regs.length = small.params.nregs ∧ 3 < small.params.nregs ∧ small.params.nregs ≤ 4 :=
  by decide

theorem test_hyp_MemMdrResult :
    Memory.wf small.mem ∧ Memory.wf [(0, 7#8), (15, 1#8)] ∧
    ({ small with mar := 15#8 } : State).mar.toNat < small.params.memSize ∧
    small.params.memSize ≤ ({ small with mar := 16#8 } : State).mar.toNat :=
  by decide

theorem test_hyp_UnknownIsRecordedNoOperation :
    (loaded [.step]).inputs = .step :: [] ∧ (loaded [.step]).microProgram[0]? = some ⟨.unknown, "NOP".toList⟩ ∧
    (loaded [.step]).currentStep + 1 < (loaded [.step]).microProgram.length :=
  by decide

theorem test_hyp_UopFrameRule :
    Uop.marPc ≠ .aluAdd ∧ Uop.marPc ≠ .aluSub ∧ Uop.marPc ≠ .aluAnd ∧ Uop.unknown ≠ .marPc :=
  by decide

theorem test_hyp_InterpreterOverflowStaysClear :
    ((∀ p rest, (loaded [.step]).inputs ≠ .poke p :: rest) ∧
    (∀ x rest, (loaded [.step]).inputs ≠ .importState x :: rest) ∧
      (loaded [.step]).aluFlags.overflow = false ∧ (loaded [.step]).flags.overflow = false ∧
      ∃ t, step (loaded [.step]) = .next t) ∧
    (∀ p rest, (running []).inputs ≠ .poke p :: rest) ∧ (∀ x rest, (running []).inputs ≠ .importState x :: rest) ∧
    (running []).aluFlags.overflow = false ∧ (running []).flags.overflow = false ∧ ∃ t, step (running []) = .next t :=
  ⟨⟨by simp [loaded], by simp [loaded], rfl, rfl, _, rfl⟩, by simp [running, loaded], by simp [running, loaded], rfl, rfl,
    _, rfl⟩

theorem test_hyp_StepRunsFetchedStatement :
    (loaded [.step]).inputs = .step :: [] ∧
    (loaded [.step]).microProgram[(loaded [.step]).currentStep]? = some ⟨.unknown, "NOP".toList⟩ :=
  by decide

theorem test_hyp_StepRunsDecodedInstruction :
    decode (.alu 9#4 1#8 2#8) = .ok (.shr 1#8) ∧
    (asked [.aluPresent 9#4 1#8 2#8]).inputs = .aluPresent 9#4 1#8 2#8 :: [] ∧
    decode (.adder 3#2 0#8 0x80#8) = .ok (.adderSub .twosComplement 0 (-128)) ∧
    (asked [.adderPresent 3#2 0#8 0x80#8]).inputs = .adderPresent 3#2 0#8 0x80#8 :: [] ∧
    (asked [.calculate 0 1 "sub".toList "unsigned".toList]).inputs =
      .calculate 0 1 "sub".toList "unsigned".toList :: [] ∧ parseMode "unsigned".toList = some .unsigned ∧
    decode (.uop 0xAF#8) = .ok (.rAlu 15) ∧
    decodeTableWord 8 9 = some (.shr 0#8) ∧ (Instr.shr 0#8).space ≠ .uop ∧
    decodeTableWord 8 0xAF = some (.rAlu 15) ∧ (Instr.rAlu 15).space = .uop :=
  by decide

theorem test_hyp_WrapStepOnlyRewinds :
    (asked [.step]).inputs = .step :: [] ∧ (asked [.step]).microProgram.length ≤ (asked [.step]).currentStep ∧
    program.length ≤ ({ loaded [.step] with currentStep := 2 } : State).currentStep :=
  by decide

theorem test_hyp_RunDriverCommands :
    (loaded [.run]).inputs = .run :: [] ∧ (loaded [.run]).runState = .idle ∧ (loaded [.run]).microProgram ≠ [] ∧
    (asked [.run]).microProgram = [] ∧ (running [.run]).runState = .running ∧
    (loaded [.toggleRunning]).inputs = .toggleRunning :: [] ∧ (running [.toggleRunning]).runState = .running ∧
    (asked [.toggleRunning]).runState ≠ .running ∧ (asked [.toggleRunning]).microProgram = [] ∧
    ({ loaded [.run] with runState := .paused } : State).runState = .paused ∧
    (running [.pause]).inputs = .pause :: [] ∧ (loaded [.pause]).runState ≠ .running :=
  by decide

theorem test_hyp_CompletedIsLeftOnlyByResetOrLoad :
    ∃ t, ({ loaded [.reset] with runState := .completed } : State).runState = .completed ∧
      step { loaded [.reset] with runState := .completed } = .next t ∧ t.runState ≠ .completed :=
  ⟨_, rfl, rfl, by decide⟩

theorem test_hyp_TickIsOneStep :
    (running [.tick]).inputs = .tick :: [] ∧ (running [.tick]).timerActive = true ∧
    (loaded [.tick]).inputs = .tick :: [] ∧ (loaded [.tick]).timerActive = false ∧
    (running []).inputs = [] ∧ (running []).timerActive = true ∧
    ({ running [] with output := .byte 7#8 } : State).inputs = [] ∧ (loaded []).inputs = [] ∧
    (loaded []).timerActive = false :=
  by decide

theorem test_hyp_ResetCommandEffect :
    (running [.reset]).inputs = .reset :: [] ∧ params.resetClearsMem = false ∧ otherParams.resetClearsMem = true :=
  by decide

theorem test_hyp_ResetCommandIsIdempotent :
    (running [.reset, .reset]).inputs = .reset :: .reset :: [] :=
  by decide

/-- A program given in all three forms, as long as PROG_MAX. -/
def mixed : List Source := [.text "A ← R[0]".toList, .variant (.aR 99), .word 0x5F#8, .word 0xFF#8]

theorem test_hyp_LoadingReplacesProgramOnly :
    (asked [.loadPreset Config.fetchDecodeExecuteName]).inputs = .loadPreset Config.fetchDecodeExecuteName :: [] ∧
    params.presets.lookup Config.fetchDecodeExecuteName = some Config.fetchDecodeExecuteTexts ∧
    Config.fetchDecodeExecuteTexts.length ≤ params.progMax ∧ params.presets.lookup [] = none ∧
    ({ params with progMax := 3 } : Params).progMax < Config.fetchDecodeExecuteTexts.length ∧
    (asked [.assignProgram mixed]).inputs = .assignProgram mixed :: [] ∧ mixed ≠ [] ∧
    mixed.length ≤ params.progMax ∧ params.nregs ≤ 16 ∧
    (asked [.assignProgram []]).inputs = .assignProgram [] :: [] ∧
    .word 0x5F#8 ∈ mixed ∧ 16 < ({ params with nregs := 17 } : Params).nregs ∧
    ({ params with progMax := 3 } : Params).progMax < mixed.length ∧
    (∀ w, Source.word w ∉ [Source.text [], Source.variant .unknown]) :=
  by decide

theorem test_hyp_RunReachesCompleted :
    (running []).Inv ∧ (running []).runState = .running ∧ (running []).inputs = [] :=
  ⟨running_inv [], rfl, rfl⟩

theorem test_hyp_StepPointerMovesInThreeWays :
    (∃ t, step (loaded [.step]) = .next t) ∧ (∃ t, step { loaded [.step] with currentStep := 2 } = .next t) ∧
    (∃ t, step (loaded [.reset]) = .next t) :=
  ⟨⟨_, rfl⟩, ⟨_, rfl⟩, ⟨_, rfl⟩⟩

theorem test_hyp_ControlStoreChangesOnlyByLoads :
    ∃ t, step (loaded [.assignProgram [.word 0x10#8]]) = .next t ∧ t.microProgram ≠ (loaded []).microProgram :=
  ⟨_, rfl, by decide⟩

/-- A well-formed snapshot that no state of these tests exports. -/
def snapshot : Snapshot where
  microProgram := ["ALU ← A & B".toList, "nop".toList]
  state := { small.datapath with registers := [0#8, 255#8, 1#8, 2#8], pc := 255#8, memory := List.replicate 16 9#8 }
  presetName := none

theorem test_hyp_ExportThenImportRestores :
    (asked [.exportState]).inputs = .exportState :: [] ∧ (asked [.exportState]).microProgram = [] ∧
    (asked [.importState snapshot.toRaw]).inputs = .importState snapshot.toRaw :: [] ∧ snapshot.microProgram ≠ [] ∧
    snapshot.state.registers.length = params.nregs ∧ snapshot.state.memory.length = params.memSize ∧
    snapshot.microProgram.length ≤ params.progMax ∧
    ({ params with progMax := 1 } : Params).progMax < snapshot.microProgram.length ∧
    (running [.exportState]).Inv ∧ (running [.exportState]).microProgram ≠ [] ∧
    (running [.exportState]).inputs = .exportState :: [] ∧ small.params = (running [.exportState]).params ∧
    (asked [.importState (running [.exportState]).exported.toRaw]).inputs =
      .importState (running [.exportState]).exported.toRaw :: [] :=
  ⟨rfl, rfl, rfl, by decide, rfl, by decide, by decide, by decide, running_inv _, by decide, rfl, rfl, rfl⟩

/-- A datapath aggregate for imports, of the sizes of `params`. -/
def raw : RawDatapath := small.datapath.toRaw

theorem test_hyp_MalformedImportIsReportedOnly :
    (running [.importState .badJson]).inputs = .importState .badJson :: [] ∧
    (∀ x ∈ [RawSnapshot.fields none (some raw) (some none), .fields (some [[]]) none (some none),
        .fields (some [[]]) (some raw) none, .fields (some []) (some raw) (some none)],
      (running [.importState x]).inputs = .importState x :: []) ∧
    ({ raw with registers := none } : RawDatapath).registers = none ∧
    ({ raw with pc := none } : RawDatapath).pc = none ∧
    ({ raw with ir := none } : RawDatapath).ir = none ∧ ({ raw with mar := none } : RawDatapath).mar = none ∧
    ({ raw with mdr := none } : RawDatapath).mdr = none ∧ ({ raw with busA := none } : RawDatapath).busA = none ∧
    ({ raw with busB := none } : RawDatapath).busB = none ∧
    ({ raw with aluResult := none } : RawDatapath).aluResult = none ∧
    ({ raw with aluFlags := none } : RawDatapath).aluFlags = none ∧
    ({ raw with flags := none } : RawDatapath).flags = none ∧
    ({ raw with memory := none } : RawDatapath).memory = none ∧
    (255 : Int) < 256 ∧ ((-1) : Int) < 0 ∧ ({ raw with pc := some 256 } : RawDatapath).pc = some 256 ∧
    ({ raw with ir := some (-1) } : RawDatapath).ir = some (-1) ∧
    ({ raw with mar := some 256 } : RawDatapath).mar = some 256 ∧
    ({ raw with mdr := some (-1) } : RawDatapath).mdr = some (-1) ∧
    ({ raw with busA := some 256 } : RawDatapath).busA = some 256 ∧
    ({ raw with busB := some (-1) } : RawDatapath).busB = some (-1) ∧
    ({ raw with aluResult := some 256 } : RawDatapath).aluResult = some 256 ∧
    ({ raw with registers := some [0, 0, 0, 256] } : RawDatapath).registers = some [0, 0, 0, 256] ∧
    (256 : Int) ∈ [(0 : Int), 0, 0, 256] ∧
    ({ raw with memory := some (List.replicate 16 (-1)) } : RawDatapath).memory = some (List.replicate 16 (-1)) ∧
    (-1 : Int) ∈ List.replicate 16 (-1 : Int) ∧
    ({ raw with memory := some [] } : RawDatapath).memory = some [] ∧ ([] : List Int).length ≠ params.memSize ∧
    ({ raw with registers := some [0, 0, 0] } : RawDatapath).registers = some [0, 0, 0] ∧
    ([0, 0, 0] : List Int).length ≠ params.nregs :=
  by decide

theorem test_hyp_PokeWritesOneField :
    ((255#8).toNat : Int) = 255 ∧ ((0#8).toNat : Int) = 0 ∧
    (∀ f ∈ [ByteField.pc, .ir, .mar, .mdr, .busA, .busB, .aluResult, .memory 15, .reg 3],
      (asked [.poke (.byte f 255)]).inputs = .poke (.byte f 255) :: [] ∧ f.present params = true) ∧
    Memory.wf small.mem ∧ 15 < params.memSize ∧ small.regs.length = small.params.nregs ∧ 3 < params.nregs ∧
    (∀ n ∈ [FlagName.zero, .negative, .carry, .overflow],
      (asked [.poke (.aluFlag n true)]).inputs = .poke (.aluFlag n true) :: [] ∧
      (asked [.poke (.flag n true)]).inputs = .poke (.flag n true) :: []) ∧
    ByteField.present params (.reg 4) = false ∧ ByteField.present params (.memory 16) = false ∧
    (255 : Int) < 256 ∧ ((-1) : Int) < 0 ∧
    (asked [.poke (.locked .trace 0)]).inputs = .poke (.locked .trace 0) :: [] :=
  by decide

theorem test_hyp_ParametersNeverChange :
    ∃ t, step (loaded [.reset]) = .next t :=
  ⟨_, rfl⟩

theorem test_hyp_BlocksShareNoState :
    (∃ t, step (asked [.aluPresent 0#4 1#8 2#8]) = .next t) ∧
    (∃ t, step (asked [.adderPresent 0#2 1#8 2#8]) = .next t) ∧
    (∃ t, step (loaded [.step]) = .next t) ∧
    (∃ t, ({ running [] with output := .byte 7#8 } : State).inputs = [] ∧
      step { running [] with output := .byte 7#8 } = .next t) :=
  ⟨⟨_, rfl⟩, ⟨_, rfl⟩, ⟨_, rfl⟩, ⟨_, rfl, rfl⟩⟩

theorem test_hyp_EveryStepKeepsInvariant :
    ∃ t, small.Inv ∧ (running [.step]).Inv ∧ step (running [.step]) = .next t :=
  ⟨_, small_inv, running_inv _, rfl⟩

theorem test_hyp_ResetHasInvariant :
    params.WellFormed ∧ Params.WellFormed { params with memSize := 1, nregs := 1, progMax := 1 } :=
  by decide

theorem test_hyp_PowerOnState :
    otherParams.WellFormed ∧ Params.WellFormed { params with memSize := 256, nregs := 17 } :=
  by decide

theorem test_hyp_StepCompletesExactlyOnAcceptedRequests :
    small.inputs = [] ∧ (asked [.poke (.byte .pc 256)]).inputs = .poke (.byte .pc 256) :: [] ∧
    Request.accepted params (.poke (.byte .pc 256)) = false ∧
    Request.accepted params (.poke (.byte .pc 255)) = true :=
  by decide

theorem test_hyp_DecodeOfEncode :
    encode (.rAlu 15) = some (.uop 0xAF#8) ∧ Instr.HasWord (.rAlu 15) ∧
    encode (.adderSub .twosComplement (-128) 127) = some (.adder 3#2 0x80#8 0x7F#8) ∧
    Instr.HasWord (.adderSub .twosComplement (-128) 127) :=
  by decide

theorem test_hyp_ParseRecognisesExactlyCanonicalTexts :
    (Uop.bR 10 ≠ .unknown) ∧ foldCase "b ← r[10]".toList = foldCase (canonicalText (.bR 10)) ∧
    foldCase "B ← R[010]".toList ≠ foldCase (canonicalText (.bR 10)) :=
  by decide

end Sys2Proof.Tests
end

section
/-!
PROOFS. The statements of 00_scope.md: what the requests to each block, and the timer, leave unchanged (R2, R8).
-/
namespace Sys2Proof.Machine

/-! ### The block a request goes to -/

/-- The three blocks of R2. -/
inductive Block where
  | aluEngine
  | adder
  | interpreter

/-- The block whose entry point a request is (R81, R122, R140 to R144, R155); the host commands, snapshots and pokes go
to the interpreter (R203 to R213). -/
def Request.block : Request → Block
  | .aluPresent _ _ _ | .aluGetResult | .aluGetFlags => .aluEngine
  | .adderPresent _ _ _ | .calculate _ _ _ _ | .configure _ | .toBinary _ _ | .fromBinary _ _ | .addBinary _ _
  | .twosComplement _ => .adder
  | .step | .tick | .run | .toggleRunning | .pause | .reset | .loadPreset _ | .assignProgram _ | .exportState
  | .importState _ | .poke _ => .interpreter

/-! ### What the interpreter's transitions leave unchanged -/

/-- `step()` of the interpreter reaches neither the other two blocks nor the parameters, the waiting requests and the
standing answer: both of its cases write only the interpreter's own state (R200 to R202). -/
theorem sequencerStep_frame {s t : State} (h : sequencerStep s = .next t) :
    t.params = s.params ∧ t.alu = s.alu ∧ t.adderMode = s.adderMode ∧ t.inputs = s.inputs ∧ t.output = s.output := by
  rcases sequencerStep_next h with ⟨stmt, u, _, _, he, rfl⟩ | ⟨_, rfl⟩
  · obtain ⟨hparams, halu, hmode, _, _, _, _, _, _, hinputs, houtput, _⟩ := exec_uop_book he
    exact ⟨hparams, halu, hmode, hinputs, houtput⟩
  · simp

/-- The same for a tick, which is one `step()` or nothing (R206). -/
theorem timerTick_frame {s t : State} (h : timerTick s = .next t) :
    t.params = s.params ∧ t.alu = s.alu ∧ t.adderMode = s.adderMode ∧ t.inputs = s.inputs ∧ t.output = s.output := by
  rcases timerTick_next h with ⟨_, h⟩ | ⟨_, rfl⟩
  · exact sequencerStep_frame h
  · simp

/-- A poke of a Byte field stays within the interpreter's datapath (R213). -/
theorem State.setByteField_frame (s : State) (f : ByteField) (v : Byte) :
    (s.setByteField f v).params = s.params ∧ (s.setByteField f v).alu = s.alu ∧
      (s.setByteField f v).adderMode = s.adderMode := by
  cases f <;> exact ⟨rfl, rfl, rfl⟩

/-! ### What a request leaves unchanged, by block -/

/-- A request to the ALU Engine that completes writes the latch and the answer, nothing else. -/
theorem Performed.aluEngine_frame {r : Request} {s t : State} (h : Performed r s t) (hr : r.block = .aluEngine) :
    t = { s with alu := t.alu, output := t.output } := by
  cases h with
  | alu | aluGetResult | aluGetFlags => rfl
  | _ => cases hr

/-- A request to the adder that completes writes ADDER.MODE and the answer, nothing else. -/
theorem Performed.adder_frame {r : Request} {s t : State} (h : Performed r s t) (hr : r.block = .adder) :
    t = { s with adderMode := t.adderMode, output := t.output } := by
  cases h with
  | adder | calculate | configure | toBinary | fromBinary | addBinary | twosComplement => rfl
  | _ => cases hr

/-- A request to the interpreter that completes keeps the parameters, the latch and ADDER.MODE. -/
theorem Performed.interpreter_frame {r : Request} {s t : State} (h : Performed r s t) (hr : r.block = .interpreter) :
    t.params = s.params ∧ t.alu = s.alu ∧ t.adderMode = s.adderMode := by
  cases h with
  | step _ _ h =>
    obtain ⟨hparams, halu, hmode, _⟩ := sequencerStep_frame h
    exact ⟨hparams, halu, hmode⟩
  | tick _ _ h =>
    obtain ⟨hparams, halu, hmode, _⟩ := timerTick_frame h
    exact ⟨hparams, halu, hmode⟩
  | run => rcases runCommand_cases s with e | ⟨_, _, e⟩ <;> simp [e]
  | toggleRunning => rcases toggleCommand_cases s with e | ⟨_, _, e⟩ | ⟨_, e⟩ <;> simp [e]
  | pause => rcases pauseCommand_cases s with e | ⟨_, e⟩ <;> simp [e]
  | pokeByte f _ b => exact s.setByteField_frame f b
  | reset | loadPreset | unknownPreset | assign | assignEmpty | exportState | importState | importMalformed
  | pokeAluFlag | pokeFlag => exact ⟨rfl, rfl, rfl⟩
  | _ => cases hr

/-- No request writes the parameters (R8): each block's requests stay within that block. -/
theorem Performed.params_eq {r : Request} {s t : State} (h : Performed r s t) : t.params = s.params := by
  cases hr : r.block with
  | aluEngine => rw [h.aluEngine_frame hr]
  | adder => rw [h.adder_frame hr]
  | interpreter => exact (h.interpreter_frame hr).1

/-! ### The obligations -/

/-- Settles O51: a waiting request keeps the parameters whichever block it goes to, and so does a tick. -/
theorem parametersNeverChange : Obligations.ParametersNeverChange := by
  intro s t h
  rcases step_next h with ⟨r, rest, _, hp⟩ | ⟨_, ht⟩
  · exact hp.params_eq
  · exact (timerTick_frame ht).1

/-- Settles O52: the frame of the block the taken request goes to, and, with none waiting, the frame of a tick. -/
theorem blocksShareNoState : Obligations.BlocksShareNoState := by
  refine ⟨fun s t r rest hi h => ?_, fun s t hi h => ?_⟩
  · rw [step, step_cons hi] at h
    have hp : Performed r (s.take rest) t := perform_next h
    refine ⟨fun hr => ?_, fun hr => ?_, fun hr => ?_⟩
    · have hb : r.block = .aluEngine := by rcases hr with ⟨_, _, _, rfl⟩ | rfl | rfl <;> rfl
      exact hp.aluEngine_frame hb
    · have hb : r.block = .adder := by
        rcases hr with ⟨_, _, _, rfl⟩ | ⟨_, _, _, _, rfl⟩ | ⟨_, rfl⟩ | ⟨_, _, rfl⟩ | ⟨_, _, rfl⟩ | ⟨_, _, rfl⟩ |
          ⟨_, rfl⟩ <;> rfl
      exact hp.adder_frame hb
    · have hb : r.block = .interpreter := by
        rcases hr with rfl | rfl | rfl | rfl | rfl | rfl | rfl | ⟨_, rfl⟩ | ⟨_, rfl⟩ | ⟨_, rfl⟩ | ⟨_, rfl⟩ <;> rfl
      obtain ⟨_, halu, hmode⟩ := hp.interpreter_frame hb
      exact ⟨halu, hmode⟩
  · rw [step, step_nil hi] at h
    obtain ⟨_, halu, hmode, hinputs, houtput⟩ := timerTick_frame h
    exact ⟨halu, hmode, houtput, hinputs.trans hi⟩

end Sys2Proof.Machine
end

section
/-!
PROOFS. The statements of 10_state.md: an ALU operation and the old latch (R22), and the invariant every step keeps (R8,
R26, R35, R37, R41, R90, R206).
-/
namespace Sys2Proof.Machine

/-! ### The ALU latch -/

/-- An ALU operation is one write of the latch, with a Byte and a FlagSet that depend on its operands alone (R110). -/
theorem exec_aluOp {i : Instr} (h : i.space = .aluOp) : ∃ y f, ∀ s : State, exec i s = .next (s.latchAlu y f) := by
  cases i with
  | and | or | xor | not | add | sub | inc | dec | shl | shr => exact ⟨_, _, fun _ => rfl⟩
  | _ => cases h

/-- A write of the latch leaves nothing of what it held (R22). -/
theorem State.latchAlu_of_alu_replaced (s : State) (l : AluLatch) (y : Byte) (f : FlagSet) :
    State.latchAlu { s with alu := l } y f = s.latchAlu y f := rfl

/-! ### A statement is what its text parses to (R90) -/

/-- A text that begins unlike every canonical text without an index is none of those. -/
theorem parseFixed_none {pre t : Text} (ht : pre <+: t)
    (hrows : ∀ row ∈ fixedTexts, ¬foldCase pre <+: foldCase row.2) : parseFixed t = none := by
  rw [parseFixed, Option.map_eq_none_iff, List.find?_eq_none]
  intro row hrow he
  exact hrows row hrow (of_decide_eq_true he ▸ ht.map asciiLower)

/-- See parseFixed_none, for a text of an indexed form. -/
theorem parseFixed_indexed {pre : Text} (mid suf : Text)
    (hrows : ∀ row ∈ fixedTexts, ¬foldCase pre <+: foldCase row.2) : parseFixed (pre ++ mid ++ suf) = none :=
  parseFixed_none ((List.prefix_append pre mid).trans (List.prefix_append _ suf)) hrows

/-- A numeral between the two parts of a canonical form is read as its number. -/
theorem parseIndexed_decimal (pre suf : Text) (n : Nat) :
    parseIndexed pre suf (pre ++ decimal n ++ suf) = some n := by
  rw [parseIndexed, foldCase_append, foldCase_append, foldCase_decimal, indexBetween_append, parseDecimal_decimal]

/-- A text whose first letter is not the one of an indexed form has no index of that form. -/
theorem parseIndexed_none {p c : Char} {pre suf t : Text} (hpre : pre.head? = some p) (ht : t.head? = some c)
    (h : asciiLower p ≠ asciiLower c) : parseIndexed pre suf t = none := by
  obtain ⟨pre', rfl⟩ := List.head?_eq_some_iff.mp hpre
  obtain ⟨t', rfl⟩ := List.head?_eq_some_iff.mp ht
  exact indexBetween_none fun hp => h (List.cons_prefix_cons.mp hp).1

theorem parseUop_aR (n : Nat) : parseUop (canonicalText (.aR n)) = .aR n := by
  have hfixed : parseFixed (canonicalText (.aR n)) = none := parseFixed_indexed _ _ (by decide)
  have hindex : parseIndexed aRPrefix indexSuffix (canonicalText (.aR n)) = some n := parseIndexed_decimal _ _ _
  simp only [parseUop, hfixed, hindex]

theorem parseUop_bR (n : Nat) : parseUop (canonicalText (.bR n)) = .bR n := by
  have hfixed : parseFixed (canonicalText (.bR n)) = none := parseFixed_indexed _ _ (by decide)
  have haR : parseIndexed aRPrefix indexSuffix (canonicalText (.bR n)) = none :=
    parseIndexed_none (p := 'A') (c := 'B') rfl rfl (by decide)
  have hindex : parseIndexed bRPrefix indexSuffix (canonicalText (.bR n)) = some n := parseIndexed_decimal _ _ _
  simp only [parseUop, hfixed, haR, hindex]

theorem parseUop_rAlu (n : Nat) : parseUop (canonicalText (.rAlu n)) = .rAlu n := by
  have hfixed : parseFixed (canonicalText (.rAlu n)) = none := parseFixed_indexed _ _ (by decide)
  have haR : parseIndexed aRPrefix indexSuffix (canonicalText (.rAlu n)) = none :=
    parseIndexed_none (p := 'A') (c := 'R') rfl rfl (by decide)
  have hbR : parseIndexed bRPrefix indexSuffix (canonicalText (.rAlu n)) = none :=
    parseIndexed_none (p := 'B') (c := 'R') rfl rfl (by decide)
  have hindex : parseIndexed rAluPrefix rAluSuffix (canonicalText (.rAlu n)) = some n := parseIndexed_decimal _ _ _
  simp only [parseUop, hfixed, haR, hbR, hindex]

/-- A word's spelling `0x..` is no micro-operation's text (R85, log 12). -/
theorem parseUop_hexWord (w : Byte) : parseUop (hexWord w) = .unknown := by
  have hfixed : parseFixed (hexWord w) = none :=
    parseFixed_none (pre := ['0']) (List.prefix_append _ _) (by decide)
  have haR : parseIndexed aRPrefix indexSuffix (hexWord w) = none :=
    parseIndexed_none (p := 'A') (c := '0') rfl rfl (by decide)
  have hbR : parseIndexed bRPrefix indexSuffix (hexWord w) = none :=
    parseIndexed_none (p := 'B') (c := '0') rfl rfl (by decide)
  have hrAlu : parseIndexed rAluPrefix rAluSuffix (hexWord w) = none :=
    parseIndexed_none (p := 'R') (c := '0') rfl rfl (by decide)
  simp only [parseUop, hfixed, haR, hbR, hrAlu]

/-- Every variant is what its canonical text parses to (R84, R85). -/
theorem parseUop_canonicalText (u : Uop) : parseUop (canonicalText u) = u := by
  cases u with
  | aR n => exact parseUop_aR n
  | bR n => exact parseUop_bR n
  | rAlu n => exact parseUop_rAlu n
  | unknown => exact parseUop_hexWord 0x00#8
  | marPc | mdrMem | irMdr | pcInc | aluAdd | aluSub | aluAnd | flagsAlu | memMdr => decide

/-- A word is what the text it is spelled as parses to (R214). -/
theorem parseUop_wordText (w : Byte) : parseUop (wordText w) = decodeUop w := by
  unfold wordText
  split_ifs with hw
  · rw [parseUop_hexWord, hw]
  · exact parseUop_canonicalText _

/-- In whichever form the host gives a statement, it is loaded as what its text parses to (R90, R209). -/
theorem Statement.ofSource_parses (x : Source) : parseUop (Statement.ofSource x).text = (Statement.ofSource x).uop := by
  cases x with
  | text t => rfl
  | variant u => exact parseUop_canonicalText u
  | word w => exact parseUop_wordText w

/-! ### The invariant under the named updates -/

/-- A request that reaches only the ALU Engine or the adder keeps the invariant, which speaks of neither (R2). -/
theorem State.Inv.outside {s : State} (hs : s.Inv) (l : AluLatch) (m : AdderMode) (o : Output) :
    State.Inv { s with alu := l, adderMode := m, output := o } := { hs with }

theorem State.Inv.take {s : State} (hs : s.Inv) (rest : List Request) : (s.take rest).Inv := { hs with }

theorem State.Inv.answer {s : State} (hs : s.Inv) (o : Output) : (s.answer o).Inv := { hs with }

theorem State.Inv.writeReg {s : State} (hs : s.Inv) (n : Nat) (v : Byte) : (s.writeReg n v).Inv :=
  { hs with regs_length := (s.writeReg_regs_length n v).trans hs.regs_length }

theorem State.Inv.memWrite {s : State} (hs : s.Inv) (a : Nat) (v : Byte) : (s.memWrite a v).Inv :=
  { hs with
    mem_wf := State.memWrite_wf hs.mem_wf a v
    mem_within := State.memWrite_within hs.mem_within a v }

/-- A poke of a Byte field keeps the invariant: memory and registers by their writes, which are the only fields of the
datapath it speaks of (R213). -/
theorem State.Inv.setByteField {s : State} (hs : s.Inv) (f : ByteField) (v : Byte) : (s.setByteField f v).Inv := by
  cases f with
  | reg n => exact hs.writeReg n v
  | memory a => exact hs.memWrite a v
  | pc | ir | mar | mdr | busA | busB | aluResult => exact { hs with }

/-- A datapath of NREGS registers and MEM_SIZE Bytes keeps the invariant: a memory made from Bytes is canonical and
within their number (R212). -/
theorem State.Inv.withDatapath {s : State} (hs : s.Inv) {d : Datapath} (hregs : d.registers.length = s.params.nregs)
    (hmem : d.memory.length = s.params.memSize) : (s.withDatapath d).Inv :=
  { hs with
    regs_length := hregs
    mem_wf := Memory.wf_ofBytes d.memory
    mem_within := fun _ hc => hmem ▸ Memory.ofBytes_within hc }

/-- A load keeps the invariant: the pointer 0 is inside any program, and nothing runs after it (R208, D22). -/
theorem State.Inv.loadProgram {s : State} (hs : s.Inv) {program : List Statement} (name : Option Text)
    (hfits : program.length ≤ s.params.progMax) (htexts : ∀ st ∈ program, parseUop st.text = st.uop) :
    (s.loadProgram program name).Inv :=
  { hs with
    step_within := Nat.zero_le _
    program_fits := hfits
    timer_running := rfl
    not_exhausted := fun _ hne => List.length_pos_iff.mpr hne
    running_loaded := nofun
    texts_parse := htexts }

/-- `reset()` keeps the invariant, whether or not it clears memory: the empty memory is canonical (R207). -/
theorem State.Inv.resetCommand {s : State} (hs : s.Inv) : s.resetCommand.Inv where
  params_legal := hs.params_legal
  regs_length := List.length_replicate
  mem_wf := by
    rw [State.resetCommand_mem]
    split_ifs
    · exact ⟨List.Pairwise.nil, nofun⟩
    · exact hs.mem_wf
  mem_within := by
    rw [State.resetCommand_mem]
    split_ifs
    · exact nofun
    · exact hs.mem_within
  step_within := Nat.zero_le _
  program_fits := hs.program_fits
  timer_running := rfl
  not_exhausted := fun _ hne => List.length_pos_iff.mpr hne
  running_loaded := nofun
  texts_parse := hs.texts_parse

/-- The driver arms the timer only over a program that is loaded and, not being completed, not exhausted (R203). -/
theorem State.Inv.arm {s : State} (hs : s.Inv) (hne : s.microProgram ≠ [])
    (hr : s.runState = .idle ∨ s.runState = .paused) : s.arm.Inv :=
  { hs with
    timer_running := rfl
    not_exhausted := fun _ => hs.not_exhausted (by rcases hr with hr | hr <;> simp [hr])
    running_loaded := fun _ => hne }

theorem State.Inv.disarm {s : State} (hs : s.Inv) (hr : s.runState = .running) : s.disarm.Inv :=
  { hs with
    timer_running := rfl
    not_exhausted := fun _ => hs.not_exhausted (by simp [hr])
    running_loaded := nofun }

/-- The wrap step keeps the invariant: the pointer 0 is below the end of any program that is not empty (R202). -/
theorem State.Inv.wrap {s : State} (hs : s.Inv) : s.wrap.Inv :=
  { hs with
    step_within := Nat.zero_le _
    not_exhausted := fun _ hne => List.length_pos_iff.mpr hne }

/-- The bookkeeping of a dispatching step keeps the invariant: a pointer that reaches the end of the program completes
the run and disarms the timer, and any other stays below the end (R201). -/
theorem State.Inv.retire {s : State} (hs : s.Inv) (stmt : Statement) (hlt : s.currentStep < s.microProgram.length) :
    (s.retire stmt).Inv where
  params_legal := hs.params_legal
  regs_length := hs.regs_length
  mem_wf := hs.mem_wf
  mem_within := hs.mem_within
  step_within := hlt
  program_fits := hs.program_fits
  timer_running := by
    rw [State.retire_timerActive, State.retire_runState]
    split_ifs
    · rfl
    · exact hs.timer_running
  not_exhausted := by
    rw [State.retire_runState]
    split_ifs with hend
    · exact fun hc => absurd rfl hc
    · exact fun _ _ => Nat.lt_of_le_of_ne hlt hend
  running_loaded := fun _ => List.ne_nil_of_length_pos (Nat.zero_lt_of_lt hlt)
  texts_parse := hs.texts_parse

/-! ### The invariant under the sequencer and the driver -/

/-- A micro-operation's own effect keeps the invariant: only `R[n] ← ALU` and `Mem[MAR] ← MDR` write a field it speaks
of (R186). -/
theorem exec_uop_keeps_inv {u : Uop} {s t : State} (hs : s.Inv) (h : exec u.toInstr s = .next t) : t.Inv := by
  cases u with
  | rAlu n => cases h; exact hs.writeReg n s.aluResult
  | memMdr => cases h; exact hs.memWrite s.mar.toNat s.mdr
  | _ => cases h; exact { hs with }

/-- `step()` keeps the invariant in both of its cases (R200). -/
theorem sequencerStep_keeps_inv {s t : State} (hs : s.Inv) (h : sequencerStep s = .next t) : t.Inv := by
  rcases sequencerStep_next h with ⟨stmt, u, _, hlt, he, rfl⟩ | ⟨_, rfl⟩
  · obtain ⟨_, _, _, hprogram, hstep, _⟩ := exec_uop_book he
    exact (exec_uop_keeps_inv hs he).retire stmt (by rwa [hprogram, hstep])
  · exact hs.wrap

/-- A tick keeps the invariant: it is one `step()` or nothing (R206). -/
theorem timerTick_keeps_inv {s t : State} (hs : s.Inv) (h : timerTick s = .next t) : t.Inv := by
  rcases timerTick_next h with ⟨_, h⟩ | ⟨_, rfl⟩
  · exact sequencerStep_keeps_inv hs h
  · exact hs

theorem State.Inv.runCommand {s : State} (hs : s.Inv) : s.runCommand.Inv := by
  rcases runCommand_cases s with e | ⟨hne, hr, e⟩ <;> rw [e]
  · exact hs
  · exact hs.arm hne hr

theorem State.Inv.toggleCommand {s : State} (hs : s.Inv) : s.toggleCommand.Inv := by
  rcases toggleCommand_cases s with e | ⟨hne, hr, e⟩ | ⟨hr, e⟩ <;> rw [e]
  · exact hs
  · exact hs.arm hne hr
  · exact hs.disarm hr

theorem State.Inv.pauseCommand {s : State} (hs : s.Inv) : s.pauseCommand.Inv := by
  rcases pauseCommand_cases s with e | ⟨hr, e⟩ <;> rw [e]
  · exact hs
  · exact hs.disarm hr

/-! ### The invariant under every request -/

/-- Texts loaded as statements are what they parse to (R90). -/
theorem Statement.map_ofText_parses (texts : List Text) :
    ∀ st ∈ texts.map Statement.ofText, parseUop st.text = st.uop :=
  List.forall_mem_map.mpr fun _ _ => rfl

/-- A request to the interpreter that completes keeps the invariant. -/
theorem Performed.interpreter_keeps_inv {r : Request} {s t : State} (hs : s.Inv) (h : Performed r s t)
    (hr : r.block = .interpreter) : t.Inv := by
  cases h with
  | step _ _ h => exact sequencerStep_keeps_inv hs h
  | tick _ _ h => exact timerTick_keeps_inv hs h
  | run => exact hs.runCommand
  | toggleRunning => exact hs.toggleCommand
  | pause => exact hs.pauseCommand
  | reset => exact hs.resetCommand
  | loadPreset name texts _ _ hl =>
    exact hs.loadProgram (some name) (by simpa using hl) (Statement.map_ofText_parses texts)
  | assign program _ _ hl =>
    exact hs.loadProgram none (by simpa using hl) (List.forall_mem_map.mpr fun x _ => Statement.ofSource_parses x)
  | importState _ x _ hx hl =>
    obtain ⟨_, _, hregs, hmem⟩ := RawSnapshot.check_eq_some.mp hx
    exact (hs.withDatapath hregs hmem).loadProgram x.presetName (by simpa using hl)
      (Statement.map_ofText_parses x.microProgram)
  | unknownPreset | assignEmpty | exportState | importMalformed => exact hs.answer _
  | pokeByte f _ b => exact hs.setByteField f b
  | pokeAluFlag | pokeFlag => exact { hs with }
  | _ => cases hr

/-- Every request that completes keeps the invariant, whichever block it goes to. -/
theorem Performed.keeps_inv {r : Request} {s t : State} (hs : s.Inv) (h : Performed r s t) : t.Inv := by
  cases hr : r.block with
  | aluEngine => rw [h.aluEngine_frame hr]; exact hs.outside _ _ _
  | adder => rw [h.adder_frame hr]; exact hs.outside _ _ _
  | interpreter => exact h.interpreter_keeps_inv hs hr

/-! ### The obligations -/

/-- Settles O53: a waiting request keeps the invariant whichever block it goes to, and so does a tick. -/
theorem everyStepKeepsInvariant : Obligations.EveryStepKeepsInvariant := by
  intro s t hs h
  rcases step_next h with ⟨r, rest, _, hp⟩ | ⟨_, ht⟩
  · exact hp.keeps_inv (hs.take rest)
  · exact timerTick_keeps_inv hs ht

/-- Settles O9: the operation writes the whole latch with values its operands alone fix. -/
theorem aluIgnoresOldLatch : Obligations.AluIgnoresOldLatch := by
  intro i s l hi
  obtain ⟨y, f, h⟩ := exec_aluOp hi
  rw [h, h, State.latchAlu_of_alu_replaced]

end Sys2Proof.Machine
end

section
/-!
PROOFS. The statement of 20_memory.md: what writes the control store (R74).
-/
namespace Sys2Proof.Machine

/-! ### What keeps the control store -/

/-- `step()` reads the control store and never writes it: a statement is fetched from it, executed and retired (R201), or
the pointer wraps (R202). -/
theorem sequencerStep_microProgram {s t : State} (h : sequencerStep s = .next t) : t.microProgram = s.microProgram := by
  rcases sequencerStep_next h with ⟨stmt, u, _, _, he, rfl⟩ | ⟨_, rfl⟩
  · obtain ⟨_, _, _, hprogram, _⟩ := exec_uop_book he
    exact hprogram
  · rfl

/-- The same for a tick, which is one `step()` or nothing (R206). -/
theorem timerTick_microProgram {s t : State} (h : timerTick s = .next t) : t.microProgram = s.microProgram := by
  rcases timerTick_next h with ⟨_, h⟩ | ⟨_, rfl⟩
  · exact sequencerStep_microProgram h
  · rfl

/-- A poke of a Byte field, one of memory included, reaches no statement (R213). -/
@[simp] theorem State.setByteField_microProgram (s : State) (f : ByteField) (v : Byte) :
    (s.setByteField f v).microProgram = s.microProgram := by
  cases f <;> rfl

/-! ### What a request does to the control store -/

/-- The requests that may write the control store (R208, R209, R212). -/
def Request.IsLoad (r : Request) : Prop :=
  (∃ n, r = .loadPreset n) ∨ (∃ p, r = .assignProgram p) ∨ (∃ x, r = .importState x)

/-- A request to the interpreter keeps the control store, or is a load and leaves the pointer at 0: a load that reports a
failure is among those that keep it. -/
theorem Performed.interpreter_microProgram {r : Request} {s t : State} (h : Performed r s t)
    (hr : r.block = .interpreter) : t.microProgram = s.microProgram ∨ (r.IsLoad ∧ t.currentStep = 0) := by
  cases h with
  | loadPreset name => exact .inr ⟨.inl ⟨name, rfl⟩, rfl⟩
  | assign program => exact .inr ⟨.inr (.inl ⟨program, rfl⟩), rfl⟩
  | importState x => exact .inr ⟨.inr (.inr ⟨x, rfl⟩), rfl⟩
  | step _ _ h => exact .inl (sequencerStep_microProgram h)
  | tick _ _ h => exact .inl (timerTick_microProgram h)
  | run => rcases runCommand_cases s with e | ⟨_, _, e⟩ <;> simp [e]
  | toggleRunning => rcases toggleCommand_cases s with e | ⟨_, _, e⟩ | ⟨_, e⟩ <;> simp [e]
  | pause => rcases pauseCommand_cases s with e | ⟨_, e⟩ <;> simp [e]
  | pokeByte f _ b => exact .inl (s.setByteField_microProgram f b)
  | reset | unknownPreset | assignEmpty | exportState | importMalformed | pokeAluFlag | pokeFlag => exact .inl rfl
  | _ => cases hr

/-- The same for every request: those to the other two blocks do not reach the control store (R2). -/
theorem Performed.microProgram_eq_or_isLoad {r : Request} {s t : State} (h : Performed r s t) :
    t.microProgram = s.microProgram ∨ (r.IsLoad ∧ t.currentStep = 0) := by
  cases hr : r.block with
  | aluEngine => rw [h.aluEngine_frame hr]; exact .inl rfl
  | adder => rw [h.adder_frame hr]; exact .inl rfl
  | interpreter => exact h.interpreter_microProgram hr

/-! ### The obligations -/

/-- Settles O47: of the waiting requests only a load changes the control store, and a tick does not. -/
theorem controlStoreChangesOnlyByLoads : Obligations.ControlStoreChangesOnlyByLoads := by
  intro s t h hne
  rcases step_next h with ⟨r, rest, hi, hp⟩ | ⟨_, ht⟩
  · rcases hp.microProgram_eq_or_isLoad with hsame | ⟨hload, hstep⟩
    · exact absurd hsame hne
    · exact ⟨hstep, r, rest, hi, hload⟩
  · exact absurd (timerTick_microProgram ht) hne

end Sys2Proof.Machine
end

section
/-!
PROOFS. The statements of 30_encoding.md: decode after encode (R82, R83, R88), the texts the parser recognises (R84,
R85), the reserved ALU codes (R89), what a step does with a binary form (R81, R155), and the reserved words (R88, R89).
-/
namespace Sys2Proof.Machine

/-! ### The ALU and the adder: decode after encode -/

/-- An ALU operation always has a binary form, and its code decodes to it (R82). -/
theorem decode_encode_aluOp {i : Instr} (h : i.space = .aluOp) : ∃ x, encode i = some x ∧ decode x = .ok i := by
  cases i with
  | and | or | xor | not | add | sub | inc | dec | shl | shr => exact ⟨_, rfl, rfl⟩
  | _ => cases h

/-- `fromBinary` undoes `toBinary` on the mode's legal range (R140, R141). -/
theorem fromBinary_toBinary {v : Int} {m : AdderMode} (h : inLegalRange m v = true) :
    fromBinary (toBinary v m) m = v := by
  cases m with
  | unsigned =>
    obtain ⟨hlo, hhi⟩ := (inLegalRange_unsigned v).mp h
    exact toBinary_val_unsigned hlo hhi
  | twosComplement =>
    obtain ⟨hlo, hhi⟩ := (inLegalRange_twosComplement v).mp h
    have hval := toBinary_val_twos hlo hhi
    simp only [fromBinary]
    split_ifs at hval ⊢ <;> omega

/-- An adder operation has a binary form exactly on legal operands (R156). -/
theorem encodeAdder_eq_some {s : BitVec 2} {m : AdderMode} {a b : Int} {x : IssueWord} :
    encodeAdder s m a b = some x ↔ (inLegalRange m a = true ∧ inLegalRange m b = true) ∧
      IssueWord.adder (s ||| encodeMode m) (bitsByte (toBinary a m)) (bitsByte (toBinary b m)) = x := by
  rw [encodeAdder, Option.ite_none_right_eq_some, Bool.and_eq_true, Option.some.injEq]

/-- The `s` bit, the `m` bit and the operands of an adder word are read back as they were written (R83). -/
theorem decodeAdderCtl_encoded (subtract : Bool) {m : AdderMode} {a b : Int} (ha : inLegalRange m a = true)
    (hb : inLegalRange m b = true) :
    decodeAdderCtl ((if subtract then 2#2 else 0#2) ||| encodeMode m) (bitsByte (toBinary a m))
      (bitsByte (toBinary b m)) = if subtract then .adderSub m a b else .adderAdd m a b := by
  have hm : decodeMode (((if subtract then 2#2 else 0#2) ||| encodeMode m).getLsbD 0) = m := by
    cases subtract <;> cases m <;> rfl
  have hs : ((if subtract then 2#2 else 0#2) ||| encodeMode m).getLsbD 1 = subtract := by
    cases subtract <;> cases m <;> rfl
  simp only [decodeAdderCtl, hm, hs, str8_bitsByte, fromBinary_toBinary ha, fromBinary_toBinary hb]

/-! ### Micro-operations: decode after encode -/

/-- The instructions of the interpreter's space are the micro-operations (R84). -/
theorem exists_uop_of_space {i : Instr} (h : i.space = .uop) : ∃ u : Uop, u.toInstr = i := by
  cases i with
  | marPc => exact ⟨.marPc, rfl⟩
  | mdrMem => exact ⟨.mdrMem, rfl⟩
  | irMdr => exact ⟨.irMdr, rfl⟩
  | pcInc => exact ⟨.pcInc, rfl⟩
  | aR n => exact ⟨.aR n, rfl⟩
  | bR n => exact ⟨.bR n, rfl⟩
  | aluAdd => exact ⟨.aluAdd, rfl⟩
  | aluSub => exact ⟨.aluSub, rfl⟩
  | aluAnd => exact ⟨.aluAnd, rfl⟩
  | rAlu n => exact ⟨.rAlu n, rfl⟩
  | flagsAlu => exact ⟨.flagsAlu, rfl⟩
  | memMdr => exact ⟨.memMdr, rfl⟩
  | unknown => exact ⟨.unknown, rfl⟩
  | _ => cases h

@[simp] theorem toInstr_space (u : Uop) : u.toInstr.space = .uop := by cases u <;> rfl

/-- The binary form of a micro-operation is its word (R87). -/
theorem encode_toInstr (u : Uop) : encode u.toInstr = (encodeUop u).map .uop := by cases u <;> rfl

theorem indexedWord_eq_some {opc w : Byte} {n : Nat} :
    indexedWord opc n = some w ↔ n < 16 ∧ opc ||| BitVec.ofNat 8 n = w := by
  rw [indexedWord, Option.ite_none_right_eq_some, Option.some.injEq]

/-- The word of a micro-operation decodes to it: with an index, the word keeps the opcode and the index in separate
fields (R87, R88). -/
theorem decodeUop_encodeUop {u : Uop} {w : Byte} (h : encodeUop u = some w) : decodeUop w = u := by
  cases u with
  | aR n =>
    obtain ⟨hn, rfl⟩ := indexedWord_eq_some.mp h
    exact (by decide : ∀ n < 16, decodeUop (0x50#8 ||| BitVec.ofNat 8 n) = .aR n) n hn
  | bR n =>
    obtain ⟨hn, rfl⟩ := indexedWord_eq_some.mp h
    exact (by decide : ∀ n < 16, decodeUop (0x60#8 ||| BitVec.ofNat 8 n) = .bR n) n hn
  | rAlu n =>
    obtain ⟨hn, rfl⟩ := indexedWord_eq_some.mp h
    exact (by decide : ∀ n < 16, decodeUop (0xA0#8 ||| BitVec.ofNat 8 n) = .rAlu n) n hn
  | _ => cases h; rfl

/-- A micro-operation whose index fits has a word (R87). -/
theorem exists_encodeUop {u : Uop} (h : u.toInstr.indexFits = true) : ∃ w, encodeUop u = some w := by
  cases u with
  | aR n | bR n | rAlu n => exact ⟨_, indexedWord_eq_some.mpr ⟨of_decide_eq_true h, rfl⟩⟩
  | _ => exact ⟨_, rfl⟩

/-! ### Every instruction: decode after encode -/

/-- Whatever has a binary form decodes back to itself, space by space (R82, R83, R88). -/
theorem decode_of_encode {i : Instr} {x : IssueWord} (h : encode i = some x) : decode x = .ok i := by
  cases hs : i.space with
  | aluOp =>
    obtain ⟨y, hy, hd⟩ := decode_encode_aluOp hs
    rw [h] at hy
    cases hy
    exact hd
  | adderCtl =>
    cases i with
    | adderAdd m a b =>
      obtain ⟨⟨ha, hb⟩, rfl⟩ := encodeAdder_eq_some.mp h
      exact congrArg Except.ok (decodeAdderCtl_encoded false ha hb)
    | adderSub m a b =>
      obtain ⟨⟨ha, hb⟩, rfl⟩ := encodeAdder_eq_some.mp h
      exact congrArg Except.ok (decodeAdderCtl_encoded true ha hb)
    | _ => cases hs
  | uop =>
    obtain ⟨u, rfl⟩ := exists_uop_of_space hs
    rw [encode_toInstr] at h
    obtain ⟨w, hw, rfl⟩ := Option.map_eq_some_iff.mp h
    rw [decode, decodeUop_encodeUop hw]

/-- Every well-formed instruction whose index fits has a binary form (R87, R156). -/
theorem exists_encode {i : Instr} (h : i.HasWord) : ∃ x, encode i = some x := by
  obtain ⟨hlegal, hindex⟩ := h
  cases hs : i.space with
  | aluOp =>
    obtain ⟨x, hx, _⟩ := decode_encode_aluOp hs
    exact ⟨x, hx⟩
  | adderCtl =>
    cases i with
    | adderAdd | adderSub => exact ⟨_, encodeAdder_eq_some.mpr ⟨hlegal, rfl⟩⟩
    | _ => cases hs
  | uop =>
    obtain ⟨u, rfl⟩ := exists_uop_of_space hs
    obtain ⟨w, hw⟩ := exists_encodeUop hindex
    exact ⟨.uop w, by rw [encode_toInstr, hw, Option.map_some]⟩

/-! ### The parser -/

/-- The parser sees a text only with the case of its letters ignored (R85). -/
theorem parseUop_congr {t t' : Text} (h : foldCase t = foldCase t') : parseUop t = parseUop t' := by
  have hfixed : parseFixed t = parseFixed t' := by rw [parseFixed, parseFixed, h]
  have hindexed (pre suf : Text) : parseIndexed pre suf t = parseIndexed pre suf t' := by
    rw [parseIndexed, parseIndexed, h]
  simp only [parseUop, hfixed, hindexed]

/-- The rows without an index list canonical texts (R84). -/
theorem fixedTexts_canonical : ∀ row ∈ fixedTexts, row.2 = canonicalText row.1 := by decide

/-- A text read as a row without an index is that row's canonical text, letter case ignored. -/
theorem foldCase_of_parseFixed {t : Text} {u : Uop} (h : parseFixed t = some u) :
    foldCase t = foldCase (canonicalText u) := by
  obtain ⟨row, hrow, rfl⟩ := Option.map_eq_some_iff.mp h
  have htext : foldCase row.2 = foldCase t := by simpa using List.find?_some hrow
  rw [← htext, fixedTexts_canonical row (List.mem_of_find?_eq_some hrow)]

/-- A text read as an indexed form is that form with the index in decimal, letter case ignored. -/
theorem foldCase_of_parseIndexed {pre suf t : Text} {n : Nat} (h : parseIndexed pre suf t = some n) :
    foldCase t = foldCase (pre ++ decimal n ++ suf) := by
  rw [foldCase_append, foldCase_append, foldCase_decimal]
  exact indexBetween_some h

/-- Whatever the parser recognises is the canonical text of what it answers, letter case ignored (R85, D24). -/
theorem foldCase_of_parseUop {t : Text} (h : parseUop t ≠ .unknown) :
    foldCase t = foldCase (canonicalText (parseUop t)) := by
  unfold parseUop at h ⊢
  split
  · next hfixed => exact foldCase_of_parseFixed hfixed
  split
  · next haR => exact foldCase_of_parseIndexed haR
  split
  · next hbR => exact foldCase_of_parseIndexed hbR
  split
  · next hrAlu => exact foldCase_of_parseIndexed hrAlu
  · next hfixed _ haR _ hbR _ hrAlu => simp [hfixed, haR, hbR, hrAlu] at h

/-! ### The reserved words -/

/-- A word with the given high nibble is the word of its own low nibble as index (R87). -/
theorem indexedWord_of_nibbles {opc w : Byte} (h : w &&& 0xF0#8 = opc) :
    indexedWord opc (w &&& 0x0F#8).toNat = some w := by
  subst h
  refine indexedWord_eq_some.mpr ⟨?_, ?_⟩
  · revert w; decide
  · revert w; decide

/-- One row of the opcode map: what it answers on a match is that word's micro-operation, and the rows below it are
UNKNOWN or do the same. -/
theorem unknown_or_encodeUop_ite {c : Prop} [Decidable c] {u v : Uop} {w : Byte} (hrow : c → encodeUop u = some w)
    (hbelow : v = .unknown ∨ encodeUop v = some w) :
    (if c then u else v) = .unknown ∨ encodeUop (if c then u else v) = some w := by
  split_ifs with hc
  · exact .inr (hrow hc)
  · exact hbelow

/-- A word is UNKNOWN or the word of what it decodes to: the nine rows with mask 0xFF match their own word, the three
with mask 0xF0 match their opcode with any index, and UNKNOWN is left (R88). -/
theorem decodeUop_eq_unknown_or_encodeUop (w : Byte) : decodeUop w = .unknown ∨ encodeUop (decodeUop w) = some w := by
  unfold decodeUop
  iterate 9 refine unknown_or_encodeUop_ite (fun hw => congrArg some hw.symm) ?_
  iterate 3 refine unknown_or_encodeUop_ite indexedWord_of_nibbles ?_
  exact .inl rfl

/-! ### What a step does with a binary form -/

/-- A presentation runs the decoded instruction (R81, R83). -/
theorem performIssueWord_of_decode {x : IssueWord} {i : Instr} (h : decode x = .ok i) (s : State) :
    performIssueWord x s = exec i s := by
  simp only [performIssueWord, h]

/-- The operands an adder presentation decodes to are in the mode's legal range (R83, R156). -/
theorem decodeAdderCtl_wellFormed (ctl : BitVec 2) (a b : Byte) : (decodeAdderCtl ctl a b).WellFormed := by
  unfold decodeAdderCtl
  split_ifs
  · exact ⟨fromBinary_inRange _ _, fromBinary_inRange _ _⟩
  · exact ⟨fromBinary_inRange _ _, fromBinary_inRange _ _⟩

/-- `calculate` with a mode and an operation runs the adder operation they name (R155). -/
theorem performCalculate_of_parse {operation mode : Text} {m : AdderMode} {subtract : Bool}
    (hmode : parseMode mode = some m) (hop : parseOperation operation = some subtract) (a b : Int) (s : State) :
    performCalculate a b operation mode s = exec (if subtract then .adderSub m a b else .adderAdd m a b) s := by
  cases subtract <;> simp [performCalculate, hmode, hop]

/-- An instruction decoded from a binary form belongs to the form's space (R80). -/
theorem decode_space {x : IssueWord} {i : Instr} (h : decode x = .ok i) : i.space = x.space := by
  cases x with
  | alu op a b =>
    simp only [decode, decodeAluOp] at h
    split at h <;> cases h <;> rfl
  | adder ctl a b =>
    cases h
    unfold decodeAdderCtl
    split_ifs <;> rfl
  | uop w =>
    cases h
    exact toInstr_space _

/-- A table word is decoded as the binary form it numbers, and placed as that form (log 13). -/
theorem decodeTableWord_placed {nbits w : Nat} {i : Instr} (h : decodeTableWord nbits w = some i) (s : State) :
    ∃ x, decode x = .ok i ∧ s.withFetchWord nbits w = s.placeIssueWord x := by
  unfold decodeTableWord at h
  split at h
  next x hx =>
    split at h
    next j hj =>
      cases h
      exact ⟨x, hj, by rw [State.withFetchWord, State.placeTableWord, hx]⟩
    next => cases h
  next => cases h

/-- A binary form placed for the ALU Engine or the adder is run by the next step (R81, R83). -/
theorem step_placeIssueWord_block {x : IssueWord} {i : Instr} (h : decode x = .ok i) (hx : x.space ≠ .uop)
    (s : State) : step (s.placeIssueWord x) = exec i { s with inputs := [], output := .none } := by
  cases x with
  | alu | adder => exact performIssueWord_of_decode h _
  | uop => exact absurd rfl hx

/-- A word placed as the one statement of the program is run and retired by the next step (R200, R201). -/
theorem step_placeIssueWord_uop (s : State) (w : Byte) :
    ∃ t, exec (decodeUop w).toInstr
        { s with microProgram := [Statement.ofWord w], currentStep := 0, inputs := [], output := .none } = .next t ∧
      step (s.placeIssueWord (.uop w)) = .next (t.retire (Statement.ofWord w)) :=
  dispatchStep_next (Statement.ofWord w) _

/-! ### The obligations -/

/-- Settles O57: the round trip and the existence of a binary form, each space by its own table. -/
theorem decodeOfEncode : Obligations.DecodeOfEncode :=
  ⟨fun _ _ h => decode_of_encode h, fun _ h => exists_encode h⟩

/-- Settles O58: what is recognised is a canonical text, and each canonical text is recognised in any letter case. -/
theorem parseRecognisesExactlyCanonicalTexts : Obligations.ParseRecognisesExactlyCanonicalTexts := by
  intro u t hu
  constructor
  · rintro rfl
    exact foldCase_of_parseUop hu
  · intro h
    rw [parseUop_congr h, parseUop_canonicalText]

/-- Settles O10: the step performs the presentation, which completes or is refused by its code alone. -/
theorem aluReservedCodesRefused : Obligations.AluReservedCodesRefused := by
  intro s rest op a b hi
  rw [step, step_cons hi]
  rcases aluPresent_cases op a b (s.take rest) with ⟨hlt, y, f, hnext⟩ | ⟨hge, hrefused⟩
  · exact ⟨fun hge => absurd hlt (Nat.not_lt.mpr hge), fun _ => ⟨_, hnext⟩⟩
  · exact ⟨fun _ => hrefused, fun hlt => absurd hlt (Nat.not_lt.mpr hge)⟩

/-- Settles O37: one lemma for each way an instruction reaches its block. -/
theorem stepRunsDecodedInstruction : Obligations.StepRunsDecodedInstruction := by
  refine ⟨fun s rest op a b i hi hd => ?_, fun s rest ctl a b i hi hd => ?_,
    fun s rest a b operation mode m hi hmode => ⟨?_, ?_⟩, fun w i hd => ?_, fun s nbits w i hd hspace => ?_,
    fun s nbits w i hd hspace => ?_⟩
  · rw [step, step_cons hi]
    exact performIssueWord_of_decode hd _
  · rw [step, step_cons hi]
    refine ⟨?_, performIssueWord_of_decode hd _⟩
    cases hd
    exact decodeAdderCtl_wellFormed ctl a b
  · rintro rfl
    rw [step, step_cons hi]
    exact performCalculate_of_parse hmode (rfl : parseOperation "add".toList = some false) a b _
  · rintro rfl
    rw [step, step_cons hi]
    exact performCalculate_of_parse hmode (rfl : parseOperation "sub".toList = some true) a b _
  · cases hd
    rfl
  · obtain ⟨x, hx, hplaced⟩ := decodeTableWord_placed hd s
    rw [hplaced]
    exact step_placeIssueWord_block hx (decode_space hx ▸ hspace) s
  · obtain ⟨x, hx, hplaced⟩ := decodeTableWord_placed hd s
    rw [decode_space hx] at hspace
    cases x with
    | alu | adder => cases hspace
    | uop v =>
      cases hx
      rw [hplaced]
      obtain ⟨t, hexec, hstep⟩ := step_placeIssueWord_uop s v
      exact ⟨Statement.ofWord v, t, hexec, rfl, hstep⟩

/-- Settles O59: the opcode map has no row that a word of another micro-operation falls into. -/
theorem everyOtherWordIsUnknown : Obligations.EveryOtherWordIsUnknown := decodeUop_eq_unknown_or_encodeUop

/-- Settles O60: the encoded forms by the round trip; DEC's ignored operand and the two reserved words by the tables. -/
theorem specWordsDecode : Obligations.SpecWordsDecode :=
  ⟨rfl, decode_of_encode (i := .adderSub .twosComplement 5 (-128)) (by decide),
    decode_of_encode (i := .aR 7) (by decide), decode_of_encode (i := .bR 10) (by decide),
    decode_of_encode (i := .rAlu 0) (by decide), decode_of_encode (i := .memMdr) (by decide), rfl, rfl⟩

end Sys2Proof.Machine
end


section
/-!
PROOFS. The statements of 40_alu.md: results, flags and latch of the ten ALU operations (R110 to R121), the exact meaning
of C and V (R124), the flag table (R126) and the accessors (R122).
-/
namespace Sys2Proof.Machine

/-! ### The sign rule is two's-complement overflow (R124) -/

/-- Bit 7 of a Byte is its sign (R9). -/
theorem getLsbD_seven (a : Byte) : a.getLsbD 7 = a.msb := a.msb_eq_getLsbD_last.symm

theorem addSigns_iff_toInt (a b : Byte) : (a.getLsbD 7 = b.getLsbD 7 ∧ a.getLsbD 7 ≠ (a + b).getLsbD 7) ↔
    a.toInt + b.toInt < -128 ∨ 127 < a.toInt + b.toInt := by
  calc _ ↔ a.saddOverflow b = true := by
        rw [BitVec.saddOverflow_eq, getLsbD_seven, getLsbD_seven, getLsbD_seven]
        cases a.msb <;> cases b.msb <;> simp
    _ ↔ _ := by
        simp only [BitVec.saddOverflow, Bool.or_eq_true, decide_eq_true_eq]; omega

theorem subSigns_iff_toInt (a b : Byte) : (a.getLsbD 7 ≠ b.getLsbD 7 ∧ a.getLsbD 7 ≠ (a - b).getLsbD 7) ↔
    a.toInt - b.toInt < -128 ∨ 127 < a.toInt - b.toInt := by
  calc _ ↔ a.ssubOverflow b = true := by
        rw [BitVec.ssubOverflow_eq, getLsbD_seven, getLsbD_seven, getLsbD_seven]
        cases a.msb <;> cases b.msb <;> simp
    _ ↔ _ := by
        simp only [BitVec.ssubOverflow, Bool.or_eq_true, decide_eq_true_eq]; omega

/-- The sum with 1 can leave the range at its upper end only (R118). -/
theorem add_one_outside_iff (a : Byte) :
    (a.toInt + (1#8).toInt < -128 ∨ 127 < a.toInt + (1#8).toInt) ↔ 127 < a.toInt + 1 := by
  have hlo : -128 ≤ a.toInt := a.le_toInt
  have hone : (1#8).toInt = 1 := rfl
  omega

/-- The difference with 1 can leave the range at its lower end only (R119). -/
theorem sub_one_outside_iff (a : Byte) :
    (a.toInt - (1#8).toInt < -128 ∨ 127 < a.toInt - (1#8).toInt) ↔ a.toInt - 1 < -128 := by
  have hhi : a.toInt < 128 := a.toInt_lt
  have hone : (1#8).toInt = 1 := rfl
  omega

/-- Of the Bytes only 127 has no two's-complement successor (R118). -/
theorem lt_toInt_add_one_iff (a : Byte) : 127 < a.toInt + 1 ↔ a.toNat = 127 := by
  have hlt := a.isLt
  rw [BitVec.toInt_eq_toNat_cond]
  split_ifs <;> omega

/-- Of the Bytes only 128, which is -128, has no two's-complement predecessor (R119). -/
theorem toInt_sub_one_lt_iff (a : Byte) : a.toInt - 1 < -128 ↔ a.toNat = 128 := by
  have hlt := a.isLt
  rw [BitVec.toInt_eq_toNat_cond]
  split_ifs <;> omega

/-! ### What each operation writes (R112 to R121) -/

theorem exec_and (a b : Byte) (s : State) :
    exec (.and a b) s = .next (s.latchAlu (a &&& b) (aluLogicFlags (a &&& b))) := by
  simp only [exec, execAnd, aluRawAnd, maskByte_toNat]

theorem exec_or (a b : Byte) (s : State) :
    exec (.or a b) s = .next (s.latchAlu (a ||| b) (aluLogicFlags (a ||| b))) := by
  simp only [exec, execOr, aluRawOr, maskByte_toNat]

theorem exec_xor (a b : Byte) (s : State) :
    exec (.xor a b) s = .next (s.latchAlu (a ^^^ b) (aluLogicFlags (a ^^^ b))) := by
  simp only [exec, execXor, aluRawXor, maskByte_toNat]

theorem exec_not (a : Byte) (s : State) :
    exec (.not a) s = .next (s.latchAlu (255#8 - a) (aluLogicFlags (255#8 - a))) := by
  simp only [exec, execNot, aluRawNot, maskByte_not]

theorem exec_add (a b : Byte) (s : State) :
    exec (.add a b) s = .next (s.latchAlu (a + b)
      ⟨decide (a + b = 0#8), (a + b).getLsbD 7, decide (255 < a.toNat + b.toNat),
        decide (a.getLsbD 7 = b.getLsbD 7 ∧ a.getLsbD 7 ≠ (a + b).getLsbD 7)⟩) := by
  have hmask : maskByte (aluRawAdd a b) = a + b := maskByte_add a b
  simp only [exec, execAdd, hmask, aluAddFlags_eq]

theorem exec_sub (a b : Byte) (s : State) :
    exec (.sub a b) s = .next (s.latchAlu (a - b)
      ⟨decide (a - b = 0#8), (a - b).getLsbD 7, decide (a.toNat < b.toNat),
        decide (a.getLsbD 7 ≠ b.getLsbD 7 ∧ a.getLsbD 7 ≠ (a - b).getLsbD 7)⟩) := by
  have hmask : maskByte (aluRawSub a b) = a - b := maskByte_sub a b
  simp only [exec, execSub, hmask, aluSubFlags_eq]

/-- INC is ADD of the constant 1 (R118). -/
theorem exec_inc_eq_add (a : Byte) (s : State) : exec (.inc a) s = exec (.add a 1#8) s := rfl

/-- DEC is SUB of the constant 1 (R119). -/
theorem exec_dec_eq_sub (a : Byte) (s : State) : exec (.dec a) s = exec (.sub a 1#8) s := rfl

theorem exec_inc (a : Byte) (s : State) :
    exec (.inc a) s = .next (s.latchAlu (a + 1#8)
      ⟨decide (a.toNat = 255), (a + 1#8).getLsbD 7, decide (a.toNat = 255), decide (a.toNat = 127)⟩) := by
  have hzero : a + 1#8 = 0#8 ↔ a.toNat = 255 := by bv_omega
  have hcarry : 255 < a.toNat + (1#8).toNat ↔ a.toNat = 255 := by bv_omega
  have hoverflow := (addSigns_iff_toInt a 1#8).trans ((add_one_outside_iff a).trans (lt_toInt_add_one_iff a))
  simp only [exec_inc_eq_add, exec_add, hzero, hcarry, hoverflow]

theorem exec_dec (a : Byte) (s : State) :
    exec (.dec a) s = .next (s.latchAlu (a - 1#8)
      ⟨decide (a.toNat = 1), (a - 1#8).getLsbD 7, decide (a.toNat = 0), decide (a.toNat = 128)⟩) := by
  have hzero : a - 1#8 = 0#8 ↔ a.toNat = 1 := by bv_omega
  have hborrow : a.toNat < (1#8).toNat ↔ a.toNat = 0 := by bv_omega
  have hoverflow := (subSigns_iff_toInt a 1#8).trans ((sub_one_outside_iff a).trans (toInt_sub_one_lt_iff a))
  simp only [exec_dec_eq_sub, exec_sub, hzero, hborrow, hoverflow]

theorem exec_shl (a : Byte) (s : State) :
    exec (.shl a) s = .next (s.latchAlu (a <<< 1)
      ⟨decide (a <<< 1 = 0#8), a.getLsbD 6, a.getLsbD 7, false⟩) := by
  have hsign : (a <<< 1).getLsbD 7 = a.getLsbD 6 := by simp
  simp only [exec, execShl, aluRawShl, maskByte_shl, aluShlFlags, aluFlagSet, signBit, hsign]

theorem exec_shr (a : Byte) (s : State) :
    exec (.shr a) s = .next (s.latchAlu (a >>> 1)
      ⟨decide (a >>> 1 = 0#8), false, a.getLsbD 0, false⟩) := by
  have hsign : (a >>> 1).getLsbD 7 = false := by simp
  simp only [exec, execShr, aluRawShr, maskByte_shr, aluShrFlags, aluFlagSet, signBit, hsign]

/-- Every operation's Z and N are those of the Byte it latches; only C and V are the operation's own (R110, R111). -/
theorem exec_aluOp_flagSet {i : Instr} (h : i.space = .aluOp) (s : State) :
    ∃ y c v, exec i s = .next (s.latchAlu y (aluFlagSet y c v)) := by
  cases i with
  | and | or | xor | not | add | sub | inc | dec | shl | shr => exact ⟨_, _, _, rfl⟩
  | _ => cases h

/-! ### When a result is zero (R126) -/

theorem shiftLeft_one_eq_zero_iff (a : Byte) : a <<< 1 = 0#8 ↔ a.extractLsb 6 0 = 0#7 := by
  have hshift : (a <<< 1).toNat = a.toNat * 2 % 256 := by simp [Nat.shiftLeft_eq]
  have hlow : (a.extractLsb 6 0).toNat = a.toNat % 128 := by simp
  rw [← BitVec.toNat_inj, ← BitVec.toNat_inj, hshift, hlow, BitVec.toNat_ofNat, BitVec.toNat_ofNat]
  omega

theorem shiftRight_one_eq_zero_iff (a : Byte) : a >>> 1 = 0#8 ↔ a.toNat ≤ 1 := by
  have hshift : (a >>> 1).toNat = a.toNat / 2 := by simp [Nat.shiftRight_eq_div_pow]
  rw [← BitVec.toNat_inj, hshift, BitVec.toNat_ofNat]
  omega

/-! ### Exact carry and overflow (R124) -/

theorem exec_add_exact (a b : Byte) (s : State) :
    ∃ t, exec (.add a b) s = .next t ∧ t.alu.result.toNat = (a.toNat + b.toNat) % 256 ∧
      (t.alu.flags.carry = true ↔ 255 < a.toNat + b.toNat) ∧
      (t.alu.flags.overflow = true ↔ a.toInt + b.toInt < -128 ∨ 127 < a.toInt + b.toInt) :=
  ⟨_, exec_add a b s, a.toNat_add b, decide_eq_true_iff, decide_eq_true_iff.trans (addSigns_iff_toInt a b)⟩

theorem toNat_sub_emod (a b : Byte) : ((a - b).toNat : Int) = ((a.toNat : Int) - b.toNat) % 256 := by
  bv_omega

theorem exec_sub_exact (a b : Byte) (s : State) :
    ∃ t, exec (.sub a b) s = .next t ∧ (t.alu.result.toNat : Int) = ((a.toNat : Int) - b.toNat) % 256 ∧
      (t.alu.flags.carry = true ↔ a.toNat < b.toNat) ∧
      (t.alu.flags.overflow = true ↔ a.toInt - b.toInt < -128 ∨ 127 < a.toInt - b.toInt) :=
  ⟨_, exec_sub a b s, toNat_sub_emod a b, decide_eq_true_iff, decide_eq_true_iff.trans (subSigns_iff_toInt a b)⟩

/-! ### The obligations -/

/-- Settles O1: decoding is a row of the code table, the rest is what each operation writes. -/
theorem aluLogicalResults : Obligations.AluLogicalResults := fun s a b =>
  ⟨⟨rfl, exec_and a b s⟩, ⟨rfl, exec_or a b s⟩, ⟨rfl, exec_xor a b s⟩, ⟨rfl, exec_not a s⟩⟩

/-- Settles O2, by the row of ADD in the code table and `exec_add`. -/
theorem aluAddResult : Obligations.AluAddResult := fun s a b => ⟨rfl, exec_add a b s⟩

/-- Settles O3, by the row of SUB in the code table and `exec_sub`. -/
theorem aluSubResult : Obligations.AluSubResult := fun s a b => ⟨rfl, exec_sub a b s⟩

/-- Settles O4: the rows for 0110 and 0111 drop `b`, and ADD and SUB of 1 have the closed flag forms. -/
theorem aluIncDecResults : Obligations.AluIncDecResults := fun s a _ =>
  ⟨⟨rfl, exec_inc_eq_add a s, exec_inc a s⟩, ⟨rfl, exec_dec_eq_sub a s, exec_dec a s⟩⟩

/-- Settles O5: the rows for 1000 and 1001 drop `b`, and the shifts write what `exec_shl` and `exec_shr` say. -/
theorem aluShiftResults : Obligations.AluShiftResults := fun s a _ =>
  ⟨⟨rfl, exec_shl a s⟩, ⟨rfl, exec_shr a s⟩⟩

/-- Settles O6: the sign rules are two's-complement overflow; INC and DEC are the case `b = 1`, where only one side of
the range can be left. -/
theorem aluCarryAndOverflowAreExact : Obligations.AluCarryAndOverflowAreExact := by
  intro s a b
  refine ⟨exec_add_exact a b s, ?_, exec_sub_exact a b s, ?_⟩
  · obtain ⟨t, ht, hres, hcarry, hoverflow⟩ := exec_add_exact a 1#8 s
    exact ⟨t, ht, hres, hcarry, hoverflow.trans (add_one_outside_iff a)⟩
  · obtain ⟨t, ht, hres, hborrow, hoverflow⟩ := exec_sub_exact a 1#8 s
    exact ⟨t, ht, hres, hborrow, hoverflow.trans (sub_one_outside_iff a)⟩

/-- Settles O7: what each operation writes, with its conditions as R126 spells them. -/
theorem aluFlagTable : Obligations.AluFlagTable := by
  intro s a b
  refine ⟨fun i hi => ?_, ⟨_, exec_add a b s, rfl⟩, ⟨_, exec_inc a s, ?_⟩, ⟨_, exec_sub a b s, ?_⟩,
    ⟨_, exec_dec a s, ?_⟩, ⟨_, exec_shl a s, ?_⟩, ⟨_, exec_shr a s, ?_⟩⟩
  · simp only [List.mem_cons, List.not_mem_nil, or_false] at hi
    rcases hi with rfl | rfl | rfl | rfl
    · exact ⟨_, exec_and a b s, rfl⟩
    · exact ⟨_, exec_or a b s, rfl⟩
    · exact ⟨_, exec_xor a b s, rfl⟩
    · exact ⟨_, exec_not a s, rfl⟩
  · simp [← BitVec.toNat_inj]
  · simp [BitVec.sub_eq_iff_eq_add]
  · simp [← BitVec.toNat_inj]
  · simp only [State.latchAlu_alu, shiftLeft_one_eq_zero_iff]
  · simp only [State.latchAlu_alu, shiftRight_one_eq_zero_iff]

/-- Settles O8: the latch holds the Byte that is returned, and Z and N are read off it. -/
theorem aluZeroAndNegativeFromReturnedByte : Obligations.AluZeroAndNegativeFromReturnedByte := by
  intro i s hi
  obtain ⟨y, c, v, h⟩ := exec_aluOp_flagSet hi s
  exact ⟨_, y, h, rfl, rfl, decide_eq_true_iff, rfl⟩

/-- Settles O11: a step takes the request and performs it, and each accessor answers from the latch. -/
theorem aluAccessorsReturnLatch : Obligations.AluAccessorsReturnLatch := by
  refine fun s rest => ⟨fun hi => ?_, fun hi => ?_⟩
  · rw [step, step_cons hi]
    rfl
  · rw [step, step_cons hi]
    rfl

end Sys2Proof.Machine
end


section
/-!
PROOFS. The statements of 41_bit_serial_adder.md: the ripple-carry pass (R142), negation and round trip (R143, R153), the
two operations with their flags (R145 to R150), their agreement with the ALU Engine (R154), refusals (R156), and what the
adder's other entry points answer (R140 to R144).
-/
namespace Sys2Proof.Machine

/-! ### The iterations of a ripple-carry pass (R142) -/

/-- A pass visits its positions in the order they are given. -/
theorem rippleSteps_map_k (ps : List (Nat × Bool × Bool)) (c : Bool) :
    (rippleSteps ps c).map AdderStep.k = ps.map Prod.fst := by
  induction ps generalizing c with
  | nil => rfl
  | cons p rest ih => simp [rippleSteps, fullAdd, ih]

/-- Every iteration is a full adder on the operand bits of one of the positions. -/
theorem mem_rippleSteps {ps : List (Nat × Bool × Bool)} {c : Bool} {p : AdderStep} (h : p ∈ rippleSteps ps c) :
    (p.k, p.a, p.b) ∈ ps ∧ p = fullAdd p.k p.a p.b p.cIn := by
  induction ps generalizing c with
  | nil => cases h
  | cons q rest ih =>
    rcases List.mem_cons.mp h with rfl | h
    · exact ⟨List.mem_cons_self, rfl⟩
    · obtain ⟨hmem, hadd⟩ := ih h
      exact ⟨List.mem_cons_of_mem q hmem, hadd⟩

/-- The carry into each iteration is the one out of the iteration before it, the given carry into the first. -/
theorem rippleSteps_map_cIn (ps : List (Nat × Bool × Bool)) (c : Bool) :
    (rippleSteps ps c).map AdderStep.cIn = (c :: (rippleSteps ps c).map AdderStep.cOut).dropLast := by
  induction ps generalizing c with
  | nil => rfl
  | cons p rest ih =>
    simp only [rippleSteps, List.map_cons, List.dropLast_cons_cons, ih]
    rfl

theorem fullAdd_sum_toNat (k : Nat) (a b c : Bool) :
    (fullAdd k a b c).sum.toNat = (a.toNat + b.toNat + c.toNat) % 2 := by
  cases a <;> cases b <;> cases c <;> rfl

theorem fullAdd_cOut_toNat (k : Nat) (a b c : Bool) :
    (fullAdd k a b c).cOut.toNat = (a.toNat + b.toNat + c.toNat) / 2 := by
  cases a <;> cases b <;> cases c <;> rfl

theorem addBinary_steps_map_k (x y : BitString) :
    (addBinary x y).steps.map AdderStep.k = [7, 6, 5, 4, 3, 2, 1, 0] := rippleSteps_map_k _ _

/-- The list of sum bits, reversed, is read at string index 7 - `i` for iteration `i`. -/
theorem addBinary_bitAt_k {x y : BitString} {p : AdderStep} (h : p ∈ (addBinary x y).steps) :
    bitAt (addBinary x y).bits p.k = p.sum := by
  obtain ⟨i, hi⟩ := List.mem_iff_getElem?.mp h
  have hlt : i < 8 := addBinary_steps_length x y ▸ (List.getElem?_eq_some_iff.mp hi).1
  have hk : p.k = 7 - i := by
    have hmap : ((addBinary x y).steps.map AdderStep.k)[i]? = some (7 - i) := by
      rw [addBinary_steps_map_k]; interval_cases i <;> rfl
    rwa [List.getElem?_map, hi, Option.map_some, Option.some.injEq] at hmap
  have hindex : ((addBinary x y).steps.map AdderStep.sum).length - 1 - (7 - i) = i := by
    rw [List.length_map, addBinary_steps_length]; omega
  have hentry : ((addBinary x y).steps.map AdderStep.sum).reverse[7 - i]? = some p.sum := by
    rw [List.getElem?_reverse (by simp; omega), hindex, List.getElem?_map, hi, Option.map_some]
  calc bitAt (addBinary x y).bits p.k
      = ((addBinary x y).steps.map AdderStep.sum).reverse.getD (7 - i) false := by
        rw [hk]; exact bitAt_bitStringOf _ _ (by omega)
    _ = p.sum := by rw [List.getD_eq_getElem?_getD, hentry, Option.getD_some]

theorem addBinary_steps_spec {x y : BitString} {p : AdderStep} (h : p ∈ (addBinary x y).steps) :
    p.a = bitAt x p.k ∧ p.b = bitAt y p.k ∧ p.sum.toNat = (p.a.toNat + p.b.toNat + p.cIn.toNat) % 2 ∧
      p.cOut.toNat = (p.a.toNat + p.b.toNat + p.cIn.toNat) / 2 := by
  obtain ⟨hmem, hadd⟩ := mem_rippleSteps h
  obtain ⟨k, _, hk⟩ := List.mem_map.mp hmem
  simp only [Prod.mk.injEq] at hk
  obtain ⟨rfl, ha, hb⟩ := hk
  refine ⟨ha.symm, hb.symm, ?_, ?_⟩
  · rw [hadd]; exact fullAdd_sum_toNat _ _ _ _
  · rw [hadd]; exact fullAdd_cOut_toNat _ _ _ _

theorem addBinary_steps_map_cOut_ne_nil (x y : BitString) : (addBinary x y).steps.map AdderStep.cOut ≠ [] := by
  simp [← List.length_pos_iff]

/-- The running carry starts at 0 and is handed on (R142). -/
theorem addBinary_steps_map_cIn (x y : BitString) :
    (addBinary x y).steps.map AdderStep.cIn = false :: ((addBinary x y).steps.map AdderStep.cOut).dropLast := by
  rw [← List.dropLast_cons_of_ne_nil (addBinary_steps_map_cOut_ne_nil x y)]
  exact rippleSteps_map_cIn _ _

/-- The carry reported is the last one carried (R142). -/
theorem addBinary_getLast_cOut (x y : BitString) :
    ((addBinary x y).steps.map AdderStep.cOut).getLast? = some (addBinary x y).carry := by
  have hne := addBinary_steps_map_cOut_ne_nil x y
  have hcarry : (addBinary x y).carry = ((addBinary x y).steps.map AdderStep.cOut).getLastD false := rfl
  rw [hcarry, List.getLastD_eq_getLast?, List.getLast?_eq_some_getLast hne, Option.getD_some]

theorem addBinary_carry_iff (x y : BitString) :
    (addBinary x y).carry = true ↔ 256 ≤ bitsVal x + bitsVal y := by
  rw [addBinary_carry, decide_eq_true_iff]

/-! ### Bit-strings as Bytes: addition, negation and the sign -/

theorem bitsByte_addBinary (x y : BitString) : bitsByte (addBinary x y).bits = bitsByte x + bitsByte y := by
  apply BitVec.eq_of_toNat_eq
  simp [addBinary_bitsVal]

theorem bitsByte_twosComplement (x : BitString) : bitsByte (twosComplement x) = -bitsByte x := by
  apply BitVec.eq_of_toNat_eq
  simp [twosComplement_bitsVal]

/-- Adding the two's complement subtracts (R146). -/
theorem bitsByte_addBinary_twosComplement (x y : BitString) :
    bitsByte (addBinary x (twosComplement y)).bits = bitsByte x - bitsByte y := by
  rw [bitsByte_addBinary, bitsByte_twosComplement, BitVec.sub_eq_add_neg]

/-- The character at string index 0 is bit 7 of the Byte (R9, R10). -/
theorem bitAt_zero_eq (x : BitString) : bitAt x 0 = (bitsByte x).getLsbD 7 := by
  rw [getLsbD_seven, BitVec.msb_eq_decide, bitsByte_toNat, Bool.eq_iff_iff, bitAt_zero_iff, decide_eq_true_iff]

/-- The two's-complement reading of a bit-string is the signed value of its Byte (R141). -/
theorem fromBinary_twosComplement (x : BitString) : fromBinary x .twosComplement = (bitsByte x).toInt := by
  rw [BitVec.toInt_eq_toNat_cond, bitsByte_toNat, fromBinary]
  split_ifs <;> omega

theorem toInt_toBinary {v : Int} (h : inLegalRange .twosComplement v = true) :
    (bitsByte (toBinary v .twosComplement)).toInt = v := by
  rw [← fromBinary_twosComplement, fromBinary_toBinary h]

theorem bitsVal_toBinary_unsigned {v : Int} (h : inLegalRange .unsigned v = true) :
    (bitsVal (toBinary v .unsigned) : Int) = v := fromBinary_toBinary h

/-- The number of a legal value's bit-string: the value, or 256 more for a negative one (R140). -/
theorem toBinary_val {v : Int} {m : AdderMode} (h : inLegalRange m v = true) :
    (bitsVal (toBinary v m) : Int) = if 0 ≤ v then v else 256 + v := by
  cases m with
  | unsigned =>
    obtain ⟨hlo, hhi⟩ := (inLegalRange_unsigned v).mp h
    rw [toBinary_val_unsigned hlo hhi, if_pos hlo]
  | twosComplement =>
    obtain ⟨hlo, hhi⟩ := (inLegalRange_twosComplement v).mp h
    exact toBinary_val_twos hlo hhi

/-- Both readings in one: 256 less from 128 on in two's-complement mode (R141). -/
theorem fromBinary_eq_ite (x : BitString) (m : AdderMode) : fromBinary x m =
    if m = .twosComplement ∧ 128 ≤ bitsVal x then (bitsVal x : Int) - 256 else bitsVal x := by
  cases m <;> simp [fromBinary]

/-- Negation twice is the identity (R153). -/
theorem twosComplement_twosComplement (x : BitString) : twosComplement (twosComplement x) = x := by
  rw [← str8_bitsByte (twosComplement (twosComplement x)), bitsByte_twosComplement, bitsByte_twosComplement,
    BitVec.neg_neg, str8_bitsByte]

theorem twosComplement_eq_self_iff (x : BitString) :
    twosComplement x = x ↔ bitsVal x = 0 ∨ bitsVal x = 128 := by
  have hlt := bitsVal_lt x
  have hneg := twosComplement_bitsVal x
  refine ⟨fun h => ?_, fun h => bitsVal_inj ?_⟩
  · rw [h] at hneg; omega
  · omega

/-- The numeric difference of a subtraction (R146). -/
theorem addBinary_twosComplement_bitsVal (x y : BitString) :
    (bitsVal (addBinary x (twosComplement y)).bits : Int) = ((bitsVal x : Int) - bitsVal y) % 256 := by
  rw [← bitsByte_toNat, bitsByte_addBinary_twosComplement, toNat_sub_emod, bitsByte_toNat, bitsByte_toNat]

/-- The carry-out of a subtraction: no borrow, and `bitsB` not 0, whose negation is 0 and carries nothing (R149). -/
theorem addBinary_twosComplement_carry (x y : BitString) :
    (addBinary x (twosComplement y)).carry = true ↔ bitsVal y ≠ 0 ∧ bitsVal y ≤ bitsVal x := by
  have hx := bitsVal_lt x
  have hy := bitsVal_lt y
  rw [addBinary_carry_iff, twosComplement_bitsVal]
  omega

/-! ### The adder's flags (R147 to R150) -/

theorem all_not_iff_bitsVal (x : BitString) : x.toList.all (!·) = true ↔ bitsVal x = 0 := by
  have h : ∀ b0 b1 b2 b3 b4 b5 b6 b7 : Bool, (#v[b0, b1, b2, b3, b4, b5, b6, b7].toList.all (!·) = true ↔
      bitsVal #v[b0, b1, b2, b3, b4, b5, b6, b7] = 0) := by decide
  rw [bitString_eq x]; exact h _ _ _ _ _ _ _ _

theorem adderFlags_zero (m : AdderMode) (r : BitString) (c sA sB : Bool) :
    (adderFlags m r c sA sB).zero = true ↔ bitsVal r = 0 := all_not_iff_bitsVal r

theorem adderFlags_negative (m : AdderMode) (r : BitString) (c sA sB : Bool) :
    (adderFlags m r c sA sB).negative = true ↔ 128 ≤ bitsVal r ∧ m = .twosComplement := by
  simp only [adderFlags, Bool.and_eq_true, bitAt_zero_iff, decide_eq_true_iff]

theorem adderFlags_overflow_unsigned (r : BitString) (c sA sB : Bool) :
    (adderFlags .unsigned r c sA sB).overflow = c := rfl

theorem adderFlags_overflow_twosComplement (r : BitString) (c sA sB : Bool) :
    (adderFlags .twosComplement r c sA sB).overflow = true ↔ sA = sB ∧ bitAt r 0 ≠ sA := by
  simp only [adderFlags, Bool.and_eq_true, beq_iff_eq, bne_iff_ne]

/-- `V` of a two's-complement addition (R150). -/
theorem calculation_add_overflow (p : SubOvfSign) (x y : BitString) :
    (calculation p false .twosComplement x y).flags.overflow = true ↔
      bitAt x 0 = bitAt y 0 ∧ bitAt (addBinary x y).bits 0 ≠ bitAt x 0 :=
  adderFlags_overflow_twosComplement _ _ _ _

/-- `V` of a two's-complement subtraction under `flip_b` (R150, D8). -/
theorem calculation_sub_overflow_flipB (x y : BitString) :
    (calculation .flipB true .twosComplement x y).flags.overflow = true ↔
      bitAt x 0 ≠ bitAt y 0 ∧ bitAt (addBinary x (twosComplement y)).bits 0 ≠ bitAt x 0 := by
  rw [← Bool.eq_not]
  exact adderFlags_overflow_twosComplement _ _ _ _

/-- `V` of a two's-complement subtraction under `msb_of_negated_b` (R150, D8). -/
theorem calculation_sub_overflow_msbOfNegatedB (x y : BitString) :
    (calculation .msbOfNegatedB true .twosComplement x y).flags.overflow = true ↔
      bitAt x 0 = bitAt (twosComplement y) 0 ∧ bitAt (addBinary x (twosComplement y)).bits 0 ≠ bitAt x 0 :=
  adderFlags_overflow_twosComplement _ _ _ _

/-- The sign rule of an addition is signed overflow of the Bytes. -/
theorem calculation_add_overflow_toInt (p : SubOvfSign) (x y : BitString) :
    (calculation p false .twosComplement x y).flags.overflow = true ↔
      (bitsByte x).toInt + (bitsByte y).toInt < -128 ∨ 127 < (bitsByte x).toInt + (bitsByte y).toInt := by
  rw [calculation_add_overflow, bitAt_zero_eq, bitAt_zero_eq, bitAt_zero_eq, bitsByte_addBinary, ne_comm,
    addSigns_iff_toInt]

/-- Under `flip_b` the sign rule of a subtraction is signed overflow of the Bytes. -/
theorem calculation_sub_overflow_toInt (x y : BitString) :
    (calculation .flipB true .twosComplement x y).flags.overflow = true ↔
      (bitsByte x).toInt - (bitsByte y).toInt < -128 ∨ 127 < (bitsByte x).toInt - (bitsByte y).toInt := by
  rw [calculation_sub_overflow_flipB, bitAt_zero_eq x, bitAt_zero_eq y, bitAt_zero_eq,
    bitsByte_addBinary_twosComplement, ne_comm (b := (bitsByte x).getLsbD 7), subSigns_iff_toInt]

/-! ### The two readings of ADDER_SUB_OVF_SIGN (R150, D8) -/

/-- The parameter reaches nothing of a record but `V`. -/
theorem calculation_eq_with_overflow (p q : SubOvfSign) (subtract : Bool) (m : AdderMode) (x y : BitString) :
    calculation p subtract m x y =
      { calculation q subtract m x y with
        flags := { (calculation q subtract m x y).flags with
          overflow := (calculation p subtract m x y).flags.overflow } } := rfl

/-- Negation changes the sign but for its two fixed points. -/
theorem bitAt_twosComplement_zero {y : BitString} (h0 : bitsVal y ≠ 0) (h128 : bitsVal y ≠ 128) :
    bitAt (twosComplement y) 0 = !bitAt y 0 := by
  have hlt := bitsVal_lt y
  rw [Bool.eq_iff_iff, Bool.not_eq_true', ← Bool.not_eq_true, bitAt_zero_iff, bitAt_zero_iff, twosComplement_bitsVal]
  omega

/-- Subtracting 128 changes the sign, so both readings then look at the second operand's sign alone, and differ. -/
theorem calculation_overflow_opposite (x : BitString) {y : BitString} (hy : bitsVal y = 128) :
    (calculation .msbOfNegatedB true .twosComplement x y).flags.overflow =
      !(calculation .flipB true .twosComplement x y).flags.overflow := by
  have hx := bitsVal_lt x
  have hfix : twosComplement y = y := (twosComplement_eq_self_iff y).mpr (.inr hy)
  have hsign : bitAt (addBinary x (twosComplement y)).bits 0 ≠ bitAt x 0 := by
    rw [Ne, Bool.eq_iff_iff, bitAt_zero_iff, bitAt_zero_iff, hfix, addBinary_bitsVal]
    omega
  rw [Bool.eq_iff_iff, Bool.not_eq_true', ← Bool.not_eq_true, calculation_sub_overflow_flipB,
    calculation_sub_overflow_msbOfNegatedB, hfix]
  rw [hfix] at hsign
  simp only [hsign, ne_eq, not_false_eq_true, and_true, not_not]

/-- Where the negation has the other sign the readings agree; for `bitsB = 0` the result is `bitsA`, and `V` is 0. -/
theorem calculation_overflow_agree (x : BitString) {y : BitString} (hy : bitsVal y ≠ 128) :
    (calculation .flipB true .twosComplement x y).flags.overflow =
      (calculation .msbOfNegatedB true .twosComplement x y).flags.overflow := by
  rw [Bool.eq_iff_iff, calculation_sub_overflow_flipB, calculation_sub_overflow_msbOfNegatedB]
  by_cases h0 : bitsVal y = 0
  · have hbits : (addBinary x (twosComplement y)).bits = x := bitsVal_inj (by
      have hx := bitsVal_lt x
      rw [addBinary_bitsVal, twosComplement_bitsVal]; omega)
    simp only [hbits, ne_eq, not_true_eq_false, and_false]
  · rw [bitAt_twosComplement_zero h0 hy, Bool.eq_not]

/-! ### The two operations on legal operands -/

theorem exec_adderAdd {m : AdderMode} {a b : Int} (ha : inLegalRange m a = true) (hb : inLegalRange m b = true)
    (s : State) : exec (.adderAdd m a b) s =
      .next (s.deliverCalculation m (calculation s.params.adderSubOvfSign false m (toBinary a m) (toBinary b m))) := by
  rcases execAdderAdd_cases m a b s with ⟨_, _, h⟩ | ⟨h, _⟩
  · exact h
  · exact absurd ⟨ha, hb⟩ h

theorem exec_adderSub {m : AdderMode} {a b : Int} (ha : inLegalRange m a = true) (hb : inLegalRange m b = true)
    (s : State) : exec (.adderSub m a b) s =
      .next (s.deliverCalculation m (calculation s.params.adderSubOvfSign true m (toBinary a m) (toBinary b m))) := by
  rcases execAdderSub_cases m a b s with ⟨_, _, h⟩ | ⟨h, _⟩
  · exact h
  · exact absurd ⟨ha, hb⟩ h

theorem calculation_add_decimal_unsigned (p : SubOvfSign) {a b : Int} (ha : inLegalRange .unsigned a = true)
    (hb : inLegalRange .unsigned b = true) :
    (calculation p false .unsigned (toBinary a .unsigned) (toBinary b .unsigned)).resultDecimal = (a + b) % 256 := by
  calc ((bitsVal (addBinary (toBinary a .unsigned) (toBinary b .unsigned)).bits : Nat) : Int)
      = ((bitsVal (toBinary a .unsigned) : Int) + bitsVal (toBinary b .unsigned)) % 256 := by
        rw [addBinary_bitsVal]; norm_cast
    _ = (a + b) % 256 := by rw [bitsVal_toBinary_unsigned ha, bitsVal_toBinary_unsigned hb]

theorem calculation_sub_decimal_unsigned (p : SubOvfSign) {a b : Int} (ha : inLegalRange .unsigned a = true)
    (hb : inLegalRange .unsigned b = true) :
    (calculation p true .unsigned (toBinary a .unsigned) (toBinary b .unsigned)).resultDecimal = (a - b) % 256 := by
  calc ((bitsVal (addBinary (toBinary a .unsigned) (twosComplement (toBinary b .unsigned))).bits : Nat) : Int)
      = ((bitsVal (toBinary a .unsigned) : Int) - bitsVal (toBinary b .unsigned)) % 256 :=
        addBinary_twosComplement_bitsVal _ _
    _ = (a - b) % 256 := by rw [bitsVal_toBinary_unsigned ha, bitsVal_toBinary_unsigned hb]

/-- The balanced remainder modulo 256 is the one brought into -128 to 127. -/
theorem bmod_256 (v : Int) : v.bmod 256 = (v + 128) % 256 - 128 := by
  rw [Int.bmod_def]; split_ifs <;> omega

theorem calculation_add_decimal_twosComplement (p : SubOvfSign) {a b : Int}
    (ha : inLegalRange .twosComplement a = true) (hb : inLegalRange .twosComplement b = true) :
    (calculation p false .twosComplement (toBinary a .twosComplement) (toBinary b .twosComplement)).resultDecimal =
      (a + b + 128) % 256 - 128 := by
  calc fromBinary (addBinary (toBinary a .twosComplement) (toBinary b .twosComplement)).bits .twosComplement
      = (a + b).bmod 256 := by
        rw [fromBinary_twosComplement, bitsByte_addBinary, BitVec.toInt_add, toInt_toBinary ha, toInt_toBinary hb]
    _ = (a + b + 128) % 256 - 128 := bmod_256 _

theorem calculation_sub_decimal_twosComplement (p : SubOvfSign) {a b : Int}
    (ha : inLegalRange .twosComplement a = true) (hb : inLegalRange .twosComplement b = true) :
    (calculation p true .twosComplement (toBinary a .twosComplement) (toBinary b .twosComplement)).resultDecimal =
      (a - b + 128) % 256 - 128 := by
  calc fromBinary (addBinary (toBinary a .twosComplement) (twosComplement (toBinary b .twosComplement))).bits
        .twosComplement
      = (a - b).bmod 256 := by
        rw [fromBinary_twosComplement, bitsByte_addBinary_twosComplement, BitVec.toInt_sub, toInt_toBinary ha,
          toInt_toBinary hb]
    _ = (a - b + 128) % 256 - 128 := bmod_256 _

/-- A two's-complement addition has the flags the ALU's ADD writes for the same Bytes (R116, R154). -/
theorem calculation_add_flags (p : SubOvfSign) (x y : BitString) :
    (calculation p false .twosComplement x y).flags =
      ⟨decide (bitsByte x + bitsByte y = 0#8), (bitsByte x + bitsByte y).getLsbD 7,
        decide (255 < (bitsByte x).toNat + (bitsByte y).toNat),
        decide ((bitsByte x).getLsbD 7 = (bitsByte y).getLsbD 7 ∧
          (bitsByte x).getLsbD 7 ≠ (bitsByte x + bitsByte y).getLsbD 7)⟩ := by
  have hzero : (calculation p false .twosComplement x y).flags.zero = decide (bitsByte x + bitsByte y = 0#8) := by
    rw [Bool.eq_iff_iff, decide_eq_true_iff, ← bitsByte_addBinary, ← BitVec.toNat_inj, bitsByte_toNat]
    exact adderFlags_zero _ _ _ _ _
  have hnegative : (calculation p false .twosComplement x y).flags.negative = (bitsByte x + bitsByte y).getLsbD 7 := by
    rw [← bitsByte_addBinary, ← bitAt_zero_eq]
    exact Bool.and_true _
  have hcarry : (calculation p false .twosComplement x y).flags.carry =
      decide (255 < (bitsByte x).toNat + (bitsByte y).toNat) := by
    rw [bitsByte_toNat, bitsByte_toNat]
    exact addBinary_carry x y
  have hoverflow : (calculation p false .twosComplement x y).flags.overflow =
      decide ((bitsByte x).getLsbD 7 = (bitsByte y).getLsbD 7 ∧
        (bitsByte x).getLsbD 7 ≠ (bitsByte x + bitsByte y).getLsbD 7) := by
    rw [Bool.eq_iff_iff, decide_eq_true_iff, calculation_add_overflow_toInt, addSigns_iff_toInt]
  rw [← hoverflow, ← hzero, ← hnegative, ← hcarry]

/-! ### The obligations -/

/-- Settles O12: the facts about every ripple-carry pass, for the positions of `addBinary`. -/
theorem addBinaryIsRippleCarry : Obligations.AddBinaryIsRippleCarry := by
  refine fun x y => ⟨addBinary_steps_map_k x y, fun p hp => ?_, addBinary_steps_map_cIn x y,
    addBinary_getLast_cOut x y, addBinary_bitsVal x y, addBinary_carry_iff x y⟩
  obtain ⟨ha, hb, hsum, hcarry⟩ := addBinary_steps_spec hp
  exact ⟨ha, hb, addBinary_bitAt_k hp, hsum, hcarry⟩

/-- Settles O13, from the numeric value of the negation. -/
theorem twosComplementNegates : Obligations.TwosComplementNegates := fun x =>
  ⟨twosComplement_bitsVal x, twosComplement_eq_self_iff x⟩

/-- Settles O14: `fromBinary` undoes `toBinary`, and negation of Bytes is an involution. -/
theorem adderRoundTripAndInvolution : Obligations.AdderRoundTripAndInvolution :=
  ⟨fun _ _ h => fromBinary_toBinary h, twosComplement_twosComplement⟩

/-- Settles O15: the codes 00 and 01 by the decoder, the record field by field. -/
theorem adderAddResult : Obligations.AdderAddResult := by
  refine ⟨fun a b => ⟨rfl, rfl⟩, fun m a b s ha hb => ⟨_, exec_adderAdd ha hb s, addBinary_bitsVal _ _, rfl,
    addBinary_carry_iff _ _, adderFlags_zero _ _ _ _ _, adderFlags_negative _ _ _ _ _, rfl, ?_, ?_, rfl⟩⟩
  · rintro rfl; rfl
  · rintro rfl; exact calculation_add_overflow _ _ _

/-- Settles O16: as O15, the sign rule for each value of ADDER_SUB_OVF_SIGN apart. -/
theorem adderSubResult : Obligations.AdderSubResult := by
  refine ⟨fun a b => ⟨rfl, rfl⟩, fun m a b s ha hb => ⟨_, exec_adderSub ha hb s,
    addBinary_twosComplement_bitsVal _ _, rfl, addBinary_twosComplement_carry _ _,
    adderFlags_zero _ _ _ _ _, adderFlags_negative _ _ _ _ _, rfl, ?_, ?_, ?_, rfl⟩⟩
  · rintro rfl; rfl
  · rintro rfl hp; rw [hp]; exact calculation_sub_overflow_flipB _ _
  · rintro rfl hp; rw [hp]; exact calculation_sub_overflow_msbOfNegatedB _ _

/-- Settles O17: both operations complete, with the decimal result and, in two's complement, `V` of the true one. -/
theorem adderDecimalResultIsExact : Obligations.AdderDecimalResultIsExact := by
  refine fun a b s => ⟨fun ha hb => ⟨?_, ?_⟩, fun ha hb => ⟨?_, ?_⟩⟩
  · exact ⟨_, _, exec_adderAdd ha hb s, rfl, calculation_add_decimal_unsigned _ ha hb⟩
  · exact ⟨_, _, exec_adderSub ha hb s, rfl, calculation_sub_decimal_unsigned _ ha hb⟩
  · refine ⟨_, _, exec_adderAdd ha hb s, rfl, calculation_add_decimal_twosComplement _ ha hb, ?_⟩
    rw [calculation_add_overflow_toInt, toInt_toBinary ha, toInt_toBinary hb]
  · refine ⟨_, _, exec_adderSub ha hb s, rfl, calculation_sub_decimal_twosComplement _ ha hb, fun hp => ?_⟩
    rw [hp, calculation_sub_overflow_toInt, toInt_toBinary ha, toInt_toBinary hb]

/-- Settles O18: the records are equal exactly when `V` is, and `V` is compared for each operation and mode. -/
theorem overflowSignReadingsDifferOnce : Obligations.OverflowSignReadingsDifferOnce := by
  refine fun subtract m x y => ⟨⟨?_, fun h => ?_⟩, ?_⟩
  · rintro heq ⟨rfl, rfl, hy⟩
    have hopposite := calculation_overflow_opposite x hy
    rw [heq] at hopposite
    exact Bool.not_ne_self _ hopposite.symm
  · cases subtract with
    | false => rfl
    | true =>
      cases m with
      | unsigned => rfl
      | twosComplement =>
        rw [calculation_eq_with_overflow .flipB .msbOfNegatedB,
          calculation_overflow_agree x fun hy => h ⟨rfl, rfl, hy⟩]
  · rintro rfl rfl hy
    rw [← calculation_overflow_opposite x hy]
    exact calculation_eq_with_overflow _ _ _ _ _ _

/-- Settles O19: the adder's flags in the form of `exec_add`, the Byte by `bitsByte_addBinary`. -/
theorem adderTwosComplementAddAgreesWithAlu : Obligations.AdderTwosComplementAddAgreesWithAlu :=
  fun _ _ s ha hb => ⟨_, _, _, exec_adderAdd ha hb s, rfl, exec_add _ _ s, calculation_add_flags _ _ _,
    bitsByte_addBinary _ _⟩

/-- Settles O20: of the two cases of each operation only the refusal is left. -/
theorem adderRefusesIllegalOperands : Obligations.AdderRefusesIllegalOperands := by
  refine fun m a b s h => ⟨?_, ?_⟩
  · rcases execAdderAdd_cases m a b s with ⟨ha, hb, _⟩ | ⟨_, hrefused⟩
    · exact absurd ⟨ha, hb⟩ h
    · exact hrefused
  · rcases execAdderSub_cases m a b s with ⟨ha, hb, _⟩ | ⟨_, hrefused⟩
    · exact absurd ⟨ha, hb⟩ h
    · exact hrefused

/-- Settles O21: the text of a bit-string is read back as that bit-string, and each helper answers its function. -/
theorem adderHelpersAnswer : Obligations.AdderHelpersAnswer := by
  refine ⟨fun s rest mode m v hi hmode hv => ⟨toBinary v m, ?_, toBinary_val hv⟩, fun s rest mode m x hi hmode => ?_,
    fun s rest x y hi => ?_, fun s rest x hi => ?_⟩
  · rw [step, step_cons hi]
    simp only [perform, performToBinary, hmode, hv, if_true]
    rfl
  · rw [step, step_cons hi]
    simp only [perform, performFromBinary, hmode, bitStringOfText_chars, fromBinary_eq_ite]
    rfl
  · rw [step, step_cons hi]
    simp only [perform, performAddBinary, bitStringOfText_chars]
    rfl
  · rw [step, step_cons hi]
    simp only [perform, performTwosComplement, bitStringOfText_chars]
    rfl

/-- Settles O22: the three outcomes of reading the mode text (R83, D34). -/
theorem configureWritesModeOnly : Obligations.ConfigureWritesModeOnly := by
  refine fun s rest mode hi => ⟨?_, ?_, fun hu ht => ?_⟩
  · rintro rfl
    rw [step, step_cons hi]
    rfl
  · rintro rfl
    rw [step, step_cons hi]
    rfl
  · have hmode : parseMode mode = none := by rw [parseMode, if_neg hu, if_neg ht]
    rw [step, step_cons hi]
    simp only [perform, performConfigure, hmode]

end Sys2Proof.Machine
end

section
/-!
PROOFS. The statements of 42_microops.md: word, text, effect and frame of each micro-operation (R171 to R187), and that
the interpreter's `V` stays 0 (R181, R184).
-/
namespace Sys2Proof.Machine

/-! ### Words with an index (R87) -/

/-- The opcode's low four bits are 0, so the index is added to it. -/
theorem indexedWord_eq_add (opc : Nat) {n : Nat} (hn : n < 16) :
    indexedWord (BitVec.ofNat 8 (16 * opc)) n = some (BitVec.ofNat 8 (16 * opc + n)) := by
  have hor : 16 * opc ||| n = 16 * opc + n := (Nat.two_pow_add_eq_or_of_lt (i := 4) hn opc).symm
  exact indexedWord_eq_some.mpr ⟨hn, by rw [← BitVec.ofNat_or, hor]⟩

theorem decodeUop_aR {n : Nat} (hn : n < 16) : decodeUop (BitVec.ofNat 8 (0x50 + n)) = .aR n :=
  decodeUop_encodeUop (indexedWord_eq_add 5 hn)

theorem decodeUop_bR {n : Nat} (hn : n < 16) : decodeUop (BitVec.ofNat 8 (0x60 + n)) = .bR n :=
  decodeUop_encodeUop (indexedWord_eq_add 6 hn)

theorem decodeUop_rAlu {n : Nat} (hn : n < 16) : decodeUop (BitVec.ofNat 8 (0xA0 + n)) = .rAlu n :=
  decodeUop_encodeUop (indexedWord_eq_add 10 hn)

/-! ### What is discarded and what wraps (R64, R174, R185) -/

/-- A register write out of bounds is discarded. -/
theorem State.writeReg_of_le {s : State} {n : Nat} (h : s.params.nregs ≤ n) (v : Byte) : s.writeReg n v = s := by
  rw [State.writeReg, if_neg (Nat.not_lt.mpr h)]

/-- A store out of range is discarded. -/
theorem State.memWrite_of_le {s : State} {a : Nat} (h : s.params.memSize ≤ a) (v : Byte) : s.memWrite a v = s := by
  rw [State.memWrite, if_neg (Nat.not_lt.mpr h)]

theorem State.nextPc_lt {s : State} (h : s.params.memSizeLegal = true) :
    (s.pc.toNat + 1) % s.params.memSize < s.params.memSize :=
  Nat.mod_lt _ (of_decide_eq_true h).1

/-- A legal MEM_SIZE is at most 256, so the new PC fits its Byte. -/
theorem State.nextPc_toNat {s : State} (h : s.params.memSizeLegal = true) :
    s.nextPc.toNat = (s.pc.toNat + 1) % s.params.memSize := by
  have hsize : s.params.memSize ≤ 256 := (of_decide_eq_true h).2
  rw [State.nextPc, BitVec.toNat_ofNat, Nat.mod_eq_of_lt (Nat.lt_of_lt_of_le (State.nextPc_lt h) hsize)]

/-! ### What each micro-operation writes (R171 to R183) -/

theorem exec_marPc (s : State) : exec .marPc s = .next { s with mar := s.pc } := rfl

theorem exec_mdrMem (s : State) : exec .mdrMem s = .next { s with mdr := s.memRead s.mar.toNat } := rfl

theorem exec_irMdr (s : State) : exec .irMdr s = .next { s with ir := s.mdr } := rfl

theorem exec_pcInc (s : State) : exec .pcInc s = .next { s with pc := s.nextPc } := rfl

theorem exec_aR (n : Nat) (s : State) : exec (.aR n) s = .next { s with busA := s.readReg n } := rfl

theorem exec_bR (n : Nat) (s : State) : exec (.bR n) s = .next { s with busB := s.readReg n } := rfl

theorem exec_aluAdd (s : State) :
    exec .aluAdd s = .next (s.setUopResult (s.busA + s.busB) (uopFlags s.busRawAdd)) := by
  simp only [exec, execAluAdd, State.busRawAdd, maskByte_add]

theorem exec_aluSub (s : State) :
    exec .aluSub s = .next (s.setUopResult (s.busA - s.busB) (uopFlags s.busRawSub)) := by
  simp only [exec, execAluSub, State.busRawSub, maskByte_sub]

theorem exec_aluAnd (s : State) :
    exec .aluAnd s = .next (s.setUopResult (s.busA &&& s.busB) (uopFlags s.busRawAnd)) := by
  simp only [exec, execAluAnd, State.busRawAnd, maskByte_toNat]

theorem exec_rAlu (n : Nat) (s : State) : exec (.rAlu n) s = .next (s.writeReg n s.aluResult) := rfl

theorem exec_flagsAlu (s : State) : exec .flagsAlu s = .next { s with flags := s.aluFlags } := rfl

theorem exec_memMdr (s : State) : exec .memMdr s = .next (s.memWrite s.mar.toNat s.mdr) := rfl

theorem exec_unknown (s : State) : exec .unknown s = .next s := rfl

/-- A micro-operation that does not write `flags` or `IR` does the same whatever they hold (R186, R187). -/
theorem exec_uop_with_flags_ir {u : Uop} (hflags : u ≠ .flagsAlu) (hir : u ≠ .irMdr) {s t : State}
    (h : exec u.toInstr s = .next t) (f : FlagSet) (x : Byte) :
    exec u.toInstr { s with flags := f, ir := x } = .next { t with flags := f, ir := x } := by
  cases u with
  | flagsAlu => exact absurd rfl hflags
  | irMdr => exact absurd rfl hir
  | _ => cases h; rfl

/-! ### The dispatching step (R201) -/

theorem sequencerStep_of_fetch {s t : State} {stmt : Statement} (hf : s.fetch = some stmt)
    (he : exec stmt.uop.toInstr s = .next t) : sequencerStep s = .next (t.retire stmt) := by
  simp only [sequencerStep, hf, dispatchStep, he]

/-- Before the last statement the bookkeeping neither completes the run nor disarms the timer. -/
theorem State.retire_of_lt {s : State} (h : s.currentStep + 1 < s.microProgram.length) (stmt : Statement) :
    s.retire stmt = { s with
      trace := s.trace ++ [⟨s.currentStep, stmt.text, describe stmt.uop s⟩]
      currentStep := s.currentStep + 1
      freeIndex := s.freeIndex + 1 } := by
  simp only [State.retire, if_neg h.ne]

/-! ### The interpreter's overflow flags (R181, R184) -/

/-- Both overflow flags of the interpreter are 0. -/
structure State.OverflowClear (s : State) : Prop where
  aluFlags : s.aluFlags.overflow = false
  flags : s.flags.overflow = false

/-- The simplified rule fixes `V` to 0, and `flags` is only ever a copy of `aluFlags`. -/
theorem exec_uop_overflowClear {u : Uop} {s t : State} (hs : s.OverflowClear) (h : exec u.toInstr s = .next t) :
    t.OverflowClear := by
  obtain ⟨halu, hflags⟩ := exec_uop_flags h
  constructor
  · rcases halu with e | ⟨raw, e⟩ <;> rw [e]
    · exact hs.aluFlags
    · exact uopFlags_overflow raw
  · rcases hflags with e | e <;> rw [e]
    · exact hs.flags
    · exact hs.aluFlags

theorem sequencerStep_overflowClear {s t : State} (hs : s.OverflowClear) (h : sequencerStep s = .next t) :
    t.OverflowClear := by
  rcases sequencerStep_next h with ⟨stmt, u, _, _, he, rfl⟩ | ⟨_, rfl⟩
  · exact { exec_uop_overflowClear hs he with }
  · exact { hs with }

theorem timerTick_overflowClear {s t : State} (hs : s.OverflowClear) (h : timerTick s = .next t) :
    t.OverflowClear := by
  rcases timerTick_next h with ⟨_, h⟩ | ⟨_, rfl⟩
  · exact sequencerStep_overflowClear hs h
  · exact hs

/-- Of the requests to the interpreter `step()` and a tick run a micro-operation, `reset()` clears both FlagSets, a poke
or an import may write them, and every other one keeps them. -/
theorem Performed.interpreter_overflowClear {r : Request} {s t : State} (hs : s.OverflowClear) (h : Performed r s t)
    (hr : r.block = .interpreter) (hpoke : ∀ p, r ≠ .poke p) (himport : ∀ x, r ≠ .importState x) :
    t.OverflowClear := by
  cases h with
  | step _ _ h => exact sequencerStep_overflowClear hs h
  | tick _ _ h => exact timerTick_overflowClear hs h
  | run => rcases runCommand_cases s with e | ⟨_, _, e⟩ <;> rw [e] <;> exact { hs with }
  | toggleRunning => rcases toggleCommand_cases s with e | ⟨_, _, e⟩ | ⟨_, e⟩ <;> rw [e] <;> exact { hs with }
  | pause => rcases pauseCommand_cases s with e | ⟨_, e⟩ <;> rw [e] <;> exact { hs with }
  | reset => exact ⟨rfl, rfl⟩
  | loadPreset | unknownPreset | assign | assignEmpty | exportState => exact { hs with }
  | importState | importMalformed => exact absurd rfl (himport _)
  | pokeByte | pokeAluFlag | pokeFlag => exact absurd rfl (hpoke _)
  | _ => cases hr

/-- The same for every request: those to the other two blocks do not reach the FlagSets of the interpreter (R2). -/
theorem Performed.overflowClear {r : Request} {s t : State} (hs : s.OverflowClear) (h : Performed r s t)
    (hpoke : ∀ p, r ≠ .poke p) (himport : ∀ x, r ≠ .importState x) : t.OverflowClear := by
  cases hr : r.block with
  | aluEngine => rw [h.aluEngine_frame hr]; exact { hs with }
  | adder => rw [h.adder_frame hr]; exact { hs with }
  | interpreter => exact h.interpreter_overflowClear hs hr hpoke himport

/-! ### The obligations -/

/-- Settles O29: reading after the register write, and the write out of bounds that is discarded. -/
theorem rAluResult : Obligations.RAluResult := by
  refine ⟨fun _ hn => decodeUop_rAlu hn, parseUop_rAlu, fun s n hlen => ?_⟩
  refine ⟨(s.writeReg n s.aluResult).regs, exec_rAlu n s, s.writeReg_regs_length n _, fun m => ?_, fun hn => ?_⟩
  · exact State.readReg_writeReg hlen n m s.aluResult
  · rw [State.writeReg_of_le hn]

/-- Settles O31: reading after the store, the canonical form it keeps, and the store out of range that is discarded. -/
theorem memMdrResult : Obligations.MemMdrResult := by
  refine ⟨decodeUop_encodeUop rfl, parseUop_canonicalText .memMdr, fun s hwf => ?_⟩
  refine ⟨(s.memWrite s.mar.toNat s.mdr).mem, exec_memMdr s, State.memWrite_wf hwf _ _, fun x => ?_, fun ha => ?_⟩
  · exact State.memRead_memWrite hwf s.mar.toNat x s.mdr
  · rw [State.memWrite_of_le ha]

/-- Settles O35: a waiting request other than the two excluded keeps both flags 0, and so does a tick. -/
theorem interpreterOverflowStaysClear : Obligations.InterpreterOverflowStaysClear := by
  intro s t hpoke himport halu hflags h
  have hs : s.OverflowClear := ⟨halu, hflags⟩
  have ht : t.OverflowClear := by
    rcases step_next h with ⟨r, rest, hi, hp⟩ | ⟨_, htick⟩
    · have htaken : (s.take rest).OverflowClear := { hs with }
      refine hp.overflowClear htaken (fun p hr => ?_) fun x hr => ?_
      · exact hpoke p rest (hr ▸ hi)
      · exact himport x rest (hr ▸ hi)
    · exact timerTick_overflowClear hs htick
  exact ⟨ht.aluFlags, ht.flags⟩

/-- Settles O23: the description is made from the MAR that the copy of PC leaves (R214). -/
theorem marPcAndIrMdrResults : Obligations.MarPcAndIrMdrResults := fun s =>
  ⟨⟨decodeUop_encodeUop rfl, parseUop_canonicalText .marPc, exec_marPc s, rfl⟩,
    decodeUop_encodeUop rfl, parseUop_canonicalText .irMdr, exec_irMdr s⟩

/-- Settles O24: the load at the address in MAR is `MemRead`, which is 0 out of range (R63). -/
theorem mdrMemResult : Obligations.MdrMemResult :=
  ⟨decodeUop_encodeUop rfl, parseUop_canonicalText .mdrMem, exec_mdrMem⟩

/-- Settles O25: the new PC is the remainder itself, because a legal MEM_SIZE is at most 256. -/
theorem pcIncResult : Obligations.PcIncResult := by
  refine ⟨decodeUop_encodeUop rfl, parseUop_canonicalText .pcInc, fun s hsize => ?_⟩
  have hpc := State.nextPc_toNat hsize
  exact ⟨s.nextPc, exec_pcInc s, hpc, hpc ▸ State.nextPc_lt hsize⟩

/-- Settles O26: the source of both loads is the register read, which is 0 out of bounds (R185). -/
theorem busLoadResults : Obligations.BusLoadResults :=
  ⟨fun _ hn => ⟨decodeUop_aR hn, decodeUop_bR hn⟩,
    fun s n => ⟨parseUop_aR n, parseUop_bR n, exec_aR n s, exec_bR n s⟩⟩

/-- Settles O27: the simplified flag rule on the raw sum and on the raw conjunction. -/
theorem uopAddAndAndResults : Obligations.UopAddAndAndResults := by
  refine ⟨decodeUop_encodeUop rfl, parseUop_canonicalText .aluAdd, decodeUop_encodeUop rfl,
    parseUop_canonicalText .aluAnd, fun s => ⟨?_, ?_⟩⟩
  · rw [exec_aluAdd, uopFlags_busRawAdd]; rfl
  · rw [exec_aluAnd, uopFlags_busRawAnd]; rfl

/-- Settles O28: the simplified flag rule on the raw difference, which never exceeds 255 (D35). -/
theorem uopSubResult : Obligations.UopSubResult := by
  refine ⟨decodeUop_encodeUop rfl, parseUop_canonicalText .aluSub, fun s => ?_⟩
  rw [exec_aluSub, uopFlags_busRawSub]; rfl

/-- Settles O30: the FlagSet is copied whole, so each of its four flags is. -/
theorem flagsAluResult : Obligations.FlagsAluResult :=
  ⟨decodeUop_encodeUop rfl, parseUop_canonicalText .flagsAlu, exec_flagsAlu⟩

/-- Settles O32: the fetched UNKNOWN leaves the state as it is, and the bookkeeping alone remains. -/
theorem unknownIsRecordedNoOperation : Obligations.UnknownIsRecordedNoOperation := by
  refine ⟨exec_unknown, fun s rest txt hi hf hlt => ?_⟩
  have hrun : sequencerStep (s.take rest) = .next ((s.take rest).retire ⟨.unknown, txt⟩) :=
    sequencerStep_of_fetch hf (exec_unknown _)
  have hretire := State.retire_of_lt (s := s.take rest) hlt ⟨.unknown, txt⟩
  rw [step, step_cons hi, perform, hrun, hretire]
  rfl

/-- Settles O33: what each micro-operation writes, row by row of R186. -/
theorem uopFrameRule : Obligations.UopFrameRule := by
  intro u s
  cases u with
  | marPc => exact ⟨_, exec_marPc s, by simp⟩
  | mdrMem => exact ⟨_, exec_mdrMem s, by simp⟩
  | irMdr => exact ⟨_, exec_irMdr s, by simp⟩
  | pcInc => exact ⟨_, exec_pcInc s, by simp⟩
  | aR n => exact ⟨_, exec_aR n s, by simp⟩
  | bR n => exact ⟨_, exec_bR n s, by simp⟩
  | aluAdd => exact ⟨_, exec_aluAdd s, by simp [State.setUopResult]⟩
  | aluSub => exact ⟨_, exec_aluSub s, by simp [State.setUopResult]⟩
  | aluAnd => exact ⟨_, exec_aluAnd s, by simp [State.setUopResult]⟩
  | rAlu n => exact ⟨_, exec_rAlu n s, by simp [State.writeReg]⟩
  | flagsAlu => exact ⟨_, exec_flagsAlu s, by simp⟩
  | memMdr => exact ⟨_, exec_memMdr s, by simp [State.memWrite]⟩
  | unknown => exact ⟨_, exec_unknown s, by simp⟩

/-- Settles O34: FLAGS_ALU and IR_MDR overwrite what they do not read, and the others do not touch `flags` and `IR`. -/
theorem uopReadsNeitherFlagsNorIr : Obligations.UopReadsNeitherFlagsNorIr := by
  intro u s f x
  by_cases hflags : u = .flagsAlu
  · subst hflags
    exact ⟨_, exec_flagsAlu s, rfl⟩
  by_cases hir : u = .irMdr
  · subst hir
    exact ⟨_, exec_irMdr s, rfl⟩
  obtain ⟨t, he, _⟩ := exec_uop_next u s
  refine ⟨t, he, ?_⟩
  rw [if_neg hflags, if_neg hir]
  exact exec_uop_with_flags_ir hflags hir he f x

end Sys2Proof.Machine
end

section
/-!
PROOFS. The statements of 43_sequencer_and_host.md: `step()` (R200 to R202), the run driver and `reset()` (R203 to R207,
R215, R217), loads (R208, R209), snapshots (R211, R212), pokes (R213), and which requests complete (R200, R216).
-/
namespace Sys2Proof.Machine

/-! ### One step of the machine (log 1) -/

theorem step_of_request {s : State} {r : Request} {rest : List Request} (h : s.inputs = r :: rest) :
    step s = perform r (s.take rest) := step_cons h

theorem step_of_no_request {s : State} (h : s.inputs = []) : step s = timerTick s := step_nil h

/-- With no request waiting there is only the last answer to clear. -/
theorem State.take_nil {s : State} (h : s.inputs = []) : s.take [] = { s with output := .none } := by
  rw [State.take, ← h]

/-! ### The sequencer (R200 to R202) -/

/-- The bookkeeping after a statement's own effect starts from what the state held before it: a micro-operation keeps
the trace, the pointer, the program, the run state and the timer (R186, R201). -/
theorem exec_uop_retire {s t : State} {stmt : Statement} (h : exec stmt.uop.toInstr s = .next t) :
    t.retire stmt = { t with
      trace := s.trace ++ [⟨s.currentStep, stmt.text, describe stmt.uop t⟩]
      currentStep := s.currentStep + 1
      runState := if s.currentStep + 1 = s.microProgram.length then .completed else s.runState
      timerActive := if s.currentStep + 1 = s.microProgram.length then false else s.timerActive
      freeIndex := s.freeIndex + 1 } := by
  obtain ⟨_, _, _, hprogram, hstep, hrun, htimer, htrace, _, _, _, hfree⟩ := exec_uop_book h
  rw [State.retire, hprogram, hstep, hrun, htimer, htrace, hfree]

theorem sequencerStep_of_le {s : State} (h : s.microProgram.length ≤ s.currentStep) :
    sequencerStep s = .next s.wrap := by
  rw [sequencerStep, State.fetch, List.getElem?_eq_none h]

theorem timerTick_of_armed {s : State} (h : s.timerActive = true) : timerTick s = sequencerStep s := if_pos h

theorem timerTick_of_disarmed {s : State} (h : s.timerActive = false) : timerTick s = .next s := by
  rw [timerTick, h, if_neg Bool.false_ne_true]

/-! ### The driver commands (R203 to R205, R215) -/

theorem State.runCommand_of_startable {s : State} (hr : s.runState = .idle ∨ s.runState = .paused)
    (hne : s.microProgram ≠ []) : s.runCommand = s.arm := by
  unfold State.runCommand
  rcases hr with hr | hr <;> simp only [hr, if_neg hne]

theorem State.runCommand_eq_self {s : State}
    (h : s.runState = .running ∨ s.runState = .completed ∨ s.microProgram = []) : s.runCommand = s := by
  unfold State.runCommand
  rcases h with hr | hr | he
  · simp only [hr]
  · simp only [hr]
  · cases s.runState <;> simp only [he, if_true]

theorem State.toggleCommand_of_running {s : State} (h : s.runState = .running) : s.toggleCommand = s.disarm := by
  simp only [State.toggleCommand, h]

/-- But while running, `toggleRunning()` is `run()`. -/
theorem State.toggleCommand_of_not_running {s : State} (h : s.runState ≠ .running) :
    s.toggleCommand = s.runCommand := by
  unfold State.toggleCommand State.runCommand
  cases hr : s.runState with
  | running => exact absurd hr h
  | idle | paused | completed => rfl

theorem State.pauseCommand_of_running {s : State} (h : s.runState = .running) : s.pauseCommand = s.disarm := by
  simp only [State.pauseCommand, h]

theorem State.pauseCommand_of_not_running {s : State} (h : s.runState ≠ .running) : s.pauseCommand = s := by
  unfold State.pauseCommand
  cases hr : s.runState with
  | running => exact absurd hr h
  | idle | paused | completed => rfl

/-! ### Loads (R208, R209, U22) -/

theorem performLoad_of_le {program : List Statement} {s : State} (h : program.length ≤ s.params.progMax)
    (name : Option Text) : performLoad program name s = .next (s.loadProgram program name) := if_pos h

theorem performLoad_of_lt {program : List Statement} {s : State} (h : s.params.progMax < program.length)
    (name : Option Text) : performLoad program name s = .refused .programTooLong := if_neg (Nat.not_le.mpr h)

theorem performLoadPreset_of_some {s : State} {name : Text} {texts : List Text}
    (h : s.params.presets.lookup name = some texts) :
    performLoadPreset name s = performLoad (texts.map Statement.ofText) (some name) s := by
  simp only [performLoadPreset, h]

theorem performLoadPreset_of_none {s : State} {name : Text} (h : s.params.presets.lookup name = none) :
    performLoadPreset name s = .next (s.answer (.failure .unknownPreset)) := by
  simp only [performLoadPreset, h]

/-- Words are refused exactly where one is in the program and there are more registers than a word can name. -/
theorem words_refused_iff {program : List Source} {p : Params} :
    (program.any Source.isWord && decide (16 < p.nregs)) = true ↔ (∃ w, .word w ∈ program) ∧ 16 < p.nregs := by
  rw [Bool.and_eq_true, Source.any_isWord, decide_eq_true_iff]

theorem performAssign_of_words {program : List Source} {s : State} {w : Byte} (hw : .word w ∈ program)
    (hregs : 16 < s.params.nregs) : performAssign program s = .refused .wordsNeedFewerRegisters := by
  rw [performAssign, if_neg (List.ne_nil_of_mem hw), if_pos (words_refused_iff.mpr ⟨⟨w, hw⟩, hregs⟩)]

theorem performAssign_of_fit {program : List Source} {s : State} (hne : program ≠ [])
    (hwords : (∀ w, .word w ∉ program) ∨ s.params.nregs ≤ 16) :
    performAssign program s = performLoad (program.map Statement.ofSource) none s := by
  have hnot : ¬((∃ w, .word w ∈ program) ∧ 16 < s.params.nregs) := by
    rintro ⟨⟨w, hw⟩, hregs⟩
    exact hwords.elim (fun h => h w hw) (Nat.not_le.mpr hregs)
  rw [performAssign, if_neg hne, if_neg (mt words_refused_iff.mp hnot)]

/-! ### Snapshots (R211, R212) -/

/-- Statements that are what their texts parse to are restored from their texts (R90). -/
theorem Statement.map_ofText_map_text {program : List Statement} (h : ∀ st ∈ program, parseUop st.text = st.uop) :
    (program.map Statement.text).map Statement.ofText = program := by
  rw [List.map_map]
  refine (List.map_congr_left fun st hst => ?_).trans (List.map_id program)
  exact congrArg (Statement.mk · st.text) (h st hst)

/-- The memory made from MEM_SIZE Bytes reads as they say, and as 0 beyond them (R63). -/
theorem State.memRead_ofBytes {s : State} {l : List Byte} (h : l.length = s.params.memSize) (a : Nat) :
    State.memRead { s with mem := Memory.ofBytes l } a = l.getD a 0#8 := by
  by_cases ha : a < s.params.memSize
  · rw [State.memRead, if_pos ha, Memory.read_ofBytes, Memory.unlisted]
  · rw [State.memRead, if_neg ha, List.getD_eq_default l 0#8 (by omega)]

theorem performImport_of_some {r : RawSnapshot} {x : Snapshot} {s : State} (h : r.check s.params = some x) :
    performImport r s = performLoad (x.microProgram.map Statement.ofText) x.presetName (s.withDatapath x.state) := by
  simp only [performImport, h]

theorem performImport_of_none {r : RawSnapshot} {s : State} (h : r.check s.params = none) :
    performImport r s = .next (s.answer (.failure .malformedSnapshot)) := by
  simp only [performImport, h]

/-- A snapshot with a program, of NREGS registers and MEM_SIZE Bytes, is loaded as that program (R212). -/
theorem performImport_toRaw {x : Snapshot} {s : State} (hne : x.microProgram ≠ [])
    (hregs : x.state.registers.length = s.params.nregs) (hmem : x.state.memory.length = s.params.memSize) :
    performImport x.toRaw s =
      performLoad (x.microProgram.map Statement.ofText) x.presetName (s.withDatapath x.state) :=
  performImport_of_some (RawSnapshot.check_eq_some.mpr ⟨rfl, hne, hregs, hmem⟩)

/-- What a state of the invariant with a program hands out is loaded again where the parameters are the same. -/
theorem State.Inv.performImport_exported {s u : State} (hs : s.Inv) (hne : s.microProgram ≠ [])
    (hparams : u.params = s.params) :
    performImport s.exported.toRaw u =
      .next ((u.withDatapath s.datapath).loadProgram s.microProgram s.presetName) := by
  have hprogram : s.exported.microProgram.map Statement.ofText = s.microProgram :=
    Statement.map_ofText_map_text hs.texts_parse
  have hregs : s.exported.state.registers.length = u.params.nregs := hparams ▸ hs.regs_length
  have hmem : s.exported.state.memory.length = u.params.memSize := hparams ▸ Memory.length_toBytes _ _
  have hfits : s.microProgram.length ≤ (u.withDatapath s.datapath).params.progMax := hparams ▸ hs.program_fits
  rw [performImport_toRaw (mt List.map_eq_nil_iff.mp hne) hregs hmem, hprogram]
  exact performLoad_of_le hfits _

/-- No field of a datapath given as the data of a snapshot is missing. -/
theorem Datapath.toRaw_present (d : Datapath) :
    ¬(d.toRaw.registers = none ∨ d.toRaw.pc = none ∨ d.toRaw.ir = none ∨ d.toRaw.mar = none ∨ d.toRaw.mdr = none ∨
      d.toRaw.busA = none ∨ d.toRaw.busB = none ∨ d.toRaw.aluResult = none ∨ d.toRaw.aluFlags = none ∨
      d.toRaw.flags = none ∨ d.toRaw.memory = none) := by
  simp [Datapath.toRaw]

theorem byte_inRange (b : Byte) : ¬((b.toNat : Int) < 0 ∨ 255 < (b.toNat : Int)) := by
  have := b.isLt
  omega

/-- Every number in it is in 0 to 255. -/
theorem Datapath.toRaw_inRange {d : Datapath} {v : Int}
    (h : d.toRaw.pc = some v ∨ d.toRaw.ir = some v ∨ d.toRaw.mar = some v ∨ d.toRaw.mdr = some v ∨
      d.toRaw.busA = some v ∨ d.toRaw.busB = some v ∨ d.toRaw.aluResult = some v ∨
      (∃ l, d.toRaw.registers = some l ∧ v ∈ l) ∨ (∃ l, d.toRaw.memory = some l ∧ v ∈ l)) : ¬(v < 0 ∨ 255 < v) := by
  have hbyte : ∃ b : Byte, (b.toNat : Int) = v := by
    rcases h with h | h | h | h | h | h | h | ⟨l, hl, hv⟩ | ⟨l, hl, hv⟩
    iterate 7 exact ⟨_, Option.some.inj h⟩
    · cases hl
      exact (List.mem_map.mp hv).imp fun _ hb => hb.2
    · cases hl
      exact (List.mem_map.mp hv).imp fun _ hb => hb.2
  obtain ⟨b, rfl⟩ := hbyte
  exact byte_inRange b

/-! ### Pokes (R213, U14) -/

theorem byteOfInt_eq_none {v : Int} (h : v < 0 ∨ 255 < v) : byteOfInt v = none := if_neg (by omega)

theorem byteOfInt_isSome_iff (v : Int) : (byteOfInt v).isSome = true ↔ 0 ≤ v ∧ v ≤ 255 := by
  unfold byteOfInt
  split_ifs with h <;> simp [h]

theorem step_poke_byte {s : State} {rest : List Request} {f : ByteField} {v : Int} {b : Byte} (hv : b.toNat = v)
    (hf : f.present s.params = true) (hi : s.inputs = .poke (.byte f v) :: rest) :
    step s = .next ((s.take rest).setByteField f b) := by
  subst hv
  rw [step_of_request hi]
  simp only [perform, performPoke, State.take_params, hf, if_true, byteOfInt_toNat]

/-! ### Which requests complete (R200, R216) -/

/-- An outcome that is neither a fault nor a refusal. -/
def Completes (o : Host.Outcome State Fault Refusal) : Prop := ∃ t, o = .next t

@[simp] theorem completes_next (t : State) : Completes (.next t) := ⟨t, rfl⟩

@[simp] theorem not_completes_refused (r : Refusal) : ¬Completes (.refused r) := by
  rintro ⟨t, ht⟩
  cases ht

@[simp] theorem completes_ite {c : Prop} [Decidable c] (t : State) (r : Refusal) :
    Completes (if c then .next t else .refused r) ↔ c := by
  split_ifs with h <;> simp [h]

/-- `step()` never fails: a dispatching step and the wrap step both complete. -/
theorem sequencerStep_completes (s : State) : Completes (sequencerStep s) := by
  rcases sequencerStep_cases s with ⟨_, t, _, _, _, e⟩ | ⟨_, e⟩ <;> exact ⟨_, e⟩

theorem timerTick_completes (s : State) : Completes (timerTick s) := by
  rcases timerTick_cases s with ⟨_, e⟩ | ⟨_, e⟩ <;> rw [e]
  · exact sequencerStep_completes s
  · exact completes_next s

theorem aluPresent_completes_iff (op : BitVec 4) (a b : Byte) (s : State) :
    Completes (performIssueWord (.alu op a b) s) ↔ op.toNat < 10 := by
  rcases aluPresent_cases op a b s with ⟨hlt, y, f, e⟩ | ⟨hge, e⟩ <;> rw [e]
  · exact iff_of_true (completes_next _) hlt
  · exact iff_of_false (not_completes_refused _) (Nat.not_lt.mpr hge)

theorem exec_adder_completes_iff (subtract : Bool) (m : AdderMode) (a b : Int) (s : State) :
    Completes (exec (if subtract then .adderSub m a b else .adderAdd m a b) s) ↔
      inLegalRange m a = true ∧ inLegalRange m b = true := by
  cases subtract with
  | false =>
    change Completes (execAdderAdd m a b s) ↔ _
    rcases execAdderAdd_cases m a b s with ⟨ha, hb, e⟩ | ⟨hout, e⟩ <;> rw [e]
    · exact iff_of_true (completes_next _) ⟨ha, hb⟩
    · exact iff_of_false (not_completes_refused _) hout
  | true =>
    change Completes (execAdderSub m a b s) ↔ _
    rcases execAdderSub_cases m a b s with ⟨ha, hb, e⟩ | ⟨hout, e⟩ <;> rw [e]
    · exact iff_of_true (completes_next _) ⟨ha, hb⟩
    · exact iff_of_false (not_completes_refused _) hout

theorem performCalculate_completes_iff (a b : Int) (operation mode : Text) (s : State) :
    Completes (performCalculate a b operation mode s) ↔
      (Request.calculate a b operation mode).accepted s.params = true := by
  cases hmode : parseMode mode with
  | none => simp [performCalculate, Request.accepted, hmode]
  | some m =>
    cases hop : parseOperation operation with
    | none => simp [performCalculate, Request.accepted, hmode, hop]
    | some subtract =>
      rw [performCalculate_of_parse hmode hop, exec_adder_completes_iff]
      simp [Request.accepted, hmode, hop]

theorem performConfigure_completes_iff (mode : Text) (s : State) :
    Completes (performConfigure mode s) ↔ (parseMode mode).isSome = true := by
  cases h : parseMode mode <;> simp [performConfigure, h]

theorem performToBinary_completes_iff (v : Int) (mode : Text) (s : State) :
    Completes (performToBinary v mode s) ↔ ((parseMode mode).any fun m => inLegalRange m v) = true := by
  cases h : parseMode mode <;> simp [performToBinary, h]

theorem performFromBinary_completes_iff (bits mode : Text) (s : State) :
    Completes (performFromBinary bits mode s) ↔
      ((parseMode mode).isSome && (bitStringOfText bits).isSome) = true := by
  cases hm : parseMode mode <;> cases hb : bitStringOfText bits <;> simp [performFromBinary, hm, hb]

theorem performAddBinary_completes_iff (x y : Text) (s : State) :
    Completes (performAddBinary x y s) ↔ ((bitStringOfText x).isSome && (bitStringOfText y).isSome) = true := by
  cases hx : bitStringOfText x <;> cases hy : bitStringOfText y <;> simp [performAddBinary, hx, hy]

theorem performTwosComplement_completes_iff (bits : Text) (s : State) :
    Completes (performTwosComplement bits s) ↔ (bitStringOfText bits).isSome = true := by
  cases h : bitStringOfText bits <;> simp [performTwosComplement, h]

theorem performLoad_completes_iff (program : List Statement) (name : Option Text) (s : State) :
    Completes (performLoad program name s) ↔ program.length ≤ s.params.progMax := completes_ite _ _

theorem performLoadPreset_completes_iff (name : Text) (s : State) :
    Completes (performLoadPreset name s) ↔ (Request.loadPreset name).accepted s.params = true := by
  cases h : s.params.presets.lookup name with
  | none => simp [performLoadPreset_of_none h, Request.accepted, h]
  | some texts => simp [performLoadPreset_of_some h, performLoad_completes_iff, Request.accepted, h]

theorem performAssign_completes_iff (program : List Source) (s : State) :
    Completes (performAssign program s) ↔ (Request.assignProgram program).accepted s.params = true := by
  unfold performAssign Request.accepted
  split_ifs with hne hwords
  · simp [hne]
  · simp only [not_completes_refused, hwords, hne, List.isEmpty_iff, Bool.not_true, Bool.and_false, Bool.or_false]
  · simp [performLoad_completes_iff, hne, hwords]

theorem performImport_completes_iff (r : RawSnapshot) (s : State) :
    Completes (performImport r s) ↔ (Request.importState r).accepted s.params = true := by
  cases h : r.check s.params with
  | none => simp [performImport_of_none h, Request.accepted, h]
  | some x => simp [performImport_of_some h, performLoad_completes_iff, Request.accepted, h]

theorem performPoke_completes_iff (p : Poke) (s : State) :
    Completes (performPoke p s) ↔ p.accepted s.params = true := by
  cases p with
  | byte f v =>
    simp only [performPoke, Poke.accepted, Bool.and_eq_true, decide_eq_true_iff, ← byteOfInt_isSome_iff]
    cases hf : f.present s.params <;> cases hb : byteOfInt v <;> simp
  | aluFlag | flag => exact iff_of_true (completes_next _) rfl
  | locked => exact iff_of_false (not_completes_refused _) Bool.false_ne_true

/-- A request completes exactly when it is one the model accepts. -/
theorem perform_completes_iff (r : Request) (s : State) :
    Completes (perform r s) ↔ r.accepted s.params = true := by
  cases r with
  | aluPresent op a b => exact (aluPresent_completes_iff op a b s).trans decide_eq_true_iff.symm
  | adderPresent ctl a b =>
    obtain ⟨_, _, e⟩ := adderPresent_next ctl a b s
    exact iff_of_true ⟨_, e⟩ rfl
  | calculate a b operation mode => exact performCalculate_completes_iff a b operation mode s
  | configure mode => exact performConfigure_completes_iff mode s
  | toBinary v mode => exact performToBinary_completes_iff v mode s
  | fromBinary bits mode => exact performFromBinary_completes_iff bits mode s
  | addBinary x y => exact performAddBinary_completes_iff x y s
  | twosComplement bits => exact performTwosComplement_completes_iff bits s
  | step => exact iff_of_true (sequencerStep_completes s) rfl
  | tick => exact iff_of_true (timerTick_completes s) rfl
  | loadPreset name => exact performLoadPreset_completes_iff name s
  | assignProgram program => exact performAssign_completes_iff program s
  | importState x => exact performImport_completes_iff x s
  | poke p => exact performPoke_completes_iff p s
  | aluGetResult | aluGetFlags | run | toggleRunning | pause | reset | exportState =>
    exact iff_of_true (completes_next _) rfl

/-! ### Step pointer, trace and run state (R214, R215, R217) -/

/-- How a transition moves the step pointer and the trace, loads and `reset()` apart. -/
inductive PointerMove (s t : State) : Prop where
  | stays (step_eq : t.currentStep = s.currentStep) (trace_eq : t.trace = s.trace)
  | advances (below : s.currentStep < s.microProgram.length) (step_eq : t.currentStep = s.currentStep + 1)
      (recorded : ∃ e, e.step = s.currentStep ∧ t.trace = s.trace ++ [e])
  | wraps (at_end : s.microProgram.length ≤ s.currentStep) (step_eq : t.currentStep = 0) (trace_eq : t.trace = s.trace)

/-- A transition within a program: the pointer moves as `PointerMove` says, and `completed` is not left. -/
structure Progress (s t : State) : Prop where
  pointer : PointerMove s t
  completed : s.runState = .completed → t.runState = .completed

/-- What a load and `reset()` leave: the program from its beginning, not started, with nothing recorded (R207, D22). -/
structure State.Rewound (t : State) : Prop where
  idle : t.runState = .idle
  step_zero : t.currentStep = 0
  trace_empty : t.trace = []

/-- The requests that may rewind (R215, D20). -/
def Request.Rewinds (r : Request) : Prop := r = .reset ∨ r.IsLoad

theorem Progress.of_eq {s t : State} (hstep : t.currentStep = s.currentStep) (htrace : t.trace = s.trace)
    (hrun : t.runState = s.runState) : Progress s t :=
  ⟨.stays hstep htrace, hrun.trans⟩

theorem sequencerStep_progress {s t : State} (h : sequencerStep s = .next t) : Progress s t := by
  rcases sequencerStep_next h with ⟨stmt, u, _, hlt, he, rfl⟩ | ⟨hge, rfl⟩
  · rw [exec_uop_retire he]
    refine ⟨.advances hlt rfl ⟨_, rfl, rfl⟩, fun hc => ?_⟩
    simp only [hc, ite_self]
  · exact ⟨.wraps hge rfl rfl, id⟩

theorem timerTick_progress {s t : State} (h : timerTick s = .next t) : Progress s t := by
  rcases timerTick_next h with ⟨_, h⟩ | ⟨_, rfl⟩
  · exact sequencerStep_progress h
  · exact .of_eq rfl rfl rfl

/-- The driver starts a run only from `idle` or `paused` and pauses only a running one. -/
theorem Progress.arm {s : State} (h : s.runState = .idle ∨ s.runState = .paused) : Progress s s.arm :=
  ⟨.stays rfl rfl, fun hc => by rcases h with h | h <;> cases h.symm.trans hc⟩

theorem Progress.disarm {s : State} (h : s.runState = .running) : Progress s s.disarm :=
  ⟨.stays rfl rfl, fun hc => by cases h.symm.trans hc⟩

theorem Progress.setByteField (s : State) (f : ByteField) (v : Byte) : Progress s (s.setByteField f v) := by
  cases f <;> exact .of_eq rfl rfl rfl

/-- A request to the interpreter makes progress within the program, or is one that may rewind it and does. -/
theorem Performed.interpreter_progress {r : Request} {s t : State} (h : Performed r s t)
    (hr : r.block = .interpreter) : Progress s t ∨ (t.Rewound ∧ r.Rewinds) := by
  cases h with
  | step _ _ h => exact .inl (sequencerStep_progress h)
  | tick _ _ h => exact .inl (timerTick_progress h)
  | run =>
    rcases runCommand_cases s with e | ⟨_, hr, e⟩ <;> rw [e]
    · exact .inl (.of_eq rfl rfl rfl)
    · exact .inl (.arm hr)
  | toggleRunning =>
    rcases toggleCommand_cases s with e | ⟨_, hr, e⟩ | ⟨hr, e⟩ <;> rw [e]
    · exact .inl (.of_eq rfl rfl rfl)
    · exact .inl (.arm hr)
    · exact .inl (.disarm hr)
  | pause =>
    rcases pauseCommand_cases s with e | ⟨hr, e⟩ <;> rw [e]
    · exact .inl (.of_eq rfl rfl rfl)
    · exact .inl (.disarm hr)
  | reset => exact .inr ⟨⟨rfl, rfl, rfl⟩, .inl rfl⟩
  | loadPreset name => exact .inr ⟨⟨rfl, rfl, rfl⟩, .inr (.inl ⟨name, rfl⟩)⟩
  | assign program => exact .inr ⟨⟨rfl, rfl, rfl⟩, .inr (.inr (.inl ⟨program, rfl⟩))⟩
  | importState x => exact .inr ⟨⟨rfl, rfl, rfl⟩, .inr (.inr (.inr ⟨x, rfl⟩))⟩
  | pokeByte f _ b => exact .inl (.setByteField s f b)
  | unknownPreset | assignEmpty | exportState | importMalformed | pokeAluFlag | pokeFlag =>
    exact .inl (.of_eq rfl rfl rfl)
  | _ => cases hr

/-- The same for every request: those to the other two blocks do not reach the sequencer (R2). -/
theorem Performed.progress {r : Request} {s t : State} (h : Performed r s t) :
    Progress s t ∨ (t.Rewound ∧ r.Rewinds) := by
  cases hr : r.block with
  | aluEngine => rw [h.aluEngine_frame hr]; exact .inl (.of_eq rfl rfl rfl)
  | adder => rw [h.adder_frame hr]; exact .inl (.of_eq rfl rfl rfl)
  | interpreter => exact h.interpreter_progress hr

/-- Taking a request from the list moves nothing. -/
theorem Progress.of_take {s t : State} {rest : List Request} (h : Progress (s.take rest) t) : Progress s t := by
  refine ⟨?_, h.completed⟩
  cases h.pointer with
  | stays hstep htrace => exact .stays hstep htrace
  | advances hlt hstep he => exact .advances hlt hstep he
  | wraps hge hstep htrace => exact .wraps hge hstep htrace

/-- The same for every step of the machine; a step that rewinds has taken a request. -/
theorem step_progress {s t : State} (h : step s = .next t) :
    Progress s t ∨ (t.Rewound ∧ ∃ r rest, s.inputs = r :: rest ∧ r.Rewinds) := by
  rcases step_next h with ⟨r, rest, hi, hp⟩ | ⟨_, ht⟩
  · rcases hp.progress with hp | ⟨hrewound, hr⟩
    · exact .inl hp.of_take
    · exact .inr ⟨hrewound, r, rest, hi, hr⟩
  · exact .inl (timerTick_progress ht)

/-! ### A run (R206, R217) -/

/-- The index and the text of the statements of a program from an index on. -/
def statementsFrom (program : List Statement) (k : Nat) : List (Nat × Text) :=
  ((program.map Statement.text).zipIdx.map fun p => (p.2, p.1)).drop k

theorem statementsFrom_of_getElem? {program : List Statement} {k : Nat} {stmt : Statement}
    (h : program[k]? = some stmt) : statementsFrom program k = (k, stmt.text) :: statementsFrom program (k + 1) := by
  obtain ⟨hlt, rfl⟩ := List.getElem?_eq_some_iff.mp h
  rw [statementsFrom, List.drop_eq_getElem_cons (by simpa using hlt)]
  simp [statementsFrom]

theorem statementsFrom_length (program : List Statement) : statementsFrom program program.length = [] :=
  List.drop_eq_nil_of_le (by simp)

/-- The index and the text of the statements a trace records. -/
def State.recorded (s : State) : List (Nat × Text) := s.trace.map fun e => (e.step, e.operation)

/-- A state of the invariant on an uninterrupted run: running, or come to the end of the program. -/
structure State.OnRun (s : State) : Prop where
  inv : s.Inv
  undisturbed : s.inputs = []
  run : s.runState = .running ∨ s.runState = .completed ∧ s.currentStep = s.microProgram.length

/-- A running state is below the end of its program (R206). -/
theorem State.Inv.lt_of_running {s : State} (hs : s.Inv) (h : s.runState = .running) :
    s.currentStep < s.microProgram.length :=
  hs.not_exhausted (by simp [h]) (hs.running_loaded h)

/-- The tick of a running state executes and records the statement at the pointer, and the run goes on, or ends with
the program. -/
theorem State.OnRun.tick {s : State} (hs : s.OnRun) (hr : s.runState = .running) :
    ∃ u, step s = .next u ∧ u.OnRun ∧ u.microProgram = s.microProgram ∧ u.currentStep = s.currentStep + 1 ∧
      s.recorded ++ statementsFrom s.microProgram s.currentStep =
        u.recorded ++ statementsFrom u.microProgram u.currentStep := by
  have hlt := hs.inv.lt_of_running hr
  have hfetch : s.fetch = some s.microProgram[s.currentStep] := List.getElem?_eq_getElem hlt
  generalize s.microProgram[s.currentStep] = stmt at hfetch
  obtain ⟨t, he, _⟩ := exec_uop_next stmt.uop s
  obtain ⟨_, _, _, hprogram, _, _, _, _, _, hinputs, _⟩ := exec_uop_book he
  have hstep := sequencerStep_of_fetch hfetch he
  have hinv := sequencerStep_keeps_inv hs.inv hstep
  have harmed : s.timerActive = true := by rw [hs.inv.timer_running, hr]; rfl
  refine ⟨t.retire stmt, ?_, ⟨hinv, hinputs.trans hs.undisturbed, ?_⟩, hprogram, ?_, ?_⟩
  · rw [step_of_no_request hs.undisturbed, timerTick_of_armed harmed, hstep]
  · rw [exec_uop_retire he, hprogram]
    by_cases hend : s.currentStep + 1 = s.microProgram.length
    · exact .inr ⟨if_pos hend, hend⟩
    · exact .inl ((if_neg hend).trans hr)
  · rw [exec_uop_retire he]
  · rw [exec_uop_retire he, hprogram, statementsFrom_of_getElem? hfetch]
    simp [State.recorded]

theorem coreRun_succ {M : Host.Core} {s u : M.State} (h : M.step s = .next u) (n : Nat) :
    M.run (n + 1) s = M.run n u := by
  rw [Host.Core.run, h]

/-- A run reaches the end of the program in as many steps as it has statements left, and records them in order. -/
theorem State.OnRun.reaches_end (n : Nat) {s : State} (hs : s.OnRun)
    (hn : s.microProgram.length - s.currentStep = n) :
    ∃ t, Sys2Proof.core.run n s = .next t ∧ t.OnRun ∧ t.runState = .completed ∧ t.microProgram = s.microProgram ∧
      t.currentStep = s.microProgram.length ∧
      t.recorded = s.recorded ++ statementsFrom s.microProgram s.currentStep := by
  induction n generalizing s with
  | zero =>
    rcases hs.run with hr | ⟨hc, hend⟩
    · have := hs.inv.lt_of_running hr
      omega
    · refine ⟨s, rfl, hs, hc, rfl, hend, ?_⟩
      rw [hend, statementsFrom_length, List.append_nil]
  | succ n ih =>
    rcases hs.run with hr | ⟨_, hend⟩
    · obtain ⟨u, hstep, hu, hprogram, hnext, hrecorded⟩ := hs.tick hr
      obtain ⟨t, hrun, ht, hc, hp, hend, hrec⟩ := ih hu (by rw [hprogram, hnext]; omega)
      exact ⟨t, (coreRun_succ (M := Sys2Proof.core) hstep n).trans hrun, ht, hc, hp.trans hprogram, hprogram ▸ hend,
        hrec.trans hrecorded.symm⟩
    · omega

/-! ### The obligations -/

/-- Settles O36: the statement's own effect by `exec`, then the bookkeeping from what the state held before it. -/
theorem stepRunsFetchedStatement : Obligations.StepRunsFetchedStatement := by
  intro s rest stmt hi hf
  obtain ⟨t, he, _⟩ := exec_uop_next stmt.uop (s.take rest)
  have hstep : sequencerStep (s.take rest) = .next (t.retire stmt) := sequencerStep_of_fetch hf he
  refine ⟨t, he, ?_⟩
  rw [step_of_request hi, perform, hstep, exec_uop_retire he]
  rfl

/-- Settles O40: a step that does not keep `completed` is one that rewinds. -/
theorem completedIsLeftOnlyByResetOrLoad : Obligations.CompletedIsLeftOnlyByResetOrLoad := by
  intro s t hc h hleft
  rcases step_progress h with hp | ⟨hrewound, r, rest, hi, hr⟩
  · exact absurd (hp.completed hc) hleft
  · exact ⟨hrewound.idle, hrewound.step_zero, hrewound.trace_empty, r, rest, hi, hr⟩

/-- Settles O45: induction on the statements left, over the states of an undisturbed run. -/
theorem runReachesCompleted : Obligations.RunReachesCompleted := by
  intro s hs hr hi
  obtain ⟨t, hrun, ht, hc, hprogram, hend, hrecorded⟩ := State.OnRun.reaches_end _ ⟨hs, hi, .inl hr⟩ rfl
  exact ⟨t, hrun, hc, by rw [ht.inv.timer_running, hc]; rfl, hend, hprogram, hrecorded⟩

/-- Settles O46: the moves within a program, and the rewind. -/
theorem stepPointerMovesInThreeWays : Obligations.StepPointerMovesInThreeWays := by
  intro s t h
  rcases step_progress h with ⟨hmove, _⟩ | ⟨hrewound, _⟩
  · cases hmove with
    | stays hstep htrace => exact .inl ⟨hstep, htrace⟩
    | advances hlt hstep hrecorded => exact .inr (.inl ⟨hstep, hlt, hrecorded⟩)
    | wraps hge hstep htrace => exact .inr (.inr (.inl ⟨hstep, htrace, hge⟩))
  · exact .inr (.inr (.inr ⟨hrewound.step_zero, hrewound.trace_empty⟩))

/-- Settles O48: what is handed out lists memory as it reads; an import is a load of the snapshot's program; and the
Bytes of a canonical memory within MEM_SIZE determine it. -/
theorem exportThenImportRestores : Obligations.ExportThenImportRestores := by
  refine ⟨fun s rest hi => ?_, fun s rest x hi hne hregs hmem => ?_, fun s u rest rest' hs hne hi => ?_⟩
  · refine ⟨s.mem.toBytes s.params.memSize, Memory.length_toBytes _ _, Memory.getD_toBytes _ _, ?_⟩
    rw [step_of_request hi]
    rfl
  · have himport := performImport_toRaw (s := s.take rest) hne hregs hmem
    rw [step_of_request hi, perform, himport]
    refine ⟨fun hfits => ⟨Memory.ofBytes x.state.memory, Memory.wf_ofBytes _, State.memRead_ofBytes hmem, ?_⟩,
      fun hlong => ?_⟩
    · exact performLoad_of_le (by simpa using hfits) _
    · exact performLoad_of_lt (by simpa using hlong) _
  · refine ⟨s.exported, by rw [step_of_request hi]; rfl, fun hparams hu => ?_⟩
    have hmem : Memory.ofBytes s.datapath.memory = s.mem := Memory.ofBytes_toBytes hs.mem_wf hs.mem_within
    rw [step_of_request hu, perform, hs.performImport_exported (u := u.take rest') hne hparams,
      State.withDatapath, hmem]
    rfl

/-- Settles O49: a snapshot that passes the check is the data of a snapshot with a program and of the right sizes,
so it has none of the malformations. -/
theorem malformedImportIsReportedOnly : Obligations.MalformedImportIsReportedOnly := by
  intro s rest x hi hbad
  have hcheck : x.check (s.take rest).params = none := by
    refine Option.eq_none_iff_forall_ne_some.mpr fun y hy => ?_
    obtain ⟨rfl, hne, hregs, hmem⟩ := RawSnapshot.check_eq_some.mp hy
    rcases hbad with hx | ⟨_, _, hx⟩ | ⟨_, _, hx⟩ | ⟨_, _, hx⟩ | ⟨_, _, hx⟩ | ⟨_, _, _, hx, hmissing⟩ |
      ⟨_, _, _, v, hx, hv, hfield⟩ | ⟨_, _, _, l, hx, hl, hlen⟩ | ⟨_, _, _, l, hx, hl, hlen⟩
    · cases hx
    · cases hx
    · cases hx
    · cases hx
    · exact hne (Option.some.inj (RawSnapshot.fields.inj hx).1)
    · cases hx
      exact Datapath.toRaw_present _ hmissing
    · cases hx
      exact Datapath.toRaw_inRange hfield hv
    · cases hx
      cases hl
      exact hlen (List.length_map _ |>.trans hmem)
    · cases hx
      cases hl
      exact hlen (List.length_map _ |>.trans hregs)
  rw [step_of_request hi, perform, performImport_of_none hcheck]
  rfl

/-- Settles O50: the one field is the one `setByteField` writes; a cell and a register by the read after the write. -/
theorem pokeWritesOneField : Obligations.PokeWritesOneField := by
  intro s rest
  refine ⟨fun v b hv => ⟨step_poke_byte hv rfl, step_poke_byte hv rfl, step_poke_byte hv rfl, step_poke_byte hv rfl,
    step_poke_byte hv rfl, step_poke_byte hv rfl, step_poke_byte hv rfl, fun a hwf ha hi => ?_,
    fun n hlen hn hi => ?_, fun f hf => step_poke_byte hv hf⟩, fun n q hi => ?_, fun n q hi => ?_,
    fun f q => ⟨rfl, rfl, rfl, rfl⟩, fun f w hf hw hi => ?_, fun f w hf hi => ?_, fun f w hi => ?_⟩
  · refine ⟨(s.memWrite a b).mem, step_poke_byte (f := .memory a) hv (decide_eq_true ha) hi, fun x => ?_⟩
    exact (State.memRead_memWrite hwf a x b).trans (by simp only [ha, and_true])
  · refine ⟨(s.writeReg n b).regs, step_poke_byte (f := .reg n) hv (decide_eq_true hn) hi, fun x => ?_⟩
    exact (State.readReg_writeReg hlen n x b).trans (by simp only [hn, and_true])
  · rw [step_of_request hi]
    rfl
  · rw [step_of_request hi]
    rfl
  · rw [step_of_request hi]
    simp only [perform, performPoke, State.take_params, hf, if_true, byteOfInt_eq_none hw]
  · rw [step_of_request hi]
    simp only [perform, performPoke, State.take_params, hf, Bool.false_eq_true, if_false]
  · rw [step_of_request hi]
    rfl

/-- Settles O56: a tick completes, and a request exactly when it is accepted. -/
theorem stepCompletesExactlyOnAcceptedRequests : Obligations.StepCompletesExactlyOnAcceptedRequests := by
  refine fun s => ⟨fun hi => ?_, fun r rest hi => ?_⟩
  · rw [step_of_no_request hi]
    exact timerTick_completes s
  · rw [step_of_request hi]
    exact perform_completes_iff r (s.take rest)

/-- Settles O38: from the end of the program on nothing is fetched, and the wrap step is all. -/
theorem wrapStepOnlyRewinds : Obligations.WrapStepOnlyRewinds := by
  intro s rest hi hge
  have hwrap : sequencerStep (s.take rest) = .next (s.take rest).wrap := sequencerStep_of_le hge
  rw [step_of_request hi, perform, hwrap]
  rfl

/-- Settles O39: each command in the run states in which it acts, and in the others. -/
theorem runDriverCommands : Obligations.RunDriverCommands := by
  refine fun s rest => ⟨fun hi => ?_, fun hi => ?_, fun hi => ?_⟩ <;> rw [step_of_request hi, perform]
  · constructor
    · intro hr hne
      rw [State.runCommand_of_startable (s := s.take rest) hr hne]
      rfl
    · intro h
      rw [State.runCommand_eq_self (s := s.take rest) h]
      rfl
  · refine ⟨fun hr => ?_, fun hr hne => ?_, fun h => ?_⟩
    · rw [State.toggleCommand_of_running (s := s.take rest) hr]
      rfl
    · have hnot : s.runState ≠ .running := by rcases hr with hr | hr <;> simp [hr]
      rw [State.toggleCommand_of_not_running (s := s.take rest) hnot,
        State.runCommand_of_startable (s := s.take rest) hr hne]
      rfl
    · have hnot : s.runState ≠ .running := by rcases h with hr | ⟨hr, _⟩ <;> simp [hr]
      rw [State.toggleCommand_of_not_running (s := s.take rest) hnot,
        State.runCommand_eq_self (s := s.take rest) (.inr (h.imp_right And.right))]
      rfl
  · constructor
    · intro hr
      rw [State.pauseCommand_of_running (s := s.take rest) hr]
      rfl
    · intro hr
      rw [State.pauseCommand_of_not_running (s := s.take rest) hr]
      rfl

/-- Settles O41: the tick and `step()` are the same transition while armed, and it does not reach the answer. -/
theorem tickIsOneStep : Obligations.TickIsOneStep := by
  refine fun s rest => ⟨fun hi harmed => ?_, fun hi hoff => ?_, fun hi harmed => ?_, fun hi hoff => ?_⟩
  · rw [step_of_request hi, perform, timerTick_of_armed (s := s.take rest) harmed]
    rfl
  · rw [step_of_request hi, perform, timerTick_of_disarmed (s := s.take rest) hoff]
    rfl
  · obtain ⟨t, ht⟩ := sequencerStep_output s
    refine ⟨{ t with output := .none }, ?_, ?_⟩
    · have htaken : step { s with inputs := [.step] } = sequencerStep (s.take []) := rfl
      rw [htaken, State.take_nil hi, ht]
    · rw [step_of_no_request hi, timerTick_of_armed harmed]
      exact ht s.output
  · rw [step_of_no_request hi, timerTick_of_disarmed hoff]

/-- Settles O42: `reset()` field by field. -/
theorem resetCommandEffect : Obligations.ResetCommandEffect := by
  intro s rest hi
  rw [step_of_request hi]
  rfl

/-- Settles O44: which requests come to a load, and a load by PROG_MAX. -/
theorem loadingReplacesProgramOnly : Obligations.LoadingReplacesProgramOnly := by
  refine ⟨fun s rest name hi => ?_, fun s rest program hi => ?_, fun _ => rfl, fun _ => rfl, fun _ => rfl⟩ <;>
    rw [step_of_request hi, perform]
  · refine ⟨fun texts hname => ?_, fun hname => ?_⟩
    · rw [performLoadPreset_of_some (s := s.take rest) hname]
      constructor
      · exact fun hfits => performLoad_of_le (by simpa using hfits) _
      · exact fun hlong => performLoad_of_lt (by simpa using hlong) _
    · exact performLoadPreset_of_none (s := s.take rest) hname
  · refine ⟨fun hne hfits hwords => ?_, ?_, fun w hw hregs => performAssign_of_words hw hregs, fun hlong hwords => ?_⟩
    · rw [performAssign_of_fit (s := s.take rest) hne hwords]
      exact performLoad_of_le (by simpa using hfits) _
    · rintro rfl
      rfl
    · have hne : program ≠ [] := List.ne_nil_of_length_pos (Nat.zero_lt_of_lt hlong)
      rw [performAssign_of_fit (s := s.take rest) hne hwords]
      exact performLoad_of_lt (by simpa using hlong) _

end Sys2Proof.Machine
end

section
/-!
PROOFS. The statements of 70_reset_and_hazards.md: the power-on state of every legal creation (R250, D17) and the
repeated `reset()` (R254).
-/
namespace Sys2Proof.Machine

/-! ### The second `reset()` (R254) -/

/-- Every field `reset()` writes it writes with a constant, but for memory, where the choice of RESET_CLEARS_MEM is made
again with the same outcome (R207, D18). -/
theorem State.resetCommand_resetCommand (s : State) : s.resetCommand.resetCommand = s.resetCommand := by
  have hmem : s.resetCommand.resetCommand.mem = s.resetCommand.mem := by
    rw [State.resetCommand_mem, State.resetCommand_params, State.resetCommand_mem]
    split_ifs <;> rfl
  calc s.resetCommand.resetCommand
      = { s.resetCommand with mem := s.resetCommand.resetCommand.mem } := rfl
    _ = s.resetCommand := by rw [hmem]

theorem step_reset {s : State} {rest : List Request} (h : s.inputs = .reset :: rest) :
    step s = .next (s.take rest).resetCommand := step_of_request h

/-! ### Creation (R250, R255, U15) -/

theorem create_of_wellFormed {p : Params} (hp : p.WellFormed) : create p = .next (State.powerOn p) := if_pos hp

/-- The default parameters are legal whatever the free constants are: PROG_MAX is one more than a number, the presets
left open are kept only where they are non-empty, and the named preset stands first (log 6, log 7). -/
theorem defaultParams_wellFormed : Config.defaultParams.WellFormed := by
  have hnonempty : Config.defaultParams.presets.all (fun q => !q.2.isEmpty) = true := by
    rw [List.all_eq_true]
    intro q hq
    obtain rfl | hkept := List.mem_cons.mp hq
    · rfl
    · exact (List.mem_filter.mp hkept).2
  have hnamed : Config.defaultParams.presets.lookup Config.fetchDecodeExecuteName =
      some Config.fetchDecodeExecuteTexts := List.lookup_cons_self
  refine ⟨by decide, by decide, decide_eq_true (Nat.le_add_left 1 _), ?_⟩
  rw [Params.presetsLegal, hnonempty, hnamed, Bool.true_and]
  decide

/-! ### The power-on state (R44, D17) -/

theorem State.powerOn_readReg (p : Params) (n : Nat) : (State.powerOn p).readReg n = 0#8 := by
  rw [State.readReg, ite_eq_right_iff]
  exact List.getD_replicate 0#8

/-- An empty memory lists no address, and an unlisted one reads as 0 (R35). -/
theorem State.powerOn_memRead (p : Params) (a : Nat) : (State.powerOn p).memRead a = 0#8 := ite_self _

/-- The invariant asks legal parameters of the power-on state and nothing more: the control store is empty, memory lists
nothing and the timer is off in `idle`. -/
theorem State.powerOn_inv {p : Params} (hp : p.WellFormed) : (State.powerOn p).Inv where
  params_legal := hp
  regs_length := List.length_replicate
  mem_wf := ⟨List.Pairwise.nil, nofun⟩
  mem_within := nofun
  step_within := Nat.zero_le _
  program_fits := Nat.zero_le _
  timer_running := rfl
  not_exhausted := fun _ hne => absurd rfl hne
  running_loaded := nofun
  texts_parse := nofun

/-! ### The obligations -/

/-- Settles O43: taking the second request clears no answer the first has not, and the rest is
`State.resetCommand_resetCommand`. -/
theorem resetCommandIsIdempotent : Obligations.ResetCommandIsIdempotent := by
  intro s rest hi
  refine ⟨(s.take (.reset :: rest)).resetCommand, step_reset hi, ?_⟩
  have htaken : (s.take (.reset :: rest)).resetCommand.take rest = (s.take rest).resetCommand := rfl
  rw [step_reset rfl, htaken, State.resetCommand_resetCommand]
  rfl

/-- Settles O54: State.reset is the power-on state of the default parameters. -/
theorem resetHasInvariant : Obligations.ResetHasInvariant :=
  ⟨State.powerOn_inv defaultParams_wellFormed, fun _ hp => ⟨_, create_of_wellFormed hp, State.powerOn_inv hp⟩⟩

/-- Settles O55: the fields of the power-on state; registers and memory by what they read as. -/
theorem powerOnState : Obligations.PowerOnState := fun p hp =>
  ⟨State.powerOn p, create_of_wellFormed hp, rfl, State.powerOn_readReg p, List.length_replicate, rfl, rfl, rfl, rfl, rfl,
    rfl, rfl, rfl, rfl, State.powerOn_memRead p, rfl, rfl, rfl, rfl, rfl, rfl⟩

end Sys2Proof.Machine
end
